-- ==== Sys2Proof/Word.lean ====
section
/-! DEFINITION. The word types of the block: a byte is 8 bits and a register is 32 bits
(spec/00_scope.md R7, R8; spec/10_state.md R21). -/

namespace Sys2Proof

/-- A byte: the width of every input, output and history access (R74). -/
abbrev Byte := BitVec 8

/-- A host register word, and every `u32` of the block (R8, R21). -/
abbrev Word := BitVec 32

end Sys2Proof
end

