-- ==== Sys2Proof/Config.lean ====
section
/-! DEFINITION. The implementation parameters of the block (spec/00_scope.md R6) and the magic
numbers of the two headers (spec/30_encoding.md R108; PRESUMED by the spec itself: log entry 18).
Every value here is the spec's own; the spec leaves no result of the block open, so there is no
free value. -/

namespace Sys2Proof.Config

/-- The sizes of the history buffer, which a model may take as arguments (R6, item I11 of
spec/93_implementation_defined.md). -/
structure HistParams where
  /-- `HIST_CAPACITY` -/
  capacity : Nat
  /-- `HIST_COMPACT`: the bytes one compaction discards. -/
  compact : Nat
deriving DecidableEq, Repr

/-- `PRS_LONG_MAX_DIST`, the largest distance any command encodes (R6, R70). -/
def prsLongMaxDist : Nat := 0x2000

/-- The constraint of R6 on the history sizes. -/
abbrev HistParams.legal (p : HistParams) : Prop :=
  prsLongMaxDist ≤ p.capacity - p.compact ∧ p.compact ≤ p.capacity

/-- The reference sizing: `HIST_CAPACITY = 0x8000`, `HIST_COMPACT = 0x4000` (R6; log entry
13). -/
def histParams : HistParams := ⟨0x8000, 0x4000⟩

/-- The four bytes `"Yaz0"`, first byte most significant (R108). -/
def yaz0Magic : Word := 0x59617A30

/-- The four bytes `"Yay0"`, first byte most significant (R108). -/
def yay0Magic : Word := 0x59617930

end Sys2Proof.Config
end

