-- ==== Sys2Proof/Syntax.lean ====
section
/-! DEFINITION. The commands of the block: one constructor for each row of
spec/opcode_table.json (spec/30_encoding.md R90, R93, R109, R113, R115). Operands are the field
bits of the encoding, so a distance or a length is computed from them (Machine/Operands.lean). -/

namespace Sys2Proof

/-- A command of a compressed stream, or one of the two headers. -/
inductive Instr where
  /-- PRS `LIT`: control bit `1`, then `L` (R182). -/
  | lit (L : Byte)
  /-- PRS `SCOPY`: control bits `0 0 s1 s0`, then `O` (R183). -/
  | scopy (s1 s0 : Bool) (O : Byte)
  /-- PRS `LCOPY2`: control bits `0 1`, then the 13-bit field `f` and the 3-bit `lll` (R187). -/
  | lcopy2 (f : BitVec 13) (lll : BitVec 3)
  /-- PRS `LCOPY3`: control bits `0 1`, then the field `f`, zero `lll`, and `N` (R188). -/
  | lcopy3 (f : BitVec 13) (N : Byte)
  /-- PRS `END`: control bits `0 1`, then two zero bytes (R185). -/
  | endMark
  /-- Yaz0 `YLIT` (R212). -/
  | yaz0Lit (L : Byte)
  /-- Yaz0 `YCOPY2`: `nr = nnnn D` (R213). -/
  | yaz0Copy2 (n : BitVec 4) (D : BitVec 12)
  /-- Yaz0 `YCOPY3`: `nr = 0000 D`, then `E` (R214). -/
  | yaz0Copy3 (D : BitVec 12) (E : Byte)
  /-- Yay0 `YLIT`: the byte comes from the data stream (R242). -/
  | yay0Lit (L : Byte)
  /-- Yay0 `YCOPY2`: `nr` comes from the count stream (R243). -/
  | yay0Copy2 (n : BitVec 4) (D : BitVec 12)
  /-- Yay0 `YCOPY3`: `nr` from the count stream, `E` from the data stream (R244). -/
  | yay0Copy3 (D : BitVec 12) (E : Byte)
  /-- The `.yaz0` header: declared size and eight padding bytes that nothing checks (R109, R210). -/
  | yaz0Header (size : Word) (padding : BitVec 64)
  /-- The `.yay0` header: declared size and the two stream offsets (R115, R240). -/
  | yay0Header (size countOffset dataOffset : Word)
deriving DecidableEq, Repr

end Sys2Proof
end

