-- ==== Sys2Proof/WellFormed.lean ====
section
/-! DEFINITION. Which terms of `Instr` an encoding of spec/30_encoding.md stands for: the
conditions of R93 and R113 on the field bits. -/

namespace Sys2Proof

/-- The condition of each row (R93, R99, R113): a zero `lll` is `LCOPY3` or `END`, a zero `f`
under a zero `lll` is `END`, a zero high nibble is `YCOPY3`. -/
def Instr.wf : Instr → Bool
  | .lit _ => true
  | .scopy _ _ _ => true
  | .lcopy2 _ lll => lll != 0
  | .lcopy3 f _ => f != 0
  | .endMark => true
  | .yaz0Lit _ => true
  | .yaz0Copy2 n _ => n != 0
  | .yaz0Copy3 _ _ => true
  | .yay0Lit _ => true
  | .yay0Copy2 n _ => n != 0
  | .yay0Copy3 _ _ => true
  | .yaz0Header _ _ => true
  | .yay0Header _ _ _ => true

end Sys2Proof
end

