-- ==== Sys2Proof/Decode.lean ====
section
/-! DEFINITION. Reading commands from the input: the bit_packed_control_reader
(spec/40_control_reader.md), `NextByte` (spec/41_copy_engine.md R173), one decoder for each format
and each header (spec/42_prs.md, 43_yaz0.md, 44_yay0.md), and after them the encoder written from
the tables of spec/30_encoding.md.

A command has no address of its own: its control bits and payload bytes are taken one by one
through three pointers and a residue of control bits, the `Cursor`. A decoder is a total function
of the input and a cursor. It answers the command and the cursor after it, or it refuses by name
with the cursor where it stopped. -/

namespace Sys2Proof

/-- The stream a byte comes from, named by its pointer (R42): `main` is `e.in_pos`. -/
inductive Stream where
  | main | count | data
deriving DecidableEq, Repr

/-- Where the engine stands in its input: the three stream pointers, unbounded naturals (R42),
and the state of the control reader (R44, R140). -/
structure Cursor where
  /-- `e.in_pos` -/
  inPos : Nat
  /-- `e.cnt_pos` -/
  cntPos : Nat
  /-- `e.dat_pos` -/
  datPos : Nat
  /-- `e.ctl_byte` -/
  ctlByte : Byte
  /-- `e.ctl_bits` -/
  ctlBits : Nat
deriving DecidableEq, Repr

/-- The pointer of a stream. -/
def Cursor.ptr (c : Cursor) : Stream → Nat
  | .main => c.inPos
  | .count => c.cntPos
  | .data => c.datPos

/-- The cursor after one byte of a stream: only that pointer moves, by 1 (R42, R173). -/
def Cursor.advance (c : Cursor) : Stream → Cursor
  | .main => { c with inPos := c.inPos + 1 }
  | .count => { c with cntPos := c.cntPos + 1 }
  | .data => { c with datPos := c.datPos + 1 }

/-- What a read of the input answers: a byte, or nothing where `MemRead` raises (R61). -/
abbrev Input := Nat → Option Byte

/-- The answer of a reading step: a value and the cursor after it, or the cursor at which a read
failed, its pointer not advanced (R142, R173, R285). -/
inductive Got (α : Type) where
  | ok (a : α) (c : Cursor)
  | short (c : Cursor)
deriving DecidableEq, Repr

/-- One reading step after another. -/
def Got.bind {α β : Type} (g : Got α) (f : α → Cursor → Got β) : Got β :=
  match g with
  | .ok a c => f a c
  | .short c => .short c

/-- `NextByte(p)` (R173). -/
def nextByte (inp : Input) (p : Stream) (c : Cursor) : Got Byte :=
  match inp (c.ptr p) with
  | some b => .ok b (c.advance p)
  | none => .short c

/-- The lazy fetch of a control byte: only when a bit is asked for and none is left (R144). -/
def refill (inp : Input) (c : Cursor) : Got Unit :=
  if c.ctlBits = 0 then
    match inp c.inPos with
    | some b => .ok () { c with ctlByte := b, inPos := c.inPos + 1, ctlBits := 8 }
    | none => .short c
  else .ok () c

/-- `ReadBitPRS()`: least significant bit first (R142). -/
def readBitPRS (inp : Input) (c : Cursor) : Got Bool :=
  (refill inp c).bind fun _ c =>
    .ok (c.ctlByte.getLsbD 0) { c with ctlByte := c.ctlByte >>> 1, ctlBits := c.ctlBits - 1 }

/-- `ReadBitY()`: most significant bit first (R143). -/
def readBitY (inp : Input) (c : Cursor) : Got Bool :=
  (refill inp c).bind fun _ c =>
    .ok (c.ctlByte.getLsbD 7) { c with ctlByte := c.ctlByte <<< 1, ctlBits := c.ctlBits - 1 }

/-! ### Fields -/

/-- The little-endian `offset16 = (b1 << 8) | b0` of a PRS long form (R94). -/
def offset16 (b0 b1 : Byte) : BitVec 16 := b1 ++ b0

/-- `f = offset16[15:3]` (R95). -/
def longField (o : BitVec 16) : BitVec 13 := o.extractLsb' 3 13

/-- `lll = b0[2:0]` (R98). -/
def longLen (b0 : Byte) : BitVec 3 := b0.extractLsb' 0 3

/-- `nr = (c0 << 8) | c1`, big-endian (R71, R113). -/
def copyCode (c0 c1 : Byte) : BitVec 16 := c0 ++ c1

/-- `nr[15:12]` (R113). -/
def codeNibble (nr : BitVec 16) : BitVec 4 := nr.extractLsb' 12 4

/-- `nr[11:0]` (R113). -/
def codeDist (nr : BitVec 16) : BitVec 12 := nr.extractLsb' 0 12

/-! ### PRS (spec/42_prs.md) -/

/-- `PrsShort()` up to its checks (R183). -/
def decodePrsShort (inp : Input) (c : Cursor) : Got Instr :=
  (readBitPRS inp c).bind fun s1 c =>
  (readBitPRS inp c).bind fun s0 c =>
  (nextByte inp .main c).bind fun O c => .ok (.scopy s1 s0 O) c

/-- `PrsLong()`: the end test comes before the length field is looked at (R99, R184). -/
def decodePrsLong (inp : Input) (c : Cursor) : Got Instr :=
  (nextByte inp .main c).bind fun b0 c =>
  (nextByte inp .main c).bind fun b1 c =>
    let o := offset16 b0 b1
    if o = 0 then .ok .endMark c
    else if longLen b0 ≠ 0 then .ok (.lcopy2 (longField o) (longLen b0)) c
    else (nextByte inp .main c).bind fun N c => .ok (.lcopy3 (longField o) N) c

/-- `PrsCmd()` up to the command's own effect (R181). -/
def decodePrs (inp : Input) (c : Cursor) : Got Instr :=
  (readBitPRS inp c).bind fun first c =>
    if first then (nextByte inp .main c).bind fun L c => .ok (.lit L) c
    else (readBitPRS inp c).bind fun second c =>
      if second then decodePrsLong inp c else decodePrsShort inp c

/-! ### Yaz0 and Yay0 commands (spec/43_yaz0.md, 44_yay0.md) -/

/-- `Yaz0Cmd()` up to the command's own effect: every byte from the one stream (R211 to R214). -/
def decodeYaz0 (inp : Input) (c : Cursor) : Got Instr :=
  (readBitY inp c).bind fun bit c =>
    if bit then (nextByte inp .main c).bind fun L c => .ok (.yaz0Lit L) c
    else
      (nextByte inp .main c).bind fun c0 c =>
      (nextByte inp .main c).bind fun c1 c =>
        let nr := copyCode c0 c1
        if codeNibble nr ≠ 0 then .ok (.yaz0Copy2 (codeNibble nr) (codeDist nr)) c
        else (nextByte inp .main c).bind fun E c => .ok (.yaz0Copy3 (codeDist nr) E) c

/-- `Yay0Cmd()` up to the command's own effect: codes from the count stream, literals and extra
lengths from the data stream (R117, R241 to R244). -/
def decodeYay0 (inp : Input) (c : Cursor) : Got Instr :=
  (readBitY inp c).bind fun bit c =>
    if bit then (nextByte inp .data c).bind fun L c => .ok (.yay0Lit L) c
    else
      (nextByte inp .count c).bind fun c0 c =>
      (nextByte inp .count c).bind fun c1 c =>
        let nr := copyCode c0 c1
        if codeNibble nr ≠ 0 then .ok (.yay0Copy2 (codeNibble nr) (codeDist nr)) c
        else (nextByte inp .data c).bind fun E c => .ok (.yay0Copy3 (codeDist nr) E) c

/-! ### Headers -/

/-- `ReadU32BE()` over `e.in_pos`, first byte most significant (R71, R240). -/
def readU32BE (inp : Input) (c : Cursor) : Got Word :=
  (nextByte inp .main c).bind fun b0 c =>
  (nextByte inp .main c).bind fun b1 c =>
  (nextByte inp .main c).bind fun b2 c =>
  (nextByte inp .main c).bind fun b3 c => .ok (b0 ++ b1 ++ b2 ++ b3) c

/-- What a decoder answers: a command with the cursor after it, or a refusal by name. -/
inductive Decoded where
  /-- A command was read. -/
  | instr (i : Instr) (c : Cursor)
  /-- A read at or past the end of the input: `Corrupted` (R272). `declared` is the size a Yaz0
  header had already stored in `e.total` when the read failed (R210). -/
  | truncated (c : Cursor) (declared : Option Word)
  /-- The four magic bytes are present and wrong: `Unrecognized` (R273). -/
  | unrecognized (c : Cursor)
deriving DecidableEq, Repr

/-- A command's reading as a decoder's answer. -/
def Got.decoded (g : Got Instr) : Decoded :=
  match g with
  | .ok i c => .instr i c
  | .short c => .truncated c none

/-- `Yaz0Header()` up to its effect: magic, size, eight unchecked padding bytes (R210). The size
is stored before the padding is read. -/
def decodeYaz0Header (inp : Input) (c : Cursor) : Decoded :=
  match readU32BE inp c with
  | .short c => .truncated c none
  | .ok magic c =>
    if magic ≠ Config.yaz0Magic then .unrecognized c
    else
      match readU32BE inp c with
      | .short c => .truncated c none
      | .ok size c =>
        match (readU32BE inp c).bind fun p c => (readU32BE inp c).bind fun q c =>
          Got.ok (α := BitVec 64) (p ++ q) c with
        | .short c => .truncated c (some size)
        | .ok padding c => .instr (.yaz0Header size padding) c

/-- `Yay0Header()` up to its effect: magic, size, count offset, data offset (R240). Nothing is
stored before all sixteen bytes are read. -/
def decodeYay0Header (inp : Input) (c : Cursor) : Decoded :=
  match readU32BE inp c with
  | .short c => .truncated c none
  | .ok magic c =>
    if magic ≠ Config.yay0Magic then .unrecognized c
    else
      ((readU32BE inp c).bind fun size c =>
       (readU32BE inp c).bind fun co c =>
       (readU32BE inp c).bind fun dof c => .ok (.yay0Header size co dof) c).decoded

/-- What a step reads: a command of one of the three formats, or a header (R162, R163). A PRS
stream has no header and its header step reads nothing (R180). -/
inductive Slot where
  | prsCommand | yaz0Command | yay0Command | yaz0Header | yay0Header
deriving DecidableEq, Repr

/-- The decoder of a slot. -/
def decode (slot : Slot) (inp : Input) (c : Cursor) : Decoded :=
  match slot with
  | .prsCommand => (decodePrs inp c).decoded
  | .yaz0Command => (decodeYaz0 inp c).decoded
  | .yay0Command => (decodeYay0 inp c).decoded
  | .yaz0Header => decodeYaz0Header inp c
  | .yay0Header => decodeYay0Header inp c

/-! ### The encoder (spec/30_encoding.md R93, R109, R113, R115, R117) -/

/-- The slot an instruction is read in. -/
def Instr.slot : Instr → Slot
  | .lit _ => .prsCommand
  | .scopy _ _ _ => .prsCommand
  | .lcopy2 _ _ => .prsCommand
  | .lcopy3 _ _ => .prsCommand
  | .endMark => .prsCommand
  | .yaz0Lit _ => .yaz0Command
  | .yaz0Copy2 _ _ => .yaz0Command
  | .yaz0Copy3 _ _ => .yaz0Command
  | .yay0Lit _ => .yay0Command
  | .yay0Copy2 _ _ => .yay0Command
  | .yay0Copy3 _ _ => .yay0Command
  | .yaz0Header _ _ => .yaz0Header
  | .yay0Header _ _ _ => .yay0Header

/-- The code of a command, as the notation of spec/INDEX.md writes it: control bits in reading
order, then payload bytes in stream order, each with the stream it comes from. -/
structure Code where
  ctl : List Bool
  payload : List (Stream × Byte)
deriving DecidableEq, Repr

/-- The four bytes of a big-endian `u32`, in the main stream. -/
def u32Bytes (w : Word) : List (Stream × Byte) :=
  [(.main, w.extractLsb' 24 8), (.main, w.extractLsb' 16 8),
   (.main, w.extractLsb' 8 8), (.main, w.extractLsb' 0 8)]

/-- The code of an instruction (R93, R109, R113, R115, with the streams of R117). -/
def encode : Instr → Code
  | .lit L => ⟨[true], [(.main, L)]⟩
  | .scopy s1 s0 O => ⟨[false, false, s1, s0], [(.main, O)]⟩
  | .lcopy2 f lll =>
    ⟨[false, true], [(.main, f.extractLsb' 0 5 ++ lll), (.main, f.extractLsb' 5 8)]⟩
  | .lcopy3 f N =>
    ⟨[false, true],
      [(.main, f.extractLsb' 0 5 ++ (0 : BitVec 3)), (.main, f.extractLsb' 5 8), (.main, N)]⟩
  | .endMark => ⟨[false, true], [(.main, 0), (.main, 0)]⟩
  | .yaz0Lit L => ⟨[true], [(.main, L)]⟩
  | .yaz0Copy2 n D =>
    ⟨[false], [(.main, n ++ D.extractLsb' 8 4), (.main, D.extractLsb' 0 8)]⟩
  | .yaz0Copy3 D E =>
    ⟨[false],
      [(.main, (0 : BitVec 4) ++ D.extractLsb' 8 4), (.main, D.extractLsb' 0 8), (.main, E)]⟩
  | .yay0Lit L => ⟨[true], [(.data, L)]⟩
  | .yay0Copy2 n D =>
    ⟨[false], [(.count, n ++ D.extractLsb' 8 4), (.count, D.extractLsb' 0 8)]⟩
  | .yay0Copy3 D E =>
    ⟨[false],
      [(.count, (0 : BitVec 4) ++ D.extractLsb' 8 4), (.count, D.extractLsb' 0 8), (.data, E)]⟩
  | .yaz0Header size padding =>
    ⟨[], u32Bytes Config.yaz0Magic ++ u32Bytes size ++ u32Bytes (padding.extractLsb' 32 32) ++
      u32Bytes (padding.extractLsb' 0 32)⟩
  | .yay0Header size co dof =>
    ⟨[], u32Bytes Config.yay0Magic ++ u32Bytes size ++ u32Bytes co ++ u32Bytes dof⟩

/-- Control bits packed into a byte, the first of them in bit 0, the unused bits 0 (R92). -/
def packLsb : List Bool → Byte
  | [] => 0
  | b :: bs => (packLsb bs <<< 1) ||| (if b then 1 else 0)

/-- Control bits packed into a byte, the first of them in bit 7, the unused bits 0 (R112). -/
def packMsb : List Bool → Byte
  | [] => 0
  | b :: bs => (packMsb bs >>> 1) ||| (if b then 0x80 else 0)

/-- The control byte that holds a command's control bits first (R92, R112). -/
def controlByte (i : Instr) : Byte :=
  match i.slot with
  | .prsCommand => packLsb (encode i).ctl
  | _ => packMsb (encode i).ctl

/-- The bytes of an instruction whose control bits stand first in a fresh control byte (a header
has no control byte), in reading order. -/
def encodeBytes (i : Instr) : List Byte :=
  (if (encode i).ctl.isEmpty then [] else [controlByte i]) ++ (encode i).payload.map Prod.snd

/-! ### Words numbered as the opcode table numbers them -/

/-- Byte `k` of a word whose bit 0 is the least significant bit of the first byte. -/
def wordByte (w k : Nat) : Byte := BitVec.ofNat 8 (w >>> (8 * k))

/-- The longest instruction, a header, in bytes (R109, R115). -/
def maxInstrBytes : Nat := 16

/-- The instruction's word with every bit above `nbits` zero. -/
def tableWord (nbits w : Nat) : Nat := w % 2 ^ nbits

/-- The slot a table word is for. The table's rows carry no format bits (`CTRL.FMT` selects the
format), so the word's own bytes choose, by a convention of the model's own, DESIGN CHOICE (log
entry 9). The two magics are headers. A control byte a PRS command does not have (R93, unused bits
0), or one of 0 or 1 before two or more payload bytes, is a Yaz0 command; with its last bit 1,
which no command of one control bit uses, a Yay0 command. Anything else is a PRS command. -/
def slotOfWord (nbits w : Nat) : Slot :=
  let ctl := wordByte w 0
  let magic : Word := ctl ++ wordByte w 1 ++ wordByte w 2 ++ wordByte w 3
  if magic = Config.yaz0Magic then .yaz0Header
  else if magic = Config.yay0Magic then .yay0Header
  else if 0x10 ≤ ctl.toNat ∨ (ctl.toNat ≤ 1 ∧ 24 ≤ nbits) then
    if ctl.getLsbD 0 then .yay0Command else .yaz0Command
  else .prsCommand

/-- The bytes of a table word as they are laid out, one after the other; the last bit of a Yay0
control byte only chose the slot. -/
def wordBytes (slot : Slot) (w : Nat) : List Byte :=
  (List.range maxInstrBytes).map fun k =>
    if k = 0 ∧ slot = .yay0Command then wordByte w 0 &&& 0xFE else wordByte w k

/-- Where the streams stand for a word laid out from `p`, no control bit left over. Only Yay0 has
more than one stream: its count bytes, if the command has them, precede its data byte. -/
def slotCursor (slot : Slot) (w p : Nat) : Cursor :=
  if slot = .yay0Command then
    ⟨p, p + 1, if (wordByte w 0).getLsbD 7 then p + 1 else p + 3, 0, 0⟩
  else ⟨p, 0, 0, 0, 0⟩

/-- The instruction the decoder reads from a table word: its first byte a fresh control byte (a
header has none), then the payload bytes. -/
def decodeTableWord (nbits w : Nat) : Option Instr :=
  let w := tableWord nbits w
  let slot := slotOfWord nbits w
  match decode slot (fun a => (wordBytes slot w)[a]?) (slotCursor slot w 0) with
  | .instr i _ => some i
  | .truncated _ _ => none
  | .unrecognized _ => none

end Sys2Proof
end

