-- ==== Sys2Proof/Machine/State.lean ====
section
/-! DEFINITION. The state of the block as plain data (spec/10_state.md R21 to R49), the reasons a
step can stop, and the state after reset (R47, spec/70_reset_and_hazards.md R300). -/

namespace Sys2Proof.Machine

/-- `e.phase` (R40, R43). -/
inductive Phase where
  | idle | header | cmd | copy | done | error
deriving DecidableEq, Repr

/-- The error classes of spec/60_exceptions.md R270. -/
inductive ErrClass where
  | unsupported | corrupted | unrecognized | backrefTooDistant | overflow
deriving DecidableEq, Repr

/-- The history buffer (R65): `bytes` are the bytes of `e.hist` that some append has written since
reset, oldest index first; `size` is `e.hsize`. The bytes of `e.hist` beyond the list are the
unspecified ones of R47, which nothing reads: they are absent here (DEDUCED, safe: log entry 2). -/
structure History where
  bytes : List Byte
  size : Nat
deriving DecidableEq, Repr

/-- The input memory (R60): address and byte pairs, addresses rising, no byte listed that an
unlisted address reads as (Machine/Memory.lean). -/
abbrev Memory := List Host.Cell

/-- What the outside world does between two engine steps (R20, R161, R300): the model's own
alphabet (DESIGN CHOICE, safe: log entry 4). Addresses, offsets and widths in bytes. -/
inductive HostEvent where
  /-- A write of the register port: `width` bytes at offset `off` of the window (R21). -/
  | write (off width : Nat) (value : Word)
  /-- A read of the register port (R21). -/
  | read (off width : Nat)
  /-- The host sets one byte of the input memory (R60, R79). -/
  | input (addr : Nat) (b : Byte)
  /-- The platform's reset (R300). -/
  | reset
  /-- The host does nothing and the engine takes its step (R311). -/
  | engine
deriving DecidableEq, Repr

/-- Everything the spec gives the machine (R40, R47), the input memory it reads, and two fields of
the model's own: what the host will do next, and the word its last register read returned. -/
structure State where
  /-- `CTRL.FMT` (R23). -/
  fmt : BitVec 2
  /-- `IN_BASE` (R31). -/
  inBase : Word
  /-- `IN_SIZE` (R32). -/
  inSize : Word
  /-- `MAX_BYTES` (R33). -/
  maxBytes : Word
  /-- `e.phase` (R43). -/
  phase : Phase
  /-- `e.capped` (R29). -/
  capped : Bool
  /-- `e.err`; `none` is code 0 (R30). -/
  err : Option ErrClass
  /-- `e.in_pos`, `e.cnt_pos`, `e.dat_pos`, `e.ctl_byte`, `e.ctl_bits` (R42, R44). -/
  cur : Cursor
  /-- `e.hist` and `e.hsize` (R65). -/
  hist : History
  /-- `e.written` (R34). -/
  written : Word
  /-- `e.total` (R35). -/
  total : Word
  /-- `e.copy_dist` (R45). -/
  copyDist : Nat
  /-- `e.copy_rem` (R45). -/
  copyRem : Nat
  /-- `out`, the output of the operation, oldest byte first (R46, R63). -/
  out : List Byte
  /-- `IN` (R60). -/
  mem : Memory
  /-- The model's own: the host accesses to come, first one first. Empty: the engine runs on
  (DESIGN CHOICE, safe: log entry 4). -/
  host : List HostEvent
  /-- The model's own: the word the last register read returned (DESIGN CHOICE, safe: log
  entry 5). -/
  readData : Option Word
deriving DecidableEq, Repr

/-- Why the machine stops. Each constructor is a precondition the spec states and no run of the
block violates; stopping there is safe (DEDUCED: log entry 10). -/
inductive Fault where
  /-- Raised by the copy step: `HistRead`'s `require 1 <= d <= e.hsize` fails (R67, item I2 of
  spec/93_implementation_defined.md: "a model that reaches a failed require faults"). Safe. -/
  | historyUnderflow
  /-- Raised by the copy step: phase COPY with `e.copy_rem = 0`, against R169's
  `e.copy_rem >= 1`. Safe. -/
  | copyWithoutBytes
  /-- Raised by a Yaz0 or Yay0 copy: `e.total - e.written >= 1` fails, against R217, so that
  `StartCopy` would get no length. Safe. -/
  | declaredSizeReached
  /-- Raised by the command step: phase CMD with `CTRL.FMT = 3`, which R163 says is never
  reached. Safe. -/
  | commandOfReservedFormat
deriving DecidableEq, Repr

/-- What the model gives no meaning. -/
inductive Refusal where
  /-- An instruction that has no meaning yet; no arm raises it. Safe. -/
  | notModelled (mnemonic : String)
  /-- Raised by a register access that is not one 32-bit word: "a model refuses it" (R21, item I7
  of spec/93_implementation_defined.md). Safe. -/
  | notAWordAccess
  /-- Raised by a register access at an offset that is no multiple of 4 (R21, item I7). Safe. -/
  | misalignedAccess
  /-- Raised by a register access outside the 64-byte window (R21): it is no access of this
  block (DEDUCED: log entry 6). Safe. -/
  | outsideRegisterWindow
  /-- Raised when the host changes a byte of `IN` while BUSY = 1: "a run outside this spec" (R79,
  item I8; DEDUCED: log entry 7), or a byte at or beyond IN_SIZE, of which the spec says nothing
  (DESIGN CHOICE: log entry 19). Safe. -/
  | inputChangedWhileBusy
deriving DecidableEq, Repr

/-- The state after reset (R47). Every register's value is the spec's. The input memory belongs to
the host, and no byte of it is listed; the model's own two fields are empty (log entries 1, 4,
5). -/
def State.reset : State where
  fmt := 0
  inBase := 0
  inSize := 0
  maxBytes := 0
  phase := .idle
  capped := false
  err := none
  cur := ⟨0, 0, 0, 0, 0⟩
  hist := ⟨[], 0⟩
  written := 0
  total := 0
  copyDist := 0
  copyRem := 0
  out := []
  mem := []
  host := []
  readData := none

end Sys2Proof.Machine
end

