-- ==== Sys2Proof/Machine/Operands.lean ====
section
/-! DEFINITION. The distance and the length of every copy command, computed from its field bits
(spec/30_encoding.md R95 to R98, R113). -/

namespace Sys2Proof.Machine

/-- `d = 256 - O`, 1 to 256 (R96). -/
def scopyDist (O : Byte) : Nat := 256 - O.toNat

/-- `((s1 << 1) | s0) + 2`, 2 to 5, `s1` read first (R97). -/
def scopyLen (s1 s0 : Bool) : Nat := 2 * s1.toNat + s0.toNat + 2

/-- `d = 0x2000 - f`, 1 to 8192 (R95). -/
def longDist (f : BitVec 13) : Nat := 0x2000 - f.toNat

/-- `lll + 2`, 3 to 9 (R98). -/
def lcopy2Len (lll : BitVec 3) : Nat := lll.toNat + 2

/-- `N + 1`, 1 to 256 (R98). -/
def lcopy3Len (N : Byte) : Nat := N.toNat + 1

/-- `(nr & 0x0FFF) + 1`, 1 to 4096 (R113). -/
def yDist (D : BitVec 12) : Nat := D.toNat + 1

/-- `nnnn + 2`, 3 to 17 (R113). -/
def ycopy2Len (n : BitVec 4) : Nat := n.toNat + 2

/-- `E + 0x12`, 18 to 273 (R113). -/
def ycopy3Len (E : Byte) : Nat := E.toNat + 0x12

end Sys2Proof.Machine
end

