-- ==== Sys2Proof/Machine/Flags.lean ====
section
/-! DEFINITION. The STATUS bits and the error codes, computed from engine state
(spec/10_state.md R25, R43; spec/60_exceptions.md R270). -/

namespace Sys2Proof.Machine

/-- `BUSY = (e.phase in {HEADER, CMD, COPY})` (R43). -/
def State.busy (s : State) : Bool :=
  match s.phase with
  | .header => true
  | .cmd => true
  | .copy => true
  | .idle => false
  | .done => false
  | .error => false

/-- The numeric code of an error class (R270). -/
def ErrClass.code : ErrClass → BitVec 4
  | .unsupported => 1
  | .corrupted => 2
  | .unrecognized => 3
  | .backrefTooDistant => 4
  | .overflow => 5

/-- `ERR_CODE`: 0 when there is none (R30). -/
def State.errCode (s : State) : BitVec 4 :=
  match s.err with
  | some e => e.code
  | none => 0

/-- The STATUS word: bits 0 BUSY, 1 DONE, 2 ERROR, 3 CAPPED, 7:4 ERR_CODE, the rest 0 (R25). -/
def State.status (s : State) : Word :=
  (0 : BitVec 24) ++ s.errCode ++ BitVec.ofBool s.capped ++ BitVec.ofBool (s.phase == .error)
    ++ BitVec.ofBool (s.phase == .done) ++ BitVec.ofBool s.busy

end Sys2Proof.Machine
end

