-- ==== Sys2Proof/Machine/History.lean ====
section
/-! DEFINITION. The history buffer, unit lzss_history_buffer (spec/20_memory.md R65 to R69). -/

namespace Sys2Proof.Machine

/-- `HistAppend(b)` for given sizes (R66, R6): store at index `e.hsize`, count it, and on reaching
the capacity shift the newest `capacity - compact` bytes down. What the shift leaves above them is
stale and never read. -/
def History.append (p : Config.HistParams) (h : History) (b : Byte) : History :=
  let bytes := h.bytes.take h.size ++ b :: h.bytes.drop (h.size + 1)
  if h.size + 1 = p.capacity then
    { bytes := (bytes.drop p.compact).take (p.capacity - p.compact)
        ++ bytes.drop (p.capacity - p.compact),
      size := p.capacity - p.compact }
  else { bytes := bytes, size := h.size + 1 }

/-- `HistRead(d)`: the byte `d` positions before the logical end; `none` where its `require`
fails (R67). -/
def History.read (h : History) (d : Nat) : Option Byte :=
  if 1 ≤ d ∧ d ≤ h.size then h.bytes[h.size - d]? else none

/-- The start step's `e.hsize <- 0`: "created empty" (R65, R160). -/
def History.clear (h : History) : History := { h with size := 0 }

end Sys2Proof.Machine
end

