-- ==== Sys2Proof/Machine/Memory.lean ====
section
/-! DEFINITION. The input memory `IN` (spec/20_memory.md R60 to R62): reading and setting one
byte, its canonical form, and `MemRead`. -/

namespace Sys2Proof.Machine

/-- What an address reads as that the list does not hold. The spec gives `IN` no reset contents
(the host supplies it), so this is DESIGN CHOICE (log entry 1). -/
def Memory.unlisted : Byte := 0

/-- One byte of the input memory. -/
def Memory.read : Memory → Nat → Byte
  | [], _ => Memory.unlisted
  | (k, v) :: rest, a => if k = a then v else Memory.read rest a

/-- Set one byte, keeping the canonical form. -/
def Memory.write : Memory → Nat → Byte → Memory
  | [], a, b => if b = Memory.unlisted then [] else [(a, b)]
  | (k, v) :: rest, a, b =>
    if a < k then (if b = Memory.unlisted then (k, v) :: rest else (a, b) :: (k, v) :: rest)
    else if a = k then (if b = Memory.unlisted then rest else (a, b) :: rest)
    else (k, v) :: Memory.write rest a b

/-- The canonical form: addresses strictly rising, no entry equal to what an unlisted address
reads as. -/
abbrev Memory.wf (m : Memory) : Prop :=
  m.Pairwise (fun x y => x.1 < y.1) ∧ ∀ c ∈ m, c.2 ≠ Memory.unlisted

/-- Set consecutive bytes. -/
def Memory.writeAll (m : Memory) (a : Nat) : List Byte → Memory
  | [] => m
  | b :: bs => Memory.writeAll (Memory.write m a b) (a + 1) bs

/-- `MemRead(a, 1)`: `none` where it raises `Corrupted`, at `a >= IN_SIZE` (R61). -/
def State.input (s : State) : Input := fun a =>
  if a < s.inSize.toNat then some (s.mem.read a) else none

end Sys2Proof.Machine
end

