-- ==== Sys2Proof/Machine/Ops.lean ====
section
/-! DEFINITION. The operations every format shares (spec/41_copy_engine.md, 43_yaz0.md R215 to
R218, 60_exceptions.md R276): taking an error and starting afresh, emitting a byte, ending at the
size limit, the distance check, handing a copy to the copy engine, the copy step. -/

namespace Sys2Proof.Machine

/-! ### Updates of the state, by name -/

/-- The cursor after the reads of a step. -/
def State.setCur (s : State) (c : Cursor) : State := { s with cur := c }

/-- `e.phase <- p`. -/
def State.setPhase (s : State) (p : Phase) : State := { s with phase := p }

/-- `e.total <- w`. -/
def State.setTotal (s : State) (w : Word) : State := { s with total := w }

/-- The host accesses still to come. -/
def State.setHost (s : State) (l : List HostEvent) : State := { s with host := l }

/-- `e.copy_rem <- n`. -/
def State.setRem (s : State) (n : Nat) : State := { s with copyRem := n }

/-- The three writes of `Emit`: history, output, counter (R164). -/
def State.pushByte (s : State) (b : Byte) : State :=
  { s with
    hist := s.hist.append Config.histParams b, out := s.out ++ [b], written := s.written + 1 }

/-- `StartCopy(d, n)` (R168). -/
def State.startCopy (s : State) (d n : Nat) : State :=
  { s with copyDist := d, copyRem := n, phase := .copy }

/-- The PRS cap's end of the operation: CAPPED and DONE (R165, R186). -/
def State.capOff (s : State) : State := { s with capped := true, phase := .done }

/-! ### Taking an error, and leaving one -/

/-- `raise E`: record the code, enter ERROR, roll nothing back (R276). There is no handler, no
saved pointer and no mode (R276, R282). -/
def raise (e : ErrClass) (s : State) : State := { s with err := some e, phase := .error }

/-- `Start()`, the start step (R160). It is the only way out of an error (R280): there is no
return, and nothing of the last operation is kept. -/
def start (s : State) : State :=
  { s with
    phase := .header, capped := false, err := none, cur := ⟨s.inBase.toNat, 0, 0, 0, 0⟩,
    hist := s.hist.clear, written := 0, total := 0, copyDist := 0, copyRem := 0, out := [] }

/-! ### One atomic step, statement by statement -/

/-- What a part of a step leaves: it goes on, it has ended by `raise` (R11: "no later statement of
that step runs"), or a precondition of the spec does not hold. -/
inductive Micro where
  | go (s : State)
  | raised (s : State)
  | stuck (f : Fault)
deriving DecidableEq, Repr

/-- The next statement of the step. -/
def Micro.andThen (m : Micro) (f : State → Micro) : Micro :=
  match m with
  | .go s => f s
  | .raised s => .raised s
  | .stuck r => .stuck r

/-- The step's outcome: an error is a next state (R276). -/
def Micro.outcome (m : Micro) : Host.Outcome State Fault Refusal :=
  match m with
  | .go s => .next s
  | .raised s => .next s
  | .stuck r => .fault r

/-! ### Emitting a byte -/

/-- `Emit(b)` (R164). -/
def emit (b : Byte) (s : State) : Micro :=
  if s.written = 0xFFFFFFFF then .raised (raise .overflow s) else .go (s.pushByte b)

/-- `AfterEmit()` (R165): the PRS cap, or the declared size. -/
def afterEmit (s : State) : State :=
  if s.fmt = 0 then
    if s.maxBytes ≠ 0 ∧ s.written = s.maxBytes then s.capOff else s
  else if s.written = s.total then s.setPhase .done else s

/-- `ExecLiteral(b)` (R166). -/
def execLiteral (b : Byte) (s : State) : Micro :=
  (emit b s).andThen fun s => .go (afterEmit s)

/-! ### Copies -/

/-- `CheckDist(d)` (R167). -/
def checkDist (d : Nat) (s : State) : Micro :=
  if s.written.toNat < d then .raised (raise .backrefTooDistant s) else .go s

/-- The whole of a PRS copy command after its reads (R183, R187, R188). -/
def prsCopy (d n : Nat) (s : State) : Micro :=
  (checkDist d s).andThen fun s => .go (s.startCopy d n)

/-- `YLitFinish(L)` (R218). -/
def yLitFinish (L : Byte) (s : State) : Micro :=
  if s.maxBytes ≠ 0 ∧ s.maxBytes.toNat < s.written.toNat + 1 then .raised (raise .overflow s)
  else execLiteral L s

/-- `n_eff`, a copy's length cut to what the declared size leaves (R215, R217). -/
def cutLen (n : Nat) (s : State) : Nat := min n (s.total.toNat - s.written.toNat)

/-- `YCopyFinish(d, n)` (R217). Its precondition `e.total - e.written >= 1` stops the machine
where it fails. -/
def yCopyFinish (d n : Nat) (s : State) : Micro :=
  (checkDist d s).andThen fun s =>
    if s.total.toNat ≤ s.written.toNat then .stuck .declaredSizeReached
    else if s.maxBytes ≠ 0 ∧ s.maxBytes.toNat < s.written.toNat + cutLen n s then
      .raised (raise .overflow s)
    else .go (s.startCopy d (cutLen n s))

/-- `CopyStep()`, one byte of the copy in progress (R169). -/
def copyStep (s : State) : Micro :=
  if s.copyRem = 0 then .stuck .copyWithoutBytes
  else
    match s.hist.read s.copyDist with
    | none => .stuck .historyUnderflow
    | some b =>
      (emit b s).andThen fun s =>
        let s := s.setRem (s.copyRem - 1)
        .go (afterEmit (if s.copyRem = 0 then s.setPhase .cmd else s))

/-- The last statement of a Yaz0 or Yay0 header: nothing to produce, or the first command (R210,
R240). -/
def enterBody (s : State) : State := s.setPhase (if s.total = 0 then .done else .cmd)

end Sys2Proof.Machine
end

