-- ==== Sys2Proof/Machine/Prs.lean ====
section
/-! DEFINITION. The meanings of the PRS commands (spec/42_prs.md R182 to R188). A meaning starts
where the command's bits and bytes have been read, the pointers standing after it (R171). -/

namespace Sys2Proof.Machine

/-- `LIT` (R182). -/
def execLit (L : Byte) (s : State) : Host.Outcome State Fault Refusal :=
  (execLiteral L s).outcome

/-- `SCOPY` (R183). -/
def execScopy (s1 s0 : Bool) (O : Byte) (s : State) : Host.Outcome State Fault Refusal :=
  (prsCopy (scopyDist O) (scopyLen s1 s0) s).outcome

/-- `LCOPY2` (R187). -/
def execLcopy2 (f : BitVec 13) (lll : BitVec 3) (s : State) :
    Host.Outcome State Fault Refusal :=
  (prsCopy (longDist f) (lcopy2Len lll) s).outcome

/-- `LCOPY3` (R188). -/
def execLcopy3 (f : BitVec 13) (N : Byte) (s : State) : Host.Outcome State Fault Refusal :=
  (prsCopy (longDist f) (lcopy3Len N) s).outcome

/-- `END`: `e.phase <- DONE`, CAPPED stays 0 (R185). -/
def execEndMark (s : State) : Host.Outcome State Fault Refusal :=
  .next (s.setPhase .done)

end Sys2Proof.Machine
end

