-- ==== Sys2Proof/Machine/Yay0.lean ====
section
/-! DEFINITION. The meanings of the Yay0 header and commands (spec/44_yay0.md R240 to R244). A
command's bytes come from other streams than Yaz0's (Decode.lean); its effect is the same. -/

namespace Sys2Proof.Machine

/-- `YLIT` of Yay0 (R242). -/
def execYay0Lit (L : Byte) (s : State) : Host.Outcome State Fault Refusal :=
  (yLitFinish L s).outcome

/-- `YCOPY2` of Yay0 (R243). -/
def execYay0Copy2 (n : BitVec 4) (D : BitVec 12) (s : State) :
    Host.Outcome State Fault Refusal :=
  (yCopyFinish (yDist D) (ycopy2Len n) s).outcome

/-- `YCOPY3` of Yay0 (R244). -/
def execYay0Copy3 (D : BitVec 12) (E : Byte) (s : State) : Host.Outcome State Fault Refusal :=
  (yCopyFinish (yDist D) (ycopy3Len E) s).outcome

/-- The three writes of the Yay0 header: declared size, and the two stream pointers, computed
without wrap (R240, R116). -/
def State.setYay0 (s : State) (size countOffset dataOffset : Word) : State :=
  { s with
    total := size,
    cur := { s.cur with
      cntPos := s.inBase.toNat + countOffset.toNat,
      datPos := s.inBase.toNat + dataOffset.toNat } }

/-- `.yay0` (R240). -/
def execYay0Header (size countOffset dataOffset : Word) (s : State) :
    Host.Outcome State Fault Refusal :=
  .next (enterBody (s.setYay0 size countOffset dataOffset))

end Sys2Proof.Machine
end

