-- ==== Sys2Proof/Machine/Yaz0.lean ====
section
/-! DEFINITION. The meanings of the Yaz0 header and commands (spec/43_yaz0.md R210 to R214). -/

namespace Sys2Proof.Machine

/-- `YLIT` of Yaz0 (R212). -/
def execYaz0Lit (L : Byte) (s : State) : Host.Outcome State Fault Refusal :=
  (yLitFinish L s).outcome

/-- `YCOPY2` of Yaz0 (R213). -/
def execYaz0Copy2 (n : BitVec 4) (D : BitVec 12) (s : State) :
    Host.Outcome State Fault Refusal :=
  (yCopyFinish (yDist D) (ycopy2Len n) s).outcome

/-- `YCOPY3` of Yaz0 (R214). -/
def execYaz0Copy3 (D : BitVec 12) (E : Byte) (s : State) : Host.Outcome State Fault Refusal :=
  (yCopyFinish (yDist D) (ycopy3Len E) s).outcome

/-- `.yaz0`: `e.total <- s`, then DONE or CMD; the padding is not checked (R210). -/
def execYaz0Header (size : Word) (_padding : BitVec 64) (s : State) :
    Host.Outcome State Fault Refusal :=
  .next (enterBody (s.setTotal size))

end Sys2Proof.Machine
end

