-- ==== Sys2Proof/Machine/Dispatch.lean ====
section
/-! DEFINITION. The meaning of every instruction, one arm each. -/

namespace Sys2Proof.Machine

def exec (i : Instr) (s : State) : Host.Outcome State Fault Refusal :=
  match i with
  | .lit L => Sys2Proof.Machine.execLit L s
  | .scopy s1 s0 O => Sys2Proof.Machine.execScopy s1 s0 O s
  | .lcopy2 f lll => Sys2Proof.Machine.execLcopy2 f lll s
  | .lcopy3 f N => Sys2Proof.Machine.execLcopy3 f N s
  | .endMark => Sys2Proof.Machine.execEndMark s
  | .yaz0Lit L => Sys2Proof.Machine.execYaz0Lit L s
  | .yaz0Copy2 n D => Sys2Proof.Machine.execYaz0Copy2 n D s
  | .yaz0Copy3 D E => Sys2Proof.Machine.execYaz0Copy3 D E s
  | .yay0Lit L => Sys2Proof.Machine.execYay0Lit L s
  | .yay0Copy2 n D => Sys2Proof.Machine.execYay0Copy2 n D s
  | .yay0Copy3 D E => Sys2Proof.Machine.execYay0Copy3 D E s
  | .yaz0Header size padding => Sys2Proof.Machine.execYaz0Header size padding s
  | .yay0Header size countOffset dataOffset => Sys2Proof.Machine.execYay0Header size countOffset dataOffset s

end Sys2Proof.Machine
end

