-- ==== Sys2Proof/Machine/Engine.lean ====
section
/-! DEFINITION. The steps of the engine (spec/41_copy_engine.md R161 to R163, R172). -/

namespace Sys2Proof.Machine

/-- A decoder's answer as a step: the command runs where its bytes have been read, or the error is
taken there, with the state the reads wrote kept (R276, R285; DEDUCED, safe: log entry 11). -/
def runDecoded (s : State) (d : Decoded) : Host.Outcome State Fault Refusal :=
  match d with
  | .instr i c => exec i (s.setCur c)
  | .truncated c none => .next (raise .corrupted (s.setCur c))
  | .truncated c (some size) => .next (raise .corrupted ((s.setCur c).setTotal size))
  | .unrecognized c => .next (raise .unrecognized (s.setCur c))

/-- `HeaderStep()` (R162, R180, R210, R240, R271). -/
def headerStep (s : State) : Host.Outcome State Fault Refusal :=
  if s.fmt = 0 then .next (s.setPhase .cmd)
  else if s.fmt = 1 then runDecoded s (decode .yaz0Header s.input s.cur)
  else if s.fmt = 2 then runDecoded s (decode .yay0Header s.input s.cur)
  else .next (raise .unsupported s)

/-- The command step (R163): "FMT = 3 never reaches a command step". -/
def commandStep (s : State) : Host.Outcome State Fault Refusal :=
  if s.fmt = 0 then runDecoded s (decode .prsCommand s.input s.cur)
  else if s.fmt = 1 then runDecoded s (decode .yaz0Command s.input s.cur)
  else if s.fmt = 2 then runDecoded s (decode .yay0Command s.input s.cur)
  else .fault .commandOfReservedFormat

/-- One step of the engine (R161). In IDLE, DONE and ERROR it takes none: the state stays as it is
(R172; DESIGN CHOICE, safe: log entry 3). -/
def engineStep (s : State) : Host.Outcome State Fault Refusal :=
  match s.phase with
  | .header => headerStep s
  | .cmd => commandStep s
  | .copy => (copyStep s).outcome
  | .idle => .next s
  | .done => .next s
  | .error => .next s

end Sys2Proof.Machine
end

