-- ==== Sys2Proof/Machine/HostPort.lean ====
section
/-! DEFINITION. The host's side (spec/10_state.md R20 to R39, spec/20_memory.md R79,
spec/70_reset_and_hazards.md R300): the register window, the input memory, and reset. -/

namespace Sys2Proof.Machine

/-- The word a register holds, by its offset in the window (R21 to R38). Offsets that name no
register read 0. -/
def readReg (s : State) (off : Nat) : Word :=
  if off = 0x00 then (0 : BitVec 29) ++ s.fmt ++ (0 : BitVec 1)
  else if off = 0x04 then s.status
  else if off = 0x08 then s.inBase
  else if off = 0x0C then s.inSize
  else if off = 0x10 then s.maxBytes
  else if off = 0x14 then s.written
  else if off = 0x18 then s.total
  else if off = 0x1C then BitVec.ofNat 32 s.cur.inPos
  else if off = 0x20 then BitVec.ofNat 32 s.cur.cntPos
  else if off = 0x24 then BitVec.ofNat 32 s.cur.datPos
  else 0

/-- A write of CTRL while not busy: store FMT, and start with that FMT when bit 0 is 1 (R24). -/
def writeCtrl (s : State) (v : Word) : State :=
  let s := { s with fmt := v.extractLsb' 1 2 }
  if v.getLsbD 0 then start s else s

/-- A write of a register, by its offset: ignored while busy (R39), and always ignored at the
read-only registers and at offsets that name none (R21, R25, R34 to R38). -/
def writeReg (s : State) (off : Nat) (v : Word) : State :=
  if s.busy then s
  else if off = 0x00 then writeCtrl s v
  else if off = 0x08 then { s with inBase := v }
  else if off = 0x0C then { s with inSize := v }
  else if off = 0x10 then { s with maxBytes := v }
  else s

/-- Why the port refuses an access, if it does (R21, item I7): it serves whole words at multiples
of 4 inside the 64-byte window. -/
def portRefuses (off width : Nat) : Option Refusal :=
  if width ≠ 4 then some .notAWordAccess
  else if off % 4 ≠ 0 then some .misalignedAccess
  else if 0x40 ≤ off then some .outsideRegisterWindow
  else none

/-- The reset event (R300): every piece of the block's state to R47's value at once. What is the
host's stays: the input memory, the accesses to come, the word it has read (DEDUCED, safe: log
entry 8). -/
def resetEvent (s : State) : State :=
  { State.reset with mem := s.mem, host := s.host, readData := s.readData }

/-- The host sets a byte of the input memory. While BUSY = 1 it must not change one of `IN` (R79,
R306); writing the value a byte already holds is no change (DEDUCED, safe: log entry 7). A byte at
or beyond IN_SIZE is none of `IN` (R60): the spec leaves open what a change of one while BUSY = 1
is, and the model refuses it too (DESIGN CHOICE, safe: log entry 19). -/
def hostInput (a : Nat) (b : Byte) (s : State) : Host.Outcome State Fault Refusal :=
  if s.busy ∧ s.mem.read a ≠ b then .refused .inputChangedWhileBusy
  else .next { s with mem := s.mem.write a b }

/-- One host event, taken between engine steps (R161). -/
def hostStep (e : HostEvent) (s : State) : Host.Outcome State Fault Refusal :=
  match e with
  | .write off width v =>
    match portRefuses off width with
    | some r => .refused r
    | none => .next (writeReg s off v)
  | .read off width =>
    match portRefuses off width with
    | some r => .refused r
    | none => .next { s with readData := some (readReg s off) }
  | .input a b => hostInput a b s
  | .reset => .next (resetEvent s)
  | .engine => engineStep s

/-- Where `withFetchWord` puts an instruction: where the main pointer stands, or at 0 when that
is too high for IN_SIZE to cover the longest instruction. -/
def fetchPlace (s : State) : Nat :=
  if s.cur.inPos + maxInstrBytes < 2 ^ 32 then s.cur.inPos else 0

/-- `CTRL.FMT` and the phase in which a slot is read (R162, R163). -/
def selectSlot (slot : Slot) (s : State) : State :=
  match slot with
  | .prsCommand => { s with fmt := 0, phase := .cmd }
  | .yaz0Command => { s with fmt := 1, phase := .cmd }
  | .yay0Command => { s with fmt := 2, phase := .cmd }
  | .yaz0Header => { s with fmt := 1, phase := .header }
  | .yay0Header => { s with fmt := 2, phase := .header }

/-- The state with a table word placed to be run next (log entry 9): its bytes from the main
pointer on, IN_SIZE covering them, the streams standing at them with no control bit left over, the
slot selected, no host access pending. -/
def placeWord (s : State) (nbits w : Nat) : State :=
  let w := tableWord nbits w
  let slot := slotOfWord nbits w
  let p := fetchPlace s
  selectSlot slot
    { s with
      mem := s.mem.writeAll p (wordBytes slot w),
      inSize := if s.inSize.toNat < p + maxInstrBytes then BitVec.ofNat 32 (p + maxInstrBytes)
        else s.inSize,
      cur := slotCursor slot w p,
      host := [] }

end Sys2Proof.Machine
end

