-- ==== Sys2Proof/Machine/Step.lean ====
section
/-! DEFINITION. One step of the whole machine: the next host access, or a step of the engine. -/

namespace Sys2Proof.Machine

/-- The host's next access if one is pending, else a step of the engine (R161: "host register
accesses fall between steps"). Any interleaving is some list of events (log entry 4). -/
def step (s : State) : Host.Outcome State Fault Refusal :=
  match s.host with
  | [] => engineStep s
  | e :: rest => hostStep e (s.setHost rest)

/-- The state whose very next step reads and runs a table word's instruction. -/
def State.withFetchWord (s : State) (nbits w : Nat) : State := placeWord s nbits w

end Sys2Proof.Machine
end

