-- ==== Sys2Proof/Safety.lean ====
section
/-! DEFINITION. The words claims use: the invariant of the machine's states, what an instruction's
outcome leaves and changes, where an encoded command stands in the input, and the output a command
sequence means. Nothing here is run by the machine. -/

namespace Sys2Proof.Machine

/-! ### The invariant -/

/-- The phases in which commands and copies run. -/
def State.decoding (s : State) : Prop := s.phase = .cmd ∨ s.phase = .copy

/-- The history holds the newest `h.size` bytes of the output (R68). -/
structure History.Holds (h : History) (out : List Byte) : Prop where
  inside : h.size ≤ h.bytes.length
  notMore : h.size ≤ out.length
  newest : h.bytes.take h.size = out.drop (out.length - h.size)

/-- What every state of the block's runs satisfies: the ranges of R40, the STATUS rules of R25,
and the relations R46, R68, R169, R186, R217 rest on. -/
structure Inv (s : State) : Prop where
  /-- The input memory is in canonical form. -/
  memWf : s.mem.wf
  /-- `e.ctl_bits` is 0 to 8 (R40). -/
  ctlBits : s.cur.ctlBits ≤ 8
  /-- `e.written = |out|` (R46). -/
  counted : s.written.toNat = s.out.length
  /-- `e.hsize` is below the capacity (R40). -/
  histRoom : s.hist.size < Config.histParams.capacity
  /-- `e.hist` is no larger than the capacity (R65). -/
  histFits : s.hist.bytes.length ≤ Config.histParams.capacity
  /-- The history is the newest part of the output (R68). -/
  histHolds : s.hist.Holds s.out
  /-- Compaction keeps every distance in reach (R68). -/
  histReach : min s.out.length (Config.histParams.capacity - Config.histParams.compact)
    ≤ s.hist.size
  /-- ERR_CODE is nonzero exactly when ERROR is 1 (R25). -/
  errIff : s.err.isSome = true ↔ s.phase = .error
  /-- CAPPED is 1 only with DONE (R25). -/
  cappedDone : s.capped = true → s.phase = .done
  /-- `CTRL.FMT = 3` never reaches a command step (R163). -/
  fmtLegal : s.decoding → s.fmt ≠ 3
  /-- A copy in progress is one `CheckDist` admitted (R167, R168). -/
  copyLegal : s.phase = .copy → 1 ≤ s.copyDist ∧ s.copyDist ≤ Config.prsLongMaxDist ∧
    s.copyDist ≤ s.out.length ∧ 1 ≤ s.copyRem ∧ s.copyRem ≤ 273
  /-- A Yaz0 or Yay0 operation still has bytes to produce at every command step (R217). -/
  sizeAhead : s.decoding → s.fmt ≠ 0 → s.written.toNat < s.total.toNat
  /-- A Yaz0 or Yay0 copy stays inside the declared size and the limit (R217). -/
  copyInside : s.phase = .copy → s.fmt ≠ 0 →
    s.written.toNat + s.copyRem ≤ s.total.toNat ∧
    (s.maxBytes ≠ 0 → s.written.toNat + s.copyRem ≤ s.maxBytes.toNat)
  /-- A PRS operation under a cap has not reached it (R186). -/
  capAhead : s.decoding → s.fmt = 0 → s.maxBytes ≠ 0 → s.written.toNat < s.maxBytes.toNat
  /-- A Yaz0 or Yay0 operation has not passed a limit (R216). -/
  limitKept : s.decoding → s.fmt ≠ 0 → s.maxBytes ≠ 0 → s.written.toNat ≤ s.maxBytes.toNat
  /-- The header step starts from what the start step left (R160). -/
  fresh : s.phase = .header → s.cur = ⟨s.inBase.toNat, 0, 0, 0, 0⟩ ∧ s.written = 0 ∧
    s.total = 0
  /-- CNT_POS and DAT_POS are 0 while PRS or Yaz0 runs, TOTAL_SIZE while PRS does (R35, R37,
  R38). -/
  unused : s.decoding → s.fmt = 0 ∨ s.fmt = 1 → s.cur.cntPos = 0 ∧ s.cur.datPos = 0
  noSize : s.decoding → s.fmt = 0 → s.total = 0

/-! ### What an outcome leaves unchanged -/

/-- What the engine never changes: the host's registers, the input memory byte by byte, and the
host's own side (R39, R41, R62). -/
structure SameInputs (s t : State) : Prop where
  fmt : t.fmt = s.fmt
  inBase : t.inBase = s.inBase
  inSize : t.inSize = s.inSize
  maxBytes : t.maxBytes = s.maxBytes
  memory : ∀ a, t.mem.read a = s.mem.read a
  host : t.host = s.host
  readData : t.readData = s.readData

/-- No byte was emitted: output, counter and history are as before. -/
structure SameOutput (s t : State) : Prop where
  out : t.out = s.out
  written : t.written = s.written
  hist : t.hist = s.hist

/-- The copy engine's registers are as before. -/
structure SameCopy (s t : State) : Prop where
  dist : t.copyDist = s.copyDist
  rem : t.copyRem = s.copyRem

/-- The reader's pointers and bits, and the declared size, are as before. -/
structure SameReader (s t : State) : Prop where
  cur : t.cur = s.cur
  total : t.total = s.total

/-- `o` is a next state in which the copy engine holds a copy of `n` bytes from distance `d` and
everything else is as in `s` (R168). -/
def HandsOver (s : State) (o : Host.Outcome State Fault Refusal) (d n : Nat) : Prop :=
  ∃ t, o = .next t ∧ t.phase = .copy ∧ t.copyDist = d ∧ t.copyRem = n ∧
    t.err = s.err ∧ t.capped = s.capped ∧ SameInputs s t ∧ SameOutput s t ∧ SameReader s t

/-- `o` is a next state in which the operation has ended with error `e` and everything else is as
in `s` (R276). -/
def Raises (s : State) (o : Host.Outcome State Fault Refusal) (e : ErrClass) : Prop :=
  ∃ t, o = .next t ∧ t.phase = .error ∧ t.err = some e ∧
    t.capped = s.capped ∧ SameInputs s t ∧ SameOutput s t ∧ SameReader s t ∧ SameCopy s t

/-- `o` is a next state in which the byte `b` has been appended to the output and the history and
counted, the phase is `p`, CAPPED is `capped` and `e.copy_rem` is `rem`, and everything else is as
in `s` (R164). The history is described by what it reads: the new byte at distance 1, and at
distance `d + 1` what distance `d` read, as far as any command reaches. -/
def Emits (s : State) (o : Host.Outcome State Fault Refusal) (b : Byte) (p : Phase)
    (capped : Bool) (rem : Nat) : Prop :=
  ∃ t, o = .next t ∧ t.out = s.out ++ [b] ∧ t.written = s.written + 1 ∧
    t.hist.read 1 = some b ∧
    (∀ d, 1 ≤ d → d < Config.prsLongMaxDist → t.hist.read (d + 1) = s.hist.read d) ∧
    t.phase = p ∧ t.capped = capped ∧ t.copyRem = rem ∧ t.copyDist = s.copyDist ∧
    t.err = s.err ∧ SameInputs s t ∧ SameReader s t

/-- `o` is a next state that differs from `s` in nothing but the phase, which is `p`. -/
def Enters (s : State) (o : Host.Outcome State Fault Refusal) (p : Phase) : Prop :=
  ∃ t, o = .next t ∧ t.phase = p ∧ t.err = s.err ∧ t.capped = s.capped ∧
    SameInputs s t ∧ SameOutput s t ∧ SameReader s t ∧ SameCopy s t

/-! ### Where a command stands in the input -/

/-- The control-bit reader of a slot (R146); a header reads no control bit. -/
def slotReader : Slot → Input → Cursor → Got Bool
  | .prsCommand => readBitPRS
  | .yaz0Command => readBitY
  | .yay0Command => readBitY
  | .yaz0Header => readBitY
  | .yay0Header => readBitY

/-- Reading `n` control bits in order. -/
def readBits (rd : Input → Cursor → Got Bool) (inp : Input) : Nat → Cursor → Got (List Bool)
  | 0, c => .ok [] c
  | n + 1, c => (rd inp c).bind fun b c => (readBits rd inp n c).bind fun bs c => .ok (b :: bs) c

/-- The payload bytes stand in their streams from the cursor on, which ends at `c'`. -/
def payloadStands (inp : Input) : List (Stream × Byte) → Cursor → Cursor → Prop
  | [], c, c' => c = c'
  | (p, b) :: rest, c, c' => inp (c.ptr p) = some b ∧ payloadStands inp rest (c.advance p) c'

/-- The command `i` stands in the input at the cursor `c`, and `c'` is the cursor after it: its
control bits come next out of the control reader, then its payload bytes (R91, R144). -/
def standsAt (inp : Input) (i : Instr) (c c' : Cursor) : Prop :=
  ∃ m, readBits (slotReader i.slot) inp (encode i).ctl.length c = .ok (encode i).ctl m ∧
    payloadStands inp (encode i).payload m c'

/-- A sequence of commands stands in the input, one after the other. -/
def streamStands (inp : Input) : List Instr → Cursor → Cursor → Prop
  | [], c, c' => c = c'
  | i :: rest, c, c' => ∃ m, i.wf = true ∧ standsAt inp i c m ∧ streamStands inp rest m c'

/-- The stream whose read fails where a step runs out of input (R285): the main one but for a Yay0
command, whose control byte is the main stream's, a literal the data stream's, and a copy's two
count bytes are read before its data byte. -/
def failedStream (slot : Slot) (s : State) : Stream :=
  match slot with
  | .yay0Command =>
    match readBitY s.input s.cur with
    | .short _ => .main
    | .ok true _ => .data
    | .ok false _ => if s.cur.cntPos + 1 < s.inSize.toNat then .data else .count
  | .prsCommand | .yaz0Command | .yaz0Header | .yay0Header => .main

/-! ### What commands mean for the output alone -/

/-- `n` bytes copied one at a time from `d` bytes back (R169): each source byte is looked up in
the output so far. -/
def copyOut (d : Nat) : Nat → List Byte → List Byte
  | 0, out => out
  | n + 1, out => copyOut d n (out ++ (out[out.length - d]?).toList)

/-- What a command appends to an output, from the tables R93 and R113 alone: `none` for a distance
beyond the output (R167) and for what is no literal or copy. -/
def expandOne (i : Instr) (out : List Byte) : Option (List Byte) :=
  let copy (d n : Nat) := if d ≤ out.length then some (copyOut d n out) else none
  match i with
  | .lit L => some (out ++ [L])
  | .scopy s1 s0 O => copy (256 - O.toNat) (2 * s1.toNat + s0.toNat + 2)
  | .lcopy2 f lll => copy (8192 - f.toNat) (lll.toNat + 2)
  | .lcopy3 f N => copy (8192 - f.toNat) (N.toNat + 1)
  | .endMark => none
  | .yaz0Lit L => some (out ++ [L])
  | .yaz0Copy2 n D => copy (D.toNat + 1) (n.toNat + 2)
  | .yaz0Copy3 D E => copy (D.toNat + 1) (E.toNat + 18)
  | .yay0Lit L => some (out ++ [L])
  | .yay0Copy2 n D => copy (D.toNat + 1) (n.toNat + 2)
  | .yay0Copy3 D E => copy (D.toNat + 1) (E.toNat + 18)
  | .yaz0Header _ _ => none
  | .yay0Header _ _ _ => none

/-- What a sequence of commands appends to an output. -/
def expand : List Instr → List Byte → Option (List Byte)
  | [], out => some out
  | i :: rest, out => (expandOne i out).bind (expand rest)

end Sys2Proof.Machine
end

