-- ==== Sys2Proof/Certificates/Slice0/Obligations.lean ====
section
/-! DEFINITION. The statements about the machine, from the numbered rules of spec/. -/

open Sys2Proof Sys2Proof.Machine

/-! ### Encodings -/

/-- Words written out from the encodings of spec/30_encoding.md and the vectors E1 to E3 of
spec/95_test_vectors.md: control byte first, then the payload, first byte lowest. That a word whose
bits name no format is read in the one these are is the model's choice (log entry 9). The last
clause, the Yaz0 header, rests on the byte values of its magic, which the spec marks as general
knowledge (PRESUMED: log entry 18). -/
def Obligations.SpecWordsDecode : Prop :=
  decodeTableWord 16 0x4101 = some (.lit 0x41) ∧
  decodeTableWord 16 0xFE04 = some (.scopy true false 0xFE) ∧
  decodeTableWord 24 0xFFFF02 = some (.lcopy2 0x1FFF 7) ∧
  decodeTableWord 24 0x000102 = some (.lcopy2 0 1) ∧
  decodeTableWord 32 0xFF008802 = some (.lcopy3 0x11 0xFF) ∧
  decodeTableWord 32 0x13FFF802 = some (.lcopy3 0x1FFF 0x13) ∧
  decodeTableWord 24 0x000002 = some .endMark ∧
  decodeTableWord 16 0x4880 = some (.yaz0Lit 0x48) ∧
  decodeTableWord 24 0x03F000 = some (.yaz0Copy2 15 3) ∧
  decodeTableWord 32 0x02080000 = some (.yaz0Copy3 8 2) ∧
  decodeTableWord 128 0x05000000307A6159 = some (.yaz0Header 5 0)

/-- Decoding inverts encoding: where a well-formed command stands, at any cursor and with any
residue of control bits, its decoder reads exactly it and stops right after it. -/
def Obligations.DecodeInvertsEncode : Prop :=
  ∀ (i : Instr) (inp : Input) (c c' : Cursor), i.wf = true → standsAt inp i c c' →
    decode i.slot inp c = .instr i c'

/-- Whatever a decoder reads is a well-formed command of its own slot, and that command's code is
what stood there: no bit is ignored and no word has two meanings. -/
def Obligations.DecodedCommandStands : Prop :=
  ∀ (slot : Slot) (inp : Input) (c c' : Cursor) (i : Instr), decode slot inp c = .instr i c' →
    i.slot = slot ∧ i.wf = true ∧ standsAt inp i c c'

/-- The bytes of a well-formed command of one stream, control byte first, decode to it from any
base address and whatever follows; the pointer ends right after them. -/
def Obligations.OneStreamBytesDecode : Prop :=
  ∀ (i : Instr) (base : Nat) (rest : List Byte), i.wf = true → i.slot ≠ .yay0Command →
    ∃ c', decode i.slot (fun a => if a < base then none else (encodeBytes i ++ rest)[a - base]?)
        ⟨base, 0, 0, 0, 0⟩ = .instr i c' ∧
      c'.inPos = base + (encodeBytes i).length ∧ c'.cntPos = 0 ∧ c'.datPos = 0

/-- A well-formed Yay0 command whose control byte, count bytes and data bytes stand at the three
pointers decodes to it, and each pointer moves past its own stream's bytes only. -/
def Obligations.ThreeStreamBytesDecode : Prop :=
  ∀ (i : Instr) (inp : Input) (p q r : Nat), i.wf = true → i.slot = .yay0Command →
    let count := ((encode i).payload.filter (·.1 = .count)).map Prod.snd
    let data := ((encode i).payload.filter (·.1 = .data)).map Prod.snd
    inp p = some (controlByte i) →
    (∀ k b, count[k]? = some b → inp (q + k) = some b) →
    (∀ k b, data[k]? = some b → inp (r + k) = some b) →
    ∃ c', decode .yay0Command inp ⟨p, q, r, 0, 0⟩ = .instr i c' ∧ c'.inPos = p + 1 ∧
      c'.cntPos = q + count.length ∧ c'.datPos = r + data.length

/-- No command encoding is illegal: an input that never ends decodes at every cursor, in every
format. -/
def Obligations.NoIllegalCommand : Prop :=
  ∀ (slot : Slot) (inp : Input) (c : Cursor),
    slot = .prsCommand ∨ slot = .yaz0Command ∨ slot = .yay0Command →
    (∀ a, (inp a).isSome = true) → ∃ i c', decode slot inp c = .instr i c'

/-- R92: the first to the `k`-th PRS control bit of a fresh control byte are its bits 0 to
`k - 1`, taken with one fetch. -/
def Obligations.PrsControlBitsLsbFirst : Prop :=
  ∀ (inp : Input) (c : Cursor) (b : Byte) (k : Nat), c.ctlBits = 0 → inp c.inPos = some b →
    1 ≤ k → k ≤ 8 →
    readBits readBitPRS inp k c = .ok ((List.range k).map b.getLsbD)
      { c with inPos := c.inPos + 1, ctlByte := b >>> k, ctlBits := 8 - k }

/-- R112: the first to the `k`-th Yaz0 or Yay0 control bit of a fresh control byte are its bits 7
down to `8 - k`, taken with one fetch. -/
def Obligations.YazControlBitsMsbFirst : Prop :=
  ∀ (inp : Input) (c : Cursor) (b : Byte) (k : Nat), c.ctlBits = 0 → inp c.inPos = some b →
    1 ≤ k → k ≤ 8 →
    readBits readBitY inp k c = .ok ((List.range k).map fun j => b.getLsbD (7 - j))
      { c with inPos := c.inPos + 1, ctlByte := b <<< k, ctlBits := 8 - k }

/-- The lazy fetch, both readers: while bits are left the input is not looked at, so `n` bits come
out of any input alike and none of the three pointers moves; with none left and no byte at the pointer, the read
fails where it stands. -/
def Obligations.ControlFetchIsLazy : Prop :=
  ∀ rd : Input → Cursor → Got Bool, rd = readBitPRS ∨ rd = readBitY →
    (∀ (inp inp' : Input) (c : Cursor) (n : Nat), n ≤ c.ctlBits →
      readBits rd inp n c = readBits rd inp' n c ∧
      ∃ bits c', readBits rd inp n c = .ok bits c' ∧ c'.inPos = c.inPos ∧
        c'.cntPos = c.cntPos ∧ c'.datPos = c.datPos ∧ c'.ctlBits = c.ctlBits - n) ∧
    (∀ (inp : Input) (c : Cursor), c.ctlBits = 0 → inp c.inPos = none →
      rd inp c = .short c)

/-- R98, with R94, R95 and R99 for its fields: what a PRS long form's payload bytes select. -/
def Obligations.LongFormSelection : Prop :=
  ∀ (inp : Input) (c : Cursor) (b0 b1 : Byte),
    inp c.inPos = some b0 → inp (c.inPos + 1) = some b1 →
    (b0 = 0 ∧ b1 = 0 →
      decodePrsLong inp c = .ok .endMark { c with inPos := c.inPos + 2 }) ∧
    (b0.toNat % 8 ≠ 0 → ∃ f lll,
      decodePrsLong inp c = .ok (.lcopy2 f lll) { c with inPos := c.inPos + 2 } ∧
      lcopy2Len lll = b0.toNat % 8 + 2 ∧
      longDist f = 8192 - (b1.toNat * 32 + b0.toNat / 8)) ∧
    (b0.toNat % 8 = 0 → ¬ (b0 = 0 ∧ b1 = 0) → ∀ N, inp (c.inPos + 2) = some N → ∃ f,
      decodePrsLong inp c = .ok (.lcopy3 f N) { c with inPos := c.inPos + 3 } ∧
      lcopy3Len N = N.toNat + 1 ∧
      longDist f = 8192 - (b1.toNat * 32 + b0.toNat / 8))

/-- Yaz0 and Yay0 commands after their control bit: the fields of the copy code, and the stream
each byte comes from. -/
def Obligations.CopyCodeSelection : Prop :=
  ∀ (inp : Input) (c m : Cursor) (bit : Bool), readBitY inp c = .ok bit m →
    (bit = true → ∀ L, inp m.inPos = some L →
      decode .yaz0Command inp c = .instr (.yaz0Lit L) (m.advance .main)) ∧
    (bit = true → ∀ L, inp m.datPos = some L →
      decode .yay0Command inp c = .instr (.yay0Lit L) (m.advance .data)) ∧
    (bit = false → ∀ c0 c1, inp m.inPos = some c0 → inp (m.inPos + 1) = some c1 →
      ∃ (n : BitVec 4) (D : BitVec 12), n.toNat = c0.toNat / 16 ∧
        D.toNat = c0.toNat % 16 * 256 + c1.toNat ∧
        (n ≠ 0 → decode .yaz0Command inp c
          = .instr (.yaz0Copy2 n D) { m with inPos := m.inPos + 2 }) ∧
        (n = 0 → ∀ E, inp (m.inPos + 2) = some E → decode .yaz0Command inp c
          = .instr (.yaz0Copy3 D E) { m with inPos := m.inPos + 3 })) ∧
    (bit = false → ∀ c0 c1, inp m.cntPos = some c0 → inp (m.cntPos + 1) = some c1 →
      ∃ (n : BitVec 4) (D : BitVec 12), n.toNat = c0.toNat / 16 ∧
        D.toNat = c0.toNat % 16 * 256 + c1.toNat ∧
        (n ≠ 0 → decode .yay0Command inp c
          = .instr (.yay0Copy2 n D) { m with cntPos := m.cntPos + 2 }) ∧
        (n = 0 → ∀ E, inp m.datPos = some E → decode .yay0Command inp c
          = .instr (.yay0Copy3 D E)
            { m with cntPos := m.cntPos + 2, datPos := m.datPos + 1 }))

/-- R100 and R114: the ranges of every command as decoded; and how many control bits and payload
bytes each command (R93, R113) and each header (R109, R115) has. -/
def Obligations.CommandRanges : Prop :=
  ∀ (slot : Slot) (inp : Input) (c c' : Cursor) (i : Instr), decode slot inp c = .instr i c' →
    match i with
    | .lit _ => (encode i).ctl.length = 1 ∧ (encode i).payload.length = 1
    | .scopy s1 s0 O => 1 ≤ scopyDist O ∧ scopyDist O ≤ 256 ∧ 2 ≤ scopyLen s1 s0 ∧
        scopyLen s1 s0 ≤ 5 ∧ (encode i).ctl.length = 4 ∧ (encode i).payload.length = 1
    | .lcopy2 f lll => 1 ≤ longDist f ∧ longDist f ≤ 8192 ∧ 3 ≤ lcopy2Len lll ∧
        lcopy2Len lll ≤ 9 ∧ (encode i).ctl.length = 2 ∧ (encode i).payload.length = 2
    | .lcopy3 f N => 1 ≤ longDist f ∧ longDist f ≤ 8191 ∧ 1 ≤ lcopy3Len N ∧
        lcopy3Len N ≤ 256 ∧ (encode i).ctl.length = 2 ∧ (encode i).payload.length = 3
    | .endMark => (encode i).ctl.length = 2 ∧ (encode i).payload.length = 2
    | .yaz0Lit _ => (encode i).ctl.length = 1 ∧ (encode i).payload.length = 1
    | .yaz0Copy2 n D => 1 ≤ yDist D ∧ yDist D ≤ 4096 ∧ 3 ≤ ycopy2Len n ∧ ycopy2Len n ≤ 17 ∧
        (encode i).ctl.length = 1 ∧ (encode i).payload.length = 2
    | .yaz0Copy3 D E => 1 ≤ yDist D ∧ yDist D ≤ 4096 ∧ 18 ≤ ycopy3Len E ∧ ycopy3Len E ≤ 273 ∧
        (encode i).ctl.length = 1 ∧ (encode i).payload.length = 3
    | .yay0Lit _ => (encode i).ctl.length = 1 ∧ (encode i).payload.length = 1
    | .yay0Copy2 n D => 1 ≤ yDist D ∧ yDist D ≤ 4096 ∧ 3 ≤ ycopy2Len n ∧ ycopy2Len n ≤ 17 ∧
        (encode i).ctl.length = 1 ∧ (encode i).payload.length = 2
    | .yay0Copy3 D E => 1 ≤ yDist D ∧ yDist D ≤ 4096 ∧ 18 ≤ ycopy3Len E ∧ ycopy3Len E ≤ 273 ∧
        (encode i).ctl.length = 1 ∧ (encode i).payload.length = 3
    | .yaz0Header _ _ => (encode i).ctl.length = 0 ∧ (encode i).payload.length = 16
    | .yay0Header _ _ _ => (encode i).ctl.length = 0 ∧ (encode i).payload.length = 16

/-! ### The instructions: what each does where it completes, and its frame -/

/-- `LIT`: the byte is emitted; the operation ends, capped, exactly when it is the last byte a
nonzero MAX_BYTES allows. -/
def Obligations.LitEmitsItsByte : Prop :=
  ∀ (L : Byte) (s : State), s.fmt = 0 → s.written ≠ 0xFFFFFFFF →
    s.hist.size ≤ s.hist.bytes.length →
    let capped := s.maxBytes ≠ 0 ∧ s.written + 1 = s.maxBytes
    Emits s (exec (.lit L) s) L (if capped then .done else s.phase)
      (if capped then true else s.capped) s.copyRem

/-- `YLIT` of Yaz0 and of Yay0: within the limit the byte is emitted; the operation ends exactly
when it is the last byte of the declared size. -/
def Obligations.YlitEmitsItsByte : Prop :=
  ∀ (L : Byte) (s : State), s.fmt ≠ 0 → s.written ≠ 0xFFFFFFFF →
    (s.maxBytes = 0 ∨ s.written.toNat + 1 ≤ s.maxBytes.toNat) →
    s.hist.size ≤ s.hist.bytes.length →
    let p := if s.written + 1 = s.total then Phase.done else s.phase
    Emits s (exec (.yaz0Lit L) s) L p s.capped s.copyRem ∧
    Emits s (exec (.yay0Lit L) s) L p s.capped s.copyRem

/-- `SCOPY`, `LCOPY2` and `LCOPY3`: a copy whose distance the output has is handed to the copy
engine with the distance and length of its fields, and nothing else changes. -/
def Obligations.PrsCopiesHandOver : Prop :=
  ∀ s : State,
    (∀ (s1 s0 : Bool) (O : Byte), 256 - O.toNat ≤ s.written.toNat →
      HandsOver s (exec (.scopy s1 s0 O) s) (256 - O.toNat) (2 * s1.toNat + s0.toNat + 2)) ∧
    (∀ (f : BitVec 13) (lll : BitVec 3), 8192 - f.toNat ≤ s.written.toNat →
      HandsOver s (exec (.lcopy2 f lll) s) (8192 - f.toNat) (lll.toNat + 2)) ∧
    (∀ (f : BitVec 13) (N : Byte), 8192 - f.toNat ≤ s.written.toNat →
      HandsOver s (exec (.lcopy3 f N) s) (8192 - f.toNat) (N.toNat + 1))

/-- `YCOPY2` and `YCOPY3` of Yaz0 and of Yay0: a copy whose distance the output has, cut to what
the declared size leaves and within the limit, is handed to the copy engine, and nothing else
changes. -/
def Obligations.YCopiesHandOver : Prop :=
  ∀ (s : State) (D : BitVec 12), D.toNat + 1 ≤ s.written.toNat →
    s.written.toNat < s.total.toNat →
    let cut := fun len => min len (s.total.toNat - s.written.toNat)
    let fits := fun len => s.maxBytes = 0 ∨ s.written.toNat + cut len ≤ s.maxBytes.toNat
    (∀ n : BitVec 4, fits (n.toNat + 2) →
      HandsOver s (exec (.yaz0Copy2 n D) s) (D.toNat + 1) (cut (n.toNat + 2)) ∧
      HandsOver s (exec (.yay0Copy2 n D) s) (D.toNat + 1) (cut (n.toNat + 2))) ∧
    (∀ E : Byte, fits (E.toNat + 18) →
      HandsOver s (exec (.yaz0Copy3 D E) s) (D.toNat + 1) (cut (E.toNat + 18)) ∧
      HandsOver s (exec (.yay0Copy3 D E) s) (D.toNat + 1) (cut (E.toNat + 18)))

/-- `END`: the operation is DONE and nothing else changes. -/
def Obligations.EndMarkEndsOperation : Prop :=
  ∀ s : State, Enters s (exec .endMark s) .done

/-- `.yaz0`: the declared size is stored, the padding ignored, and the operation is DONE when the
size is 0, else at its first command; nothing else changes. -/
def Obligations.Yaz0HeaderStoresSize : Prop :=
  ∀ (size : Word) (padding : BitVec 64) (s : State), ∃ t,
    exec (.yaz0Header size padding) s = .next t ∧ t.total = size ∧
    t.phase = (if size = 0 then .done else .cmd) ∧ t.cur = s.cur ∧ t.err = s.err ∧
    t.capped = s.capped ∧ SameInputs s t ∧ SameOutput s t ∧ SameCopy s t

/-- `.yay0`: the declared size is stored, the count and data pointers stand at IN_BASE plus their
offsets without wrap, and the operation is DONE when the size is 0, else at its first command;
nothing else changes. -/
def Obligations.Yay0HeaderStoresSizeAndStreams : Prop :=
  ∀ (size co dof : Word) (s : State), ∃ t,
    exec (.yay0Header size co dof) s = .next t ∧ t.total = size ∧
    t.phase = (if size = 0 then .done else .cmd) ∧
    t.cur.cntPos = s.inBase.toNat + co.toNat ∧ t.cur.datPos = s.inBase.toNat + dof.toNat ∧
    t.cur.inPos = s.cur.inPos ∧ t.cur.ctlByte = s.cur.ctlByte ∧
    t.cur.ctlBits = s.cur.ctlBits ∧ t.err = s.err ∧ t.capped = s.capped ∧
    SameInputs s t ∧ SameOutput s t ∧ SameCopy s t

/-! ### Where an instruction ends the operation with an error -/

/-- Every copy command of every format whose distance exceeds the output raises
`BackreferenceTooDistant`, whatever the limit says, and emits nothing. -/
def Obligations.TooDistantCopiesRaise : Prop :=
  ∀ s : State,
    (∀ (s1 s0 : Bool) (O : Byte), s.written.toNat < 256 - O.toNat →
      Raises s (exec (.scopy s1 s0 O) s) .backrefTooDistant) ∧
    (∀ (f : BitVec 13) (lll : BitVec 3) (N : Byte), s.written.toNat < 8192 - f.toNat →
      Raises s (exec (.lcopy2 f lll) s) .backrefTooDistant ∧
      Raises s (exec (.lcopy3 f N) s) .backrefTooDistant) ∧
    (∀ (n : BitVec 4) (D : BitVec 12) (E : Byte), s.written.toNat < D.toNat + 1 →
      Raises s (exec (.yaz0Copy2 n D) s) .backrefTooDistant ∧
      Raises s (exec (.yaz0Copy3 D E) s) .backrefTooDistant ∧
      Raises s (exec (.yay0Copy2 n D) s) .backrefTooDistant ∧
      Raises s (exec (.yay0Copy3 D E) s) .backrefTooDistant)

/-- The Yaz0 and Yay0 limit: a literal or a copy that would pass a nonzero MAX_BYTES raises
`Overflow` before it emits anything; a copy is measured by its cut length. -/
def Obligations.LimitOverflowRaises : Prop :=
  ∀ s : State, s.maxBytes ≠ 0 →
    (s.maxBytes.toNat < s.written.toNat + 1 → ∀ L : Byte,
      Raises s (exec (.yaz0Lit L) s) .overflow ∧ Raises s (exec (.yay0Lit L) s) .overflow) ∧
    (∀ D : BitVec 12, D.toNat + 1 ≤ s.written.toNat → s.written.toNat < s.total.toNat →
      let passes := fun len =>
        s.maxBytes.toNat < s.written.toNat + min len (s.total.toNat - s.written.toNat)
      (∀ n : BitVec 4, passes (n.toNat + 2) →
        Raises s (exec (.yaz0Copy2 n D) s) .overflow ∧
        Raises s (exec (.yay0Copy2 n D) s) .overflow) ∧
      (∀ E : Byte, passes (E.toNat + 18) →
        Raises s (exec (.yaz0Copy3 D E) s) .overflow ∧
        Raises s (exec (.yay0Copy3 D E) s) .overflow))

/-- The counter's top: a literal, or the next byte of a copy, that would count past 0xFFFFFFFF
raises `Overflow` and emits nothing. -/
def Obligations.CounterTopRaises : Prop :=
  ∀ s : State, s.written = 0xFFFFFFFF →
    (∀ L : Byte, Raises s (exec (.lit L) s) .overflow) ∧
    (s.host = [] → s.phase = .copy → s.copyRem ≠ 0 →
      (s.hist.read s.copyDist).isSome = true → Raises s (step s) .overflow)

/-! ### Steps of the engine -/

/-- A step runs the command its decoder reads: at a command or header step, with no host access
pending, `step` is `exec` of the decoded instruction where the reads have left the pointers and
the control bits, and adds nothing else. -/
def Obligations.StepRunsDecodedInstr : Prop :=
  ∀ (s : State) (i : Instr) (c : Cursor), s.host = [] →
    (s.phase = .cmd → s.fmt = 0 → decode .prsCommand s.input s.cur = .instr i c →
      step s = exec i { s with cur := c }) ∧
    (s.phase = .cmd → s.fmt = 1 → decode .yaz0Command s.input s.cur = .instr i c →
      step s = exec i { s with cur := c }) ∧
    (s.phase = .cmd → s.fmt = 2 → decode .yay0Command s.input s.cur = .instr i c →
      step s = exec i { s with cur := c }) ∧
    (s.phase = .header → s.fmt = 1 → decode .yaz0Header s.input s.cur = .instr i c →
      step s = exec i { s with cur := c }) ∧
    (s.phase = .header → s.fmt = 2 → decode .yay0Header s.input s.cur = .instr i c →
      step s = exec i { s with cur := c })

/-- A placed table word is what the next step reads and runs: where the decoder reads `i` from the
word, `step` of the state with the word placed is `exec i` of that state with only the cursor moved
on, and placing it touched neither the output, nor the error, nor the other host registers.
How a word is placed is the model's choice (log entry 9). -/
def Obligations.PlacedWordRunsNext : Prop :=
  ∀ (s : State) (nbits w : Nat) (i : Instr), s.mem.wf → decodeTableWord nbits w = some i →
    (∃ c, step (s.withFetchWord nbits w) = exec i { s.withFetchWord nbits w with cur := c }) ∧
    SameOutput s (s.withFetchWord nbits w) ∧ (s.withFetchWord nbits w).err = s.err ∧
    (s.withFetchWord nbits w).total = s.total ∧
    (s.withFetchWord nbits w).maxBytes = s.maxBytes ∧
    (s.withFetchWord nbits w).inBase = s.inBase

/-- `Corrupted`: a command or header step that a read stops ends in ERROR with code 2. The pointer
of the stream whose read failed is kept at the failing address itself: where it stood, or IN_SIZE
where the step had read up to there (R285). A stream not yet come to keeps its pointer, no byte is
emitted, and the declared size changes only where a Yaz0 header had already read it. -/
def Obligations.FailedReadIsCorrupted : Prop :=
  ∀ (s : State) (slot : Slot) (c : Cursor) (declared : Option Word), s.host = [] →
    (slot = .prsCommand ∧ s.phase = .cmd ∧ s.fmt = 0 ∨
      slot = .yaz0Command ∧ s.phase = .cmd ∧ s.fmt = 1 ∨
      slot = .yay0Command ∧ s.phase = .cmd ∧ s.fmt = 2 ∨
      slot = .yaz0Header ∧ s.phase = .header ∧ s.fmt = 1 ∨
      slot = .yay0Header ∧ s.phase = .header ∧ s.fmt = 2) →
    decode slot s.input s.cur = .truncated c declared →
    let p := failedStream slot s
    ∃ t, step s = .next t ∧ t.phase = .error ∧ t.err = some .corrupted ∧ t.cur = c ∧
      t.cur.ptr p = max (s.cur.ptr p) s.inSize.toNat ∧ t.cur.datPos = s.cur.datPos ∧
      (p = .main → t.cur.cntPos = s.cur.cntPos) ∧
      t.total = declared.getD s.total ∧ (slot ≠ .yaz0Header → declared = none) ∧
      t.capped = s.capped ∧ SameInputs s t ∧ SameOutput s t ∧ SameCopy s t

/-- R273: four magic bytes that are present and differ from the format's raise `Unrecognized`,
recording ERR_CODE 3, IN_POS = IN_BASE + 4, TOTAL_SIZE 0 and BYTES_WRITTEN 0; a PRS step never
raises it. The byte values of the magics are the ones the spec marks as general knowledge (log
entry 18). -/
def Obligations.WrongMagicIsUnrecognized : Prop :=
  (∀ (s : State) (magic : Word) (b0 b1 b2 b3 : Byte), Inv s → s.host = [] →
    s.phase = .header → (s.fmt = 1 ∧ magic = 0x59617A30 ∨ s.fmt = 2 ∧ magic = 0x59617930) →
    s.input s.inBase.toNat = some b0 → s.input (s.inBase.toNat + 1) = some b1 →
    s.input (s.inBase.toNat + 2) = some b2 → s.input (s.inBase.toNat + 3) = some b3 →
    b0 ++ b1 ++ b2 ++ b3 ≠ magic →
    ∃ t, step s = .next t ∧ t.phase = .error ∧ t.errCode = 3 ∧
      t.cur.inPos = s.inBase.toNat + 4 ∧ t.total = 0 ∧ t.written = 0 ∧ t.out = s.out ∧
      SameInputs s t) ∧
  (∀ s t : State, s.host = [] → s.fmt = 0 → s.err ≠ some .unrecognized →
    step s = .next t → t.err ≠ some .unrecognized)

/-- R271: the header step of `CTRL.FMT = 3` raises `Unsupported` before any input is read:
ERR_CODE 1, IN_POS = IN_BASE, BYTES_WRITTEN 0. -/
def Obligations.ReservedFormatIsUnsupported : Prop :=
  ∀ s : State, Inv s → s.host = [] → s.phase = .header → s.fmt = 3 →
    Raises s (step s) .unsupported ∧
    ∃ t, step s = .next t ∧ t.errCode = 1 ∧ readReg t 0x1C = s.inBase ∧ readReg t 0x14 = 0

/-- R180: the header step of a PRS operation reads nothing and moves to the first command. -/
def Obligations.PrsHeaderReadsNothing : Prop :=
  ∀ s : State, s.host = [] → s.phase = .header → s.fmt = 0 → Enters s (step s) .cmd

/-- The copy step emits the byte `e.copy_dist` back in the output, counts it off, and goes to the
next byte, to the next command, or to DONE at the size limit. -/
def Obligations.CopyStepEmitsOneByte : Prop :=
  ∀ s : State, Inv s → s.host = [] → s.phase = .copy → s.written ≠ 0xFFFFFFFF →
    ∃ b, s.out[s.out.length - s.copyDist]? = some b ∧
      let capped := s.fmt = 0 ∧ s.maxBytes ≠ 0 ∧ s.written + 1 = s.maxBytes
      Emits s (step s) b
        (if capped ∨ (s.fmt ≠ 0 ∧ s.written + 1 = s.total) then .done
          else if s.copyRem = 1 then .cmd else .copy)
        (if capped then true else s.capped) (s.copyRem - 1)

/-- `HistRead`'s requirement: a copy step whose distance is not inside the history stops the
machine with a fault and returns no value. -/
def Obligations.HistoryUnderflowFaults : Prop :=
  ∀ s : State, s.host = [] → s.phase = .copy → s.copyRem ≠ 0 →
    (s.copyDist = 0 ∨ s.hist.size < s.copyDist) → step s = .fault .historyUnderflow

/-- R170: a copy of distance `d` and `n` bytes that starts at `w` bytes of output runs through in
`n` steps and repeats the last `d` bytes before it as a pattern; the output before it stays. It
ends at the next command, or in DONE where it reaches the size limit. -/
def Obligations.CopyRepeatsPattern : Prop :=
  ∀ s : State, Inv s → s.host = [] → s.phase = .copy →
    s.written.toNat + s.copyRem ≤ 0xFFFFFFFF →
    (s.fmt = 0 → s.maxBytes ≠ 0 → s.written.toNat + s.copyRem ≤ s.maxBytes.toNat) →
    ∃ t, core.run s.copyRem s = .next t ∧ s.out <+: t.out ∧
      t.out.length = s.out.length + s.copyRem ∧
      (∀ i, i < s.copyRem →
        t.out[s.out.length + i]? = t.out[s.out.length + i - s.copyDist]? ∧
        t.out[s.out.length + i]? = s.out[s.out.length - s.copyDist + i % s.copyDist]?) ∧
      t.phase = (if (s.fmt = 0 ∧ s.maxBytes ≠ 0 ∧ t.written = s.maxBytes) ∨
        (s.fmt ≠ 0 ∧ t.written = s.total) then .done else .cmd) ∧
      SameReader s t ∧ SameInputs s t

/-- The PRS cap in the middle of a copy: the operation ends, DONE and CAPPED, with exactly
MAX_BYTES bytes, the rest of the copy is dropped and nothing more is read. -/
def Obligations.PrsCapStopsCopy : Prop :=
  ∀ s : State, Inv s → s.host = [] → s.phase = .copy → s.fmt = 0 → s.maxBytes ≠ 0 →
    s.maxBytes.toNat < s.written.toNat + s.copyRem →
    ∃ t, core.run (s.maxBytes.toNat - s.written.toNat) s = .next t ∧ t.phase = .done ∧
      t.capped = true ∧ t.err = none ∧ t.written = s.maxBytes ∧
      t.out = (copyOut s.copyDist s.copyRem s.out).take s.maxBytes.toNat ∧
      SameReader s t ∧ SameInputs s t

/-! ### The history buffer -/

/-- R68: compaction is transparent. For every pair of sizes R6 allows, after any sequence of
appends to an empty history, each distance up to the output's length and to what a compaction
keeps is in the history and reads that output byte. -/
def Obligations.CompactionIsTransparent : Prop :=
  ∀ (p : Config.HistParams) (h : History) (out : List Byte) (d : Nat), p.legal →
    1 ≤ d → d ≤ min out.length (p.capacity - p.compact) →
    d ≤ (out.foldl (History.append p) h.clear).size ∧
    (out.foldl (History.append p) h.clear).read d = out[out.length - d]?

/-! ### Whole-machine rules -/

/-- The state after reset meets the invariant. -/
def Obligations.ResetMeetsInvariant : Prop := Inv State.reset

/-- Every step, the engine's or the host's, keeps the invariant. -/
def Obligations.StepKeepsInvariant : Prop :=
  ∀ s t : State, Inv s → step s = .next t → Inv t

/-- From a state of the invariant an engine step always answers a next state: no fault and no
refusal can happen. That IDLE, DONE and ERROR, where the engine takes no step, answer a next state
(the unchanged one) is the model's choice (log entry 3). -/
def Obligations.EngineNeverStops : Prop :=
  ∀ s : State, Inv s → s.host = [] → ∃ t, step s = .next t

/-- An operation that never ends cannot exist: from every busy state of the invariant the engine,
left alone, comes to DONE or ERROR within a bound its input size gives. -/
def Obligations.OperationEnds : Prop :=
  ∀ s : State, Inv s → s.host = [] → s.busy = true →
    ∃ k t, k ≤ 274 * (3 * s.inSize.toNat + 2) ∧ core.run k s = .next t ∧
      (t.phase = .done ∨ t.phase = .error)

/-- An engine step never changes the input memory, the host's registers or the host's side, and
only ever appends to the output, at most one byte. -/
def Obligations.EngineStepFrame : Prop :=
  ∀ s t : State, s.host = [] → step s = .next t →
    SameInputs s t ∧ (t.out = s.out ∨ ∃ b, t.out = s.out ++ [b])

/-- No pointer moves backward: a command or copy step moves none of the three back, and a header
step not the main one; a copy step moves none. -/
def Obligations.PointersOnlyAdvance : Prop :=
  ∀ s t : State, s.host = [] → step s = .next t →
    s.cur.inPos ≤ t.cur.inPos ∧
    (s.phase ≠ .header → s.cur.cntPos ≤ t.cur.cntPos ∧ s.cur.datPos ≤ t.cur.datPos) ∧
    (s.phase = .copy → t.cur = s.cur)

/-- An error is precise: a header or command step that ends in ERROR has emitted nothing, so
output, counter, history and CAPPED are those of the commands completed before. -/
def Obligations.ErrorsArePrecise : Prop :=
  ∀ s t : State, s.host = [] → (s.phase = .header ∨ s.phase = .cmd) → step s = .next t →
    t.phase = .error → SameOutput s t ∧ t.capped = s.capped ∧ SameCopy s t ∧ SameInputs s t

/-- In IDLE, DONE and ERROR the engine takes no step, however often it is asked. That `step` answers
the unchanged state there is the model's choice (log entry 3). -/
def Obligations.EndedEngineStaysPut : Prop :=
  ∀ (s : State) (k : Nat), s.host = [] → s.busy = false → core.run k s = .next s

/-- Only a CTRL write with START = 1 begins an operation. -/
def Obligations.OnlyStartWriteBegins : Prop :=
  ∀ s t : State, s.busy = false → step s = .next t → t.busy = true →
    ∃ v rest, s.host = .write 0x00 4 v :: rest ∧ v.getLsbD 0 = true

/-- A CTRL write while not busy: FMT is stored from that write; with START = 1 the start step
follows, which leaves nothing of the last operation; with START = 0 nothing else changes. -/
def Obligations.CtrlWriteStoresFmtAndStarts : Prop :=
  ∀ (s : State) (v : Word) (rest : List HostEvent), s.busy = false →
    s.host = .write 0x00 4 v :: rest →
    ∃ t, step s = .next t ∧ t.fmt = v.extractLsb' 1 2 ∧ (readReg t 0x00).getLsbD 0 = false ∧
      t.host = rest ∧ t.inBase = s.inBase ∧ t.inSize = s.inSize ∧ t.maxBytes = s.maxBytes ∧
      t.mem = s.mem ∧ t.readData = s.readData ∧
      (v.getLsbD 0 = true → t.phase = .header ∧ t.capped = false ∧ t.err = none ∧
        t.cur = ⟨s.inBase.toNat, 0, 0, 0, 0⟩ ∧ t.hist.size = 0 ∧ t.written = 0 ∧ t.total = 0 ∧
        t.copyDist = 0 ∧ t.copyRem = 0 ∧ t.out = []) ∧
      (v.getLsbD 0 = false → t.phase = s.phase ∧ t.capped = s.capped ∧ t.err = s.err ∧
        SameOutput s t ∧ SameReader s t ∧ SameCopy s t)

/-- R39: while busy a register write changes nothing (START = 1 included), and a read returns the
current value and changes nothing of the block. Where the model keeps the accesses to come and the
word read is its own (log entries 4 and 5). -/
def Obligations.BusyWritesIgnored : Prop :=
  ∀ (s : State) (off : Nat) (rest : List HostEvent), s.busy = true → off % 4 = 0 → off < 0x40 →
    (∀ v, s.host = .write off 4 v :: rest → step s = .next { s with host := rest }) ∧
    (s.host = .read off 4 :: rest →
      step s = .next { s with host := rest, readData := some (readReg s off) })

/-- The registers a write changes, and those it does not: IN_BASE, IN_SIZE and MAX_BYTES take the
word while not busy; STATUS, the read-only registers and the offsets that name no register ignore
it always. -/
def Obligations.RegisterWrites : Prop :=
  ∀ (s : State) (off : Nat) (v : Word) (rest : List HostEvent), s.host = .write off 4 v :: rest →
    (s.busy = false → off = 0x08 → step s = .next { s with host := rest, inBase := v }) ∧
    (s.busy = false → off = 0x0C → step s = .next { s with host := rest, inSize := v }) ∧
    (s.busy = false → off = 0x10 → step s = .next { s with host := rest, maxBytes := v }) ∧
    (off % 4 = 0 → off < 0x40 → (off = 0x04 ∨ 0x14 ≤ off) →
      step s = .next { s with host := rest })

/-- What a register read returns (R22, R25, R31 to R38): each register's word, pointers modulo
2^32, and 0 at the offsets 0x28 to 0x3C. -/
def Obligations.RegisterReads : Prop :=
  ∀ (s : State) (off : Nat) (rest : List HostEvent), s.host = .read off 4 :: rest →
    off % 4 = 0 → off < 0x40 →
    ∃ w, step s = .next { s with host := rest, readData := some w } ∧
      (off = 0x00 → w.toNat = 2 * s.fmt.toNat) ∧
      (off = 0x04 → w = s.status) ∧ (off = 0x08 → w = s.inBase) ∧
      (off = 0x0C → w = s.inSize) ∧ (off = 0x10 → w = s.maxBytes) ∧
      (off = 0x14 → w = s.written) ∧ (off = 0x18 → w = s.total) ∧
      (off = 0x1C → w.toNat = s.cur.inPos % 2 ^ 32) ∧
      (off = 0x20 → w.toNat = s.cur.cntPos % 2 ^ 32) ∧
      (off = 0x24 → w.toNat = s.cur.datPos % 2 ^ 32) ∧ (0x28 ≤ off → w = 0)

/-- A register access that is not one whole word at a multiple of 4 is refused, read or write, in
every state (R21). Which of the reasons an access gets that has several (the width first, then the
alignment, then the window) is the model's choice (log entry 6). -/
def Obligations.OddAccessesRefused : Prop :=
  ∀ (s : State) (off width : Nat) (v : Word) (rest : List HostEvent),
    (s.host = .write off width v :: rest ∨ s.host = .read off width :: rest) →
    (width ≠ 4 → step s = .refused .notAWordAccess) ∧
    (width = 4 → off % 4 ≠ 0 → step s = .refused .misalignedAccess)

/-- STATUS in the states of the invariant: the field of each bit (one phase at a time, so at most
one of BUSY, DONE and ERROR), CAPPED only with DONE, ERR_CODE the code of the error class (1 to 5)
and nonzero exactly with ERROR, the reserved bits 0, and all of it 0 before the first operation. -/
def Obligations.StatusBits : Prop :=
  ∀ s : State, Inv s →
    (s.status.getLsbD 0 = true ↔ s.phase = .header ∨ s.phase = .cmd ∨ s.phase = .copy) ∧
    (s.status.getLsbD 1 = true ↔ s.phase = .done) ∧
    (s.status.getLsbD 2 = true ↔ s.phase = .error) ∧
    (s.status.getLsbD 3 = true ↔ s.capped = true) ∧
    (s.status.getLsbD 3 = true → s.status.getLsbD 1 = true) ∧
    (s.status.extractLsb' 4 4 ≠ 0 ↔ s.status.getLsbD 2 = true) ∧
    s.status.extractLsb' 4 4 = (match s.err with
      | none => 0
      | some .unsupported => 1
      | some .corrupted => 2
      | some .unrecognized => 3
      | some .backrefTooDistant => 4
      | some .overflow => 5) ∧
    s.status.toNat < 256 ∧
    (s.phase = .idle → s.status = 0)

/-- R300: the reset event, in any state and busy or not, sets every piece of the block's state to
its reset value, so that every register reads 0. -/
def Obligations.ResetEventFromAnyState : Prop :=
  ∀ (s : State) (rest : List HostEvent), s.host = .reset :: rest →
    ∃ t, step s = .next t ∧ t.fmt = 0 ∧ t.inBase = 0 ∧ t.inSize = 0 ∧ t.maxBytes = 0 ∧
      t.phase = .idle ∧ t.capped = false ∧ t.err = none ∧ t.cur = ⟨0, 0, 0, 0, 0⟩ ∧
      t.hist.size = 0 ∧ t.written = 0 ∧ t.total = 0 ∧ t.copyDist = 0 ∧ t.copyRem = 0 ∧
      t.out = [] ∧ (∀ off, readReg t off = 0)

/-- The host's input memory: while not busy a byte reads as it was set and no other changes; while
busy a change is refused. That the refusal is of changes only (log entry 7), and that it takes in
bytes at or beyond IN_SIZE (log entry 19), is the model's choice. -/
def Obligations.HostInputSetsOneByte : Prop :=
  ∀ (s : State) (a : Nat) (b : Byte) (rest : List HostEvent), s.mem.wf →
    s.host = .input a b :: rest →
    (s.busy = false → ∃ t, step s = .next t ∧ t.mem.read a = b ∧
      (∀ a', a' ≠ a → t.mem.read a' = s.mem.read a') ∧
      t = { s with mem := t.mem, host := rest }) ∧
    (s.busy = true → s.mem.read a ≠ b → step s = .refused .inputChangedWhileBusy)

/-! ### What cannot matter -/

/-- Bytes at or beyond IN_SIZE are never read: two input memories that agree below it give the
same step. -/
def Obligations.BytesBeyondInSizeUnread : Prop :=
  ∀ (s t : State) (m : Memory), s.host = [] →
    (∀ a, a < s.inSize.toNat → m.read a = s.mem.read a) → step s = .next t →
    step { s with mem := m } = .next { t with mem := m }

/-- Bytes of the history at or above `e.hsize` are never read: two histories of one size that
agree below it give steps that agree in everything else, and keep agreeing. -/
def Obligations.HistoryAboveSizeUnread : Prop :=
  ∀ (s t : State) (h : History), s.host = [] → s.hist.size ≤ s.hist.bytes.length →
    h.size = s.hist.size → h.bytes.take h.size = s.hist.bytes.take s.hist.size →
    step s = .next t →
    ∃ h', step { s with hist := h } = .next { t with hist := h' } ∧ h'.size = t.hist.size ∧
      h'.bytes.take h'.size = t.hist.bytes.take t.hist.size

/-- Every operation begins from the same state whatever ran before: two machines that are not
busy and agree on IN_BASE, IN_SIZE, MAX_BYTES and the input, started by the same CTRL write, show
the same output, STATUS, pointers and counters after any number of steps. -/
def Obligations.OperationsForgetThePast : Prop :=
  ∀ (s s' : State) (v : Word) (k : Nat) (t : State), s.busy = false → s'.busy = false →
    s.inBase = s'.inBase → s.inSize = s'.inSize → s.maxBytes = s'.maxBytes → s.mem = s'.mem →
    s.host = [.write 0x00 4 v] → s'.host = [.write 0x00 4 v] → v.getLsbD 0 = true →
    core.run (k + 1) s = .next t →
    ∃ t', core.run (k + 1) s' = .next t' ∧ t'.out = t.out ∧
      ∀ off, readReg t' off = readReg t off

/-! ### The decoders compute what their commands mean -/

/-- PRS: where a sequence of commands and then `END` stand in the input, the engine, with no cap,
ends in DONE with exactly the output the commands mean, and the pointer right after `END`. -/
def Obligations.PrsDecoderExpands : Prop :=
  ∀ (s : State) (cmds : List Instr) (c' : Cursor) (o : List Byte), Inv s → s.host = [] →
    s.phase = .cmd → s.fmt = 0 → s.maxBytes = 0 → (∀ i ∈ cmds, i.slot = .prsCommand) →
    streamStands s.input (cmds ++ [.endMark]) s.cur c' → expand cmds s.out = some o →
    o.length ≤ 0xFFFFFFFF →
    ∃ k t, core.run k s = .next t ∧ t.phase = .done ∧ t.capped = false ∧ t.err = none ∧
      t.out = o ∧ t.cur = c'

/-- Yaz0 and Yay0: where a sequence of commands stands whose last one reaches or passes the
declared size, the engine, within any limit, ends in DONE with the output the commands mean, cut
to the declared size, and the pointers right after the last command. -/
def Obligations.YazDecodersExpand : Prop :=
  ∀ (s : State) (slot : Slot) (cmds : List Instr) (last : Instr) (c' : Cursor)
    (o o' : List Byte), Inv s → s.host = [] → s.phase = .cmd →
    (s.fmt = 1 ∧ slot = .yaz0Command ∨ s.fmt = 2 ∧ slot = .yay0Command) →
    (s.maxBytes = 0 ∨ s.total.toNat ≤ s.maxBytes.toNat) →
    (∀ i ∈ cmds ++ [last], i.slot = slot) →
    streamStands s.input (cmds ++ [last]) s.cur c' →
    expand cmds s.out = some o → o.length < s.total.toNat →
    expandOne last o = some o' → s.total.toNat ≤ o'.length →
    ∃ k t, core.run k s = .next t ∧ t.phase = .done ∧ t.capped = false ∧ t.err = none ∧
      t.out = o'.take s.total.toNat ∧ t.cur = c'
end

