-- ==== Sys2Proof/Laws/Decode.lean ====
section
/-! SUPPORT. The readers and decoders: what each read answers, and that reading only moves
pointers forward. -/

namespace Sys2Proof

@[simp] theorem Got.bind_ok {α β : Type} (a : α) (c : Cursor) (f : α → Cursor → Got β) :
    (Got.ok a c).bind f = f a c := rfl
@[simp] theorem Got.bind_short {α β : Type} (c : Cursor) (f : α → Cursor → Got β) :
    (Got.short (α := α) c).bind f = .short c := rfl
@[simp] theorem Got.decoded_ok (i : Instr) (c : Cursor) : (Got.ok i c).decoded = .instr i c := rfl
@[simp] theorem Got.decoded_short (c : Cursor) :
    (Got.short (α := Instr) c).decoded = .truncated c none := rfl

/-- Both steps of a sequence were read. -/
theorem Got.bind_eq_ok {α β : Type} {g : Got α} {f : α → Cursor → Got β} {b : β} {c' : Cursor} :
    g.bind f = .ok b c' ↔ ∃ a c, g = .ok a c ∧ f a c = .ok b c' := by
  cases g <;> simp

/-- A sequence failed in its first step or in the rest. -/
theorem Got.bind_eq_short {α β : Type} {g : Got α} {f : α → Cursor → Got β} {c' : Cursor} :
    g.bind f = .short c' ↔ g = .short c' ∨ ∃ a c, g = .ok a c ∧ f a c = .short c' := by
  cases g <;> simp

theorem Got.decoded_eq_instr {g : Got Instr} {i : Instr} {c : Cursor} :
    g.decoded = .instr i c ↔ g = .ok i c := by
  cases g <;> simp [Got.decoded]

theorem Got.decoded_eq_truncated {g : Got Instr} {c : Cursor} {d : Option Word} :
    g.decoded = .truncated c d ↔ g = .short c ∧ d = none := by
  cases g <;> simp [Got.decoded, eq_comm]

theorem Got.decoded_ne_unrecognized {g : Got Instr} {c : Cursor} :
    g.decoded ≠ .unrecognized c := by
  cases g <;> simp [Got.decoded]

/-- `NextByte` read a byte (R173). -/
theorem nextByte_eq_ok {inp : Input} {p : Stream} {c c' : Cursor} {b : Byte} :
    nextByte inp p c = .ok b c' ↔ inp (c.ptr p) = some b ∧ c' = c.advance p := by
  rcases h : inp (c.ptr p) with _ | v <;> simp [nextByte, h, eq_comm]

/-- `NextByte` failed: nothing moved (R285). -/
theorem nextByte_eq_short {inp : Input} {p : Stream} {c c' : Cursor} :
    nextByte inp p c = .short c' ↔ inp (c.ptr p) = none ∧ c' = c := by
  rcases h : inp (c.ptr p) with _ | v <;> simp [nextByte, h, eq_comm]

/-- The pointers of `c'` are at or beyond those of `c` (R42). -/
structure Cursor.Ahead (c c' : Cursor) : Prop where
  inPos : c.inPos ≤ c'.inPos
  cntPos : c.cntPos ≤ c'.cntPos
  datPos : c.datPos ≤ c'.datPos

theorem Cursor.Ahead.refl (c : Cursor) : c.Ahead c := ⟨le_rfl, le_rfl, le_rfl⟩

theorem Cursor.Ahead.trans {a b c : Cursor} (h : a.Ahead b) (k : b.Ahead c) : a.Ahead c :=
  ⟨h.1.trans k.1, h.2.trans k.2, h.3.trans k.3⟩

theorem Cursor.advance_ahead (c : Cursor) (p : Stream) : c.Ahead (c.advance p) := by
  cases p <;> constructor <;> simp [Cursor.advance]

@[simp] theorem Cursor.advance_ctlByte (c : Cursor) (p : Stream) :
    (c.advance p).ctlByte = c.ctlByte := by cases p <;> rfl
@[simp] theorem Cursor.advance_ctlBits (c : Cursor) (p : Stream) :
    (c.advance p).ctlBits = c.ctlBits := by cases p <;> rfl

/-- Where a reading step leaves the pointers, whether it succeeds or not. -/
def Got.cursor {α : Type} : Got α → Cursor
  | .ok _ c => c
  | .short c => c

/-- A refill moves at most the main pointer, forward, and leaves at most eight bits (R144). -/
theorem refill_cases (inp : Input) (c : Cursor) :
    (c.ctlBits ≠ 0 ∧ refill inp c = .ok () c) ∨
    (c.ctlBits = 0 ∧ ∃ b, inp c.inPos = some b ∧
      refill inp c = .ok () { c with ctlByte := b, inPos := c.inPos + 1, ctlBits := 8 }) ∨
    (c.ctlBits = 0 ∧ inp c.inPos = none ∧ refill inp c = .short c) := by
  unfold refill
  split
  · next h0 =>
    rcases h : inp c.inPos with _ | b
    · exact .inr (.inr ⟨h0, rfl, rfl⟩)
    · exact .inr (.inl ⟨h0, b, rfl, rfl⟩)
  · next h0 => exact .inl ⟨h0, rfl⟩

/-- `ReadBitPRS` (R142): a bit is left, a control byte is fetched, or the fetch fails. -/
theorem readBitPRS_cases (inp : Input) (c : Cursor) :
    (c.ctlBits ≠ 0 ∧ readBitPRS inp c = .ok (c.ctlByte.getLsbD 0)
      { c with ctlByte := c.ctlByte >>> 1, ctlBits := c.ctlBits - 1 }) ∨
    (c.ctlBits = 0 ∧ ∃ b, inp c.inPos = some b ∧ readBitPRS inp c = .ok (b.getLsbD 0)
      { c with ctlByte := b >>> 1, ctlBits := 7, inPos := c.inPos + 1 }) ∨
    (c.ctlBits = 0 ∧ inp c.inPos = none ∧ readBitPRS inp c = .short c) := by
  unfold readBitPRS
  rcases refill_cases inp c with ⟨h, e⟩ | ⟨h, b, hb, e⟩ | ⟨h, hb, e⟩
  · exact .inl ⟨h, by simp [e]⟩
  · exact .inr (.inl ⟨h, b, hb, by simp [e]⟩)
  · exact .inr (.inr ⟨h, hb, by simp [e]⟩)

/-- `ReadBitY` (R143): a bit is left, a control byte is fetched, or the fetch fails. -/
theorem readBitY_cases (inp : Input) (c : Cursor) :
    (c.ctlBits ≠ 0 ∧ readBitY inp c = .ok (c.ctlByte.getLsbD 7)
      { c with ctlByte := c.ctlByte <<< 1, ctlBits := c.ctlBits - 1 }) ∨
    (c.ctlBits = 0 ∧ ∃ b, inp c.inPos = some b ∧ readBitY inp c = .ok (b.getLsbD 7)
      { c with ctlByte := b <<< 1, ctlBits := 7, inPos := c.inPos + 1 }) ∨
    (c.ctlBits = 0 ∧ inp c.inPos = none ∧ readBitY inp c = .short c) := by
  unfold readBitY
  rcases refill_cases inp c with ⟨h, e⟩ | ⟨h, b, hb, e⟩ | ⟨h, hb, e⟩
  · exact .inl ⟨h, by simp [e]⟩
  · exact .inr (.inl ⟨h, b, hb, by simp [e]⟩)
  · exact .inr (.inr ⟨h, hb, by simp [e]⟩)

/-! ### Fields of the codes -/

/-- `f = (b1 << 5) | (b0 >> 3)` (R95). -/
theorem longField_toNat (b0 b1 : Byte) :
    (longField (offset16 b0 b1)).toNat = b1.toNat * 32 + b0.toNat / 8 := by
  simp only [longField, offset16, BitVec.extractLsb'_toNat, BitVec.toNat_append]
  rw [← Nat.shiftLeft_add_eq_or_of_lt b0.isLt, Nat.shiftLeft_eq, Nat.shiftRight_eq_div_pow]
  have := b0.isLt
  have := b1.isLt
  omega

/-- `lll = b0[2:0]` (R98). -/
theorem longLen_toNat (b0 : Byte) : (longLen b0).toNat = b0.toNat % 8 := by
  simp [longLen, BitVec.extractLsb'_toNat]

/-- `nr[15:12]` is the high nibble of `c0` (R113). -/
theorem codeNibble_toNat (c0 c1 : Byte) : (codeNibble (copyCode c0 c1)).toNat = c0.toNat / 16 := by
  simp only [codeNibble, copyCode, BitVec.extractLsb'_toNat, BitVec.toNat_append]
  rw [← Nat.shiftLeft_add_eq_or_of_lt c1.isLt, Nat.shiftLeft_eq, Nat.shiftRight_eq_div_pow]
  have := c0.isLt
  have := c1.isLt
  omega

/-- `nr[11:0]` (R113). -/
theorem codeDist_toNat (c0 c1 : Byte) :
    (codeDist (copyCode c0 c1)).toNat = c0.toNat % 16 * 256 + c1.toNat := by
  simp only [codeDist, copyCode, BitVec.extractLsb'_toNat, BitVec.toNat_append]
  rw [← Nat.shiftLeft_add_eq_or_of_lt c1.isLt, Nat.shiftLeft_eq, Nat.shiftRight_eq_div_pow]
  have := c0.isLt
  have := c1.isLt
  omega

/-- `offset16 = 0` exactly when both payload bytes are 0 (R99). -/
theorem offset16_eq_zero (b0 b1 : Byte) : offset16 b0 b1 = 0 ↔ b0 = 0 ∧ b1 = 0 := by
  have h16 : offset16 b0 b1 = 0 ↔ (offset16 b0 b1).toNat = 0 :=
    ⟨fun h => by simp [h], fun h => BitVec.eq_of_toNat_eq (by simp [h])⟩
  have h0 : b0 = 0 ↔ b0.toNat = 0 :=
    ⟨fun h => by simp [h], fun h => BitVec.eq_of_toNat_eq (by simp [h])⟩
  have h1 : b1 = 0 ↔ b1.toNat = 0 :=
    ⟨fun h => by simp [h], fun h => BitVec.eq_of_toNat_eq (by simp [h])⟩
  have hlt := b0.isLt
  rw [h16, h0, h1, offset16, BitVec.toNat_append, ← Nat.shiftLeft_add_eq_or_of_lt hlt,
    Nat.shiftLeft_eq]
  omega

end Sys2Proof
end

