-- ==== Sys2Proof/Laws/History.lean ====
section
/-! SUPPORT. The history buffer: what one append does to the size, to what is held, and to what
each distance reads. -/

namespace Sys2Proof.Machine

open Config

@[simp] theorem History.clear_size (h : History) : h.clear.size = 0 := rfl
@[simp] theorem History.clear_bytes (h : History) : h.clear.bytes = h.bytes := rfl

theorem histParams_capacity : histParams.capacity = 0x8000 := rfl
theorem histParams_compact : histParams.compact = 0x4000 := rfl
theorem prsLongMaxDist_eq : prsLongMaxDist = 8192 := rfl

/-- The size after an append: one more, or the part a compaction keeps (R66). -/
theorem History.append_size (p : HistParams) (h : History) (b : Byte) :
    (h.append p b).size =
      if h.size + 1 = p.capacity then p.capacity - p.compact else h.size + 1 := by
  unfold History.append
  split <;> simp_all

/-- The bytes an append leaves, before any compaction. -/
theorem History.stored_length {h : History} (hin : h.size ≤ h.bytes.length) (b : Byte) :
    (h.bytes.take h.size ++ b :: h.bytes.drop (h.size + 1)).length
      = max h.bytes.length (h.size + 1) := by
  simp only [List.length_append, List.length_take, List.length_cons, List.length_drop]
  omega

/-- An append keeps the array inside the capacity. -/
theorem History.append_length {p : HistParams} {h : History} (hin : h.size ≤ h.bytes.length)
    (hroom : h.size < p.capacity) (hfit : h.bytes.length ≤ p.capacity) (b : Byte) :
    (h.append p b).bytes.length ≤ p.capacity := by
  have hs := History.stored_length hin b
  unfold History.append
  split
  · simp only [List.length_append, List.length_take, List.length_drop, hs]
    omega
  · simp only [hs]
    omega

/-- What an append leaves as the valid bytes: the old ones and the new one, less the oldest that a
compaction discards. -/
theorem History.append_take {p : HistParams} {h : History} (hin : h.size ≤ h.bytes.length)
    (b : Byte) :
    (h.append p b).bytes.take (h.append p b).size =
      (h.bytes.take h.size ++ [b]).drop (h.size + 1 - (h.append p b).size) := by
  have htake : (h.bytes.take h.size ++ b :: h.bytes.drop (h.size + 1)).take (h.size + 1)
      = h.bytes.take h.size ++ [b] := by
    rw [List.take_append]
    simp [Nat.min_eq_left hin]
  rw [← htake, History.append_size]
  unfold History.append
  split
  · next hc =>
    have hlen : p.capacity - p.compact ≤
        ((h.bytes.take h.size ++ b :: h.bytes.drop (h.size + 1)).drop p.compact).length := by
      rw [List.length_drop, History.stored_length hin]
      omega
    simp only
    rw [List.take_append_of_le_length (by rw [List.length_take]; omega), List.take_take,
      List.drop_take, min_self]
    by_cases hle : p.compact ≤ p.capacity
    · rw [show h.size + 1 - (p.capacity - p.compact) = p.compact by omega,
        show h.size + 1 - p.compact = p.capacity - p.compact by omega]
    · rw [show p.capacity - p.compact = 0 by omega]
      simp
  · simp

/-- The valid bytes are at the front of the array. -/
theorem History.append_inside {p : HistParams} {h : History} (hin : h.size ≤ h.bytes.length)
    (b : Byte) : (h.append p b).size ≤ (h.append p b).bytes.length := by
  have hs := History.stored_length hin b
  unfold History.append
  split
  · simp only [List.length_append, List.length_take, List.length_drop, hs]
    omega
  · simp only [hs]
    omega

/-- An append keeps the history the newest part of the output (R68). -/
theorem History.Holds.append {h : History} {out : List Byte} (hh : h.Holds out)
    {p : HistParams} (b : Byte) : (h.append p b).Holds (out ++ [b]) := by
  have hsize : (h.append p b).size ≤ h.size + 1 := by
    rw [History.append_size]
    split <;> omega
  have hmore := hh.notMore
  refine ⟨History.append_inside hh.inside b, by simp; omega, ?_⟩
  rw [History.append_take hh.inside, hh.newest,
    ← List.drop_append_of_le_length (by omega), List.drop_drop]
  congr 1
  simp only [List.length_append, List.length_singleton]
  omega

/-- An empty history holds the newest part of an empty output. -/
theorem History.Holds.nil (h : History) : h.clear.Holds [] := ⟨by simp, by simp, by simp⟩

/-- What a distance reads, from the valid bytes alone. -/
theorem History.read_eq {h : History} {d : Nat} (h1 : 1 ≤ d) (hd : d ≤ h.size) : h.read d = (h.bytes.take h.size)[h.size - d]? := by
  rw [History.read, if_pos ⟨h1, hd⟩, List.getElem?_take_of_lt (by omega)]

/-- Where the history is the newest part of the output, a distance reads that output byte (R68). -/
theorem History.Holds.read {h : History} {out : List Byte} (hh : h.Holds out) {d : Nat}
    (h1 : 1 ≤ d) (hd : d ≤ h.size) : h.read d = out[out.length - d]? := by
  have := hh.notMore
  rw [History.read_eq h1 hd, hh.newest, List.getElem?_drop]
  congr 1
  omega

/-- The new byte is at distance 1. -/
theorem History.append_read_one {h : History} {p : HistParams}
    (hin : h.size ≤ h.bytes.length) (hp : 1 ≤ p.capacity - p.compact) (b : Byte) :
    (h.append p b).read 1 = some b := by
  have hsize := History.append_size p h b
  have hpos : 1 ≤ (h.append p b).size := by rw [hsize]; split <;> omega
  have hle : (h.append p b).size ≤ h.size + 1 := by rw [hsize]; split <;> omega
  rw [History.read_eq (le_refl 1) hpos, History.append_take hin,
    List.getElem?_drop, show h.size + 1 - (h.append p b).size + ((h.append p b).size - 1) = h.size
      by omega]
  simp [Nat.min_eq_left hin]

/-- Every other byte is one further away, as far as the sizes keep it. -/
theorem History.append_read_succ {h : History} {p : HistParams}
    (hin : h.size ≤ h.bytes.length) (b : Byte) {d : Nat} (h1 : 1 ≤ d)
    (hd : d < p.capacity - p.compact) : (h.append p b).read (d + 1) = h.read d := by
  have hsize := History.append_size p h b
  by_cases hle : d ≤ h.size
  · have hle' : d + 1 ≤ (h.append p b).size := by rw [hsize]; split <;> omega
    have hup : (h.append p b).size ≤ h.size + 1 := by rw [hsize]; split <;> omega
    rw [History.read_eq (by omega) hle', History.append_take hin,
      List.getElem?_drop, History.read_eq h1 hle,
      show h.size + 1 - (h.append p b).size + ((h.append p b).size - (d + 1)) = h.size - d
        by omega]
    rw [List.getElem?_append_left (by rw [List.length_take]; omega)]
  · have hnot : ¬ d + 1 ≤ (h.append p b).size := by
      rw [hsize]
      split <;> omega
    rw [History.read, History.read, if_neg (by omega), if_neg (by omega)]

end Sys2Proof.Machine
end

