-- ==== Sys2Proof/Laws/Memory.lean ====
section
/-! SUPPORT. The input memory: a byte reads as it was last set, setting a byte leaves every other
byte alone, and every memory operation keeps the canonical form. -/

namespace Sys2Proof.Machine

@[simp] theorem Memory.read_nil (a : Nat) : Memory.read [] a = Memory.unlisted := rfl

theorem Memory.read_cons (k : Nat) (v : Byte) (m : Memory) (a : Nat) :
    Memory.read ((k, v) :: m) a = if k = a then v else Memory.read m a := rfl

/-- The canonical form of a list with a first entry. -/
theorem Memory.wf_cons {k : Nat} {v : Byte} {m : Memory} :
    Memory.wf ((k, v) :: m) ↔ (∀ c ∈ m, k < c.1) ∧ v ≠ Memory.unlisted ∧ Memory.wf m := by
  simp only [Memory.wf, List.pairwise_cons, List.forall_mem_cons]
  tauto

/-- An address below every listed one reads as an unlisted byte. -/
theorem Memory.read_below {m : Memory} {a : Nat} (h : ∀ c ∈ m, a < c.1) :
    m.read a = Memory.unlisted := by
  induction m with
  | nil => rfl
  | cons c m ih =>
    obtain ⟨k, v⟩ := c
    have hk : a < k := h (k, v) (by simp)
    rw [Memory.read_cons, if_neg (by omega)]
    exact ih fun c hc => h c (by simp [hc])

/-- A byte reads as it was set. -/
theorem Memory.read_write_same (m : Memory) (hm : m.wf) (a : Nat) (b : Byte) :
    (m.write a b).read a = b := by
  induction m with
  | nil => by_cases hb : b = Memory.unlisted <;> simp [Memory.write, Memory.read_cons, hb]
  | cons c m ih =>
    obtain ⟨k, v⟩ := c
    obtain ⟨hlt, -, hm⟩ := Memory.wf_cons.mp hm
    by_cases h1 : a < k
    · have hbelow : Memory.read ((k, v) :: m) a = Memory.unlisted :=
        Memory.read_below fun c hc => by
          rcases List.mem_cons.mp hc with rfl | hc
          · exact h1
          · exact h1.trans (hlt c hc)
      by_cases hb : b = Memory.unlisted
      · subst hb
        rw [Memory.write, if_pos h1, if_pos rfl, hbelow]
      · simp [Memory.write, h1, hb, Memory.read_cons]
    · by_cases h2 : a = k
      · subst h2
        by_cases hb : b = Memory.unlisted
        · subst hb
          rw [Memory.write, if_neg h1, if_pos rfl, if_pos rfl]
          exact Memory.read_below hlt
        · simp [Memory.write, hb, Memory.read_cons]
      · simp only [Memory.write, if_neg h1, if_neg h2, Memory.read_cons, if_neg (Ne.symm h2)]
        exact ih hm

/-- Setting a byte leaves every other address alone. -/
theorem Memory.read_write_other (m : Memory) {a a' : Nat} (h : a' ≠ a) (b : Byte) :
    (m.write a b).read a' = m.read a' := by
  induction m with
  | nil => by_cases hb : b = Memory.unlisted <;> simp [Memory.write, Memory.read_cons, hb, h.symm]
  | cons c m ih =>
    obtain ⟨k, v⟩ := c
    simp only [Memory.write]
    split
    · split <;> simp [Memory.read_cons, h.symm]
    · split
      · next hk => subst hk; split <;> simp [Memory.read_cons, h.symm]
      · simp only [Memory.read_cons, ih]

/-- Every entry after a write is an old one or the new one. -/
theorem Memory.mem_write {m : Memory} {a : Nat} {b : Byte} {c : Host.Cell}
    (h : c ∈ m.write a b) : c ∈ m ∨ (c = (a, b) ∧ b ≠ Memory.unlisted) := by
  induction m with
  | nil =>
    by_cases hb : b = Memory.unlisted <;> simp_all [Memory.write]
  | cons d m ih =>
    obtain ⟨k, v⟩ := d
    simp only [Memory.write] at h
    split at h
    · split at h
      · exact .inl h
      · rcases List.mem_cons.mp h with rfl | h
        · exact .inr ⟨rfl, by assumption⟩
        · exact .inl h
    · split at h
      · split at h
        · exact .inl (by simp [h])
        · rcases List.mem_cons.mp h with rfl | h
          · exact .inr ⟨rfl, by assumption⟩
          · exact .inl (by simp [h])
      · rcases List.mem_cons.mp h with rfl | h
        · exact .inl (by simp)
        · rcases ih h with h | h
          · exact .inl (by simp [h])
          · exact .inr h

/-- A write keeps the canonical form. -/
theorem Memory.write_wf {m : Memory} (hm : m.wf) (a : Nat) (b : Byte) : (m.write a b).wf := by
  induction m with
  | nil => by_cases hb : b = Memory.unlisted <;> simp [Memory.write, hb, Memory.wf]
  | cons d m ih =>
    obtain ⟨k, v⟩ := d
    have hkm := hm
    obtain ⟨hlt, hv, hrest⟩ := Memory.wf_cons.mp hm
    simp only [Memory.write]
    split
    · next h =>
      split
      · exact hkm
      · next hb =>
        refine Memory.wf_cons.mpr ⟨fun c hc => ?_, hb, hkm⟩
        rcases List.mem_cons.mp hc with rfl | hc
        · exact h
        · exact h.trans (hlt c hc)
    · split
      · next h =>
        subst h
        split
        · exact hrest
        · next hb => exact Memory.wf_cons.mpr ⟨hlt, hb, hrest⟩
      · next h1 h2 =>
        refine Memory.wf_cons.mpr ⟨fun c hc => ?_, hv, ih hrest⟩
        rcases Memory.mem_write hc with hc | ⟨rfl, -⟩
        · exact hlt c hc
        · show k < a
          omega

/-- Setting consecutive bytes keeps the canonical form. -/
theorem Memory.writeAll_wf {m : Memory} (hm : m.wf) (a : Nat) (bs : List Byte) :
    (m.writeAll a bs).wf := by
  induction bs generalizing m a with
  | nil => exact hm
  | cons b bs ih => exact ih (Memory.write_wf hm a b) (a + 1)

/-- The input memory right after reset is in canonical form. -/
theorem Memory.reset_wf : State.reset.mem.wf := by decide

/-- What a read of the input answers, and when it answers nothing (R61). -/
theorem input_eq_some {s : State} {a : Nat} {b : Byte} :
    s.input a = some b ↔ a < s.inSize.toNat ∧ s.mem.read a = b := by
  by_cases h : a < s.inSize.toNat <;> simp [State.input, h]

theorem input_eq_none {s : State} {a : Nat} : s.input a = none ↔ s.inSize.toNat ≤ a := by
  simp [State.input]

end Sys2Proof.Machine
end

