-- ==== Sys2Proof/Laws/State.lean ====
section
/-! SUPPORT. One lemma for each field under each named update of the state, so that no later proof
unfolds a record update. -/

namespace Sys2Proof.Machine

@[simp] theorem setCur_fmt (s : State) (c : Cursor) : (s.setCur c).fmt = s.fmt := rfl
@[simp] theorem setCur_inBase (s : State) (c : Cursor) : (s.setCur c).inBase = s.inBase := rfl
@[simp] theorem setCur_inSize (s : State) (c : Cursor) : (s.setCur c).inSize = s.inSize := rfl
@[simp] theorem setCur_maxBytes (s : State) (c : Cursor) :
    (s.setCur c).maxBytes = s.maxBytes := rfl
@[simp] theorem setCur_phase (s : State) (c : Cursor) : (s.setCur c).phase = s.phase := rfl
@[simp] theorem setCur_capped (s : State) (c : Cursor) : (s.setCur c).capped = s.capped := rfl
@[simp] theorem setCur_err (s : State) (c : Cursor) : (s.setCur c).err = s.err := rfl
@[simp] theorem setCur_cur (s : State) (c : Cursor) : (s.setCur c).cur = c := rfl
@[simp] theorem setCur_hist (s : State) (c : Cursor) : (s.setCur c).hist = s.hist := rfl
@[simp] theorem setCur_written (s : State) (c : Cursor) : (s.setCur c).written = s.written := rfl
@[simp] theorem setCur_total (s : State) (c : Cursor) : (s.setCur c).total = s.total := rfl
@[simp] theorem setCur_copyDist (s : State) (c : Cursor) :
    (s.setCur c).copyDist = s.copyDist := rfl
@[simp] theorem setCur_copyRem (s : State) (c : Cursor) : (s.setCur c).copyRem = s.copyRem := rfl
@[simp] theorem setCur_out (s : State) (c : Cursor) : (s.setCur c).out = s.out := rfl
@[simp] theorem setCur_mem (s : State) (c : Cursor) : (s.setCur c).mem = s.mem := rfl
@[simp] theorem setCur_host (s : State) (c : Cursor) : (s.setCur c).host = s.host := rfl
@[simp] theorem setCur_readData (s : State) (c : Cursor) :
    (s.setCur c).readData = s.readData := rfl

@[simp] theorem setPhase_fmt (s : State) (p : Phase) : (s.setPhase p).fmt = s.fmt := rfl
@[simp] theorem setPhase_inBase (s : State) (p : Phase) : (s.setPhase p).inBase = s.inBase := rfl
@[simp] theorem setPhase_inSize (s : State) (p : Phase) : (s.setPhase p).inSize = s.inSize := rfl
@[simp] theorem setPhase_maxBytes (s : State) (p : Phase) :
    (s.setPhase p).maxBytes = s.maxBytes := rfl
@[simp] theorem setPhase_phase (s : State) (p : Phase) : (s.setPhase p).phase = p := rfl
@[simp] theorem setPhase_capped (s : State) (p : Phase) : (s.setPhase p).capped = s.capped := rfl
@[simp] theorem setPhase_err (s : State) (p : Phase) : (s.setPhase p).err = s.err := rfl
@[simp] theorem setPhase_cur (s : State) (p : Phase) : (s.setPhase p).cur = s.cur := rfl
@[simp] theorem setPhase_hist (s : State) (p : Phase) : (s.setPhase p).hist = s.hist := rfl
@[simp] theorem setPhase_written (s : State) (p : Phase) :
    (s.setPhase p).written = s.written := rfl
@[simp] theorem setPhase_total (s : State) (p : Phase) : (s.setPhase p).total = s.total := rfl
@[simp] theorem setPhase_copyDist (s : State) (p : Phase) :
    (s.setPhase p).copyDist = s.copyDist := rfl
@[simp] theorem setPhase_copyRem (s : State) (p : Phase) :
    (s.setPhase p).copyRem = s.copyRem := rfl
@[simp] theorem setPhase_out (s : State) (p : Phase) : (s.setPhase p).out = s.out := rfl
@[simp] theorem setPhase_mem (s : State) (p : Phase) : (s.setPhase p).mem = s.mem := rfl
@[simp] theorem setPhase_host (s : State) (p : Phase) : (s.setPhase p).host = s.host := rfl
@[simp] theorem setPhase_readData (s : State) (p : Phase) :
    (s.setPhase p).readData = s.readData := rfl

@[simp] theorem setTotal_fmt (s : State) (w : Word) : (s.setTotal w).fmt = s.fmt := rfl
@[simp] theorem setTotal_inBase (s : State) (w : Word) : (s.setTotal w).inBase = s.inBase := rfl
@[simp] theorem setTotal_inSize (s : State) (w : Word) : (s.setTotal w).inSize = s.inSize := rfl
@[simp] theorem setTotal_maxBytes (s : State) (w : Word) :
    (s.setTotal w).maxBytes = s.maxBytes := rfl
@[simp] theorem setTotal_phase (s : State) (w : Word) : (s.setTotal w).phase = s.phase := rfl
@[simp] theorem setTotal_capped (s : State) (w : Word) : (s.setTotal w).capped = s.capped := rfl
@[simp] theorem setTotal_err (s : State) (w : Word) : (s.setTotal w).err = s.err := rfl
@[simp] theorem setTotal_cur (s : State) (w : Word) : (s.setTotal w).cur = s.cur := rfl
@[simp] theorem setTotal_hist (s : State) (w : Word) : (s.setTotal w).hist = s.hist := rfl
@[simp] theorem setTotal_written (s : State) (w : Word) :
    (s.setTotal w).written = s.written := rfl
@[simp] theorem setTotal_total (s : State) (w : Word) : (s.setTotal w).total = w := rfl
@[simp] theorem setTotal_copyDist (s : State) (w : Word) :
    (s.setTotal w).copyDist = s.copyDist := rfl
@[simp] theorem setTotal_copyRem (s : State) (w : Word) :
    (s.setTotal w).copyRem = s.copyRem := rfl
@[simp] theorem setTotal_out (s : State) (w : Word) : (s.setTotal w).out = s.out := rfl
@[simp] theorem setTotal_mem (s : State) (w : Word) : (s.setTotal w).mem = s.mem := rfl
@[simp] theorem setTotal_host (s : State) (w : Word) : (s.setTotal w).host = s.host := rfl
@[simp] theorem setTotal_readData (s : State) (w : Word) :
    (s.setTotal w).readData = s.readData := rfl

@[simp] theorem setHost_fmt (s : State) (l : List HostEvent) : (s.setHost l).fmt = s.fmt := rfl
@[simp] theorem setHost_inBase (s : State) (l : List HostEvent) :
    (s.setHost l).inBase = s.inBase := rfl
@[simp] theorem setHost_inSize (s : State) (l : List HostEvent) :
    (s.setHost l).inSize = s.inSize := rfl
@[simp] theorem setHost_maxBytes (s : State) (l : List HostEvent) :
    (s.setHost l).maxBytes = s.maxBytes := rfl
@[simp] theorem setHost_phase (s : State) (l : List HostEvent) :
    (s.setHost l).phase = s.phase := rfl
@[simp] theorem setHost_capped (s : State) (l : List HostEvent) :
    (s.setHost l).capped = s.capped := rfl
@[simp] theorem setHost_err (s : State) (l : List HostEvent) : (s.setHost l).err = s.err := rfl
@[simp] theorem setHost_cur (s : State) (l : List HostEvent) : (s.setHost l).cur = s.cur := rfl
@[simp] theorem setHost_hist (s : State) (l : List HostEvent) : (s.setHost l).hist = s.hist := rfl
@[simp] theorem setHost_written (s : State) (l : List HostEvent) :
    (s.setHost l).written = s.written := rfl
@[simp] theorem setHost_total (s : State) (l : List HostEvent) :
    (s.setHost l).total = s.total := rfl
@[simp] theorem setHost_copyDist (s : State) (l : List HostEvent) :
    (s.setHost l).copyDist = s.copyDist := rfl
@[simp] theorem setHost_copyRem (s : State) (l : List HostEvent) :
    (s.setHost l).copyRem = s.copyRem := rfl
@[simp] theorem setHost_out (s : State) (l : List HostEvent) : (s.setHost l).out = s.out := rfl
@[simp] theorem setHost_mem (s : State) (l : List HostEvent) : (s.setHost l).mem = s.mem := rfl
@[simp] theorem setHost_host (s : State) (l : List HostEvent) : (s.setHost l).host = l := rfl
@[simp] theorem setHost_readData (s : State) (l : List HostEvent) :
    (s.setHost l).readData = s.readData := rfl

@[simp] theorem setRem_fmt (s : State) (n : Nat) : (s.setRem n).fmt = s.fmt := rfl
@[simp] theorem setRem_inBase (s : State) (n : Nat) : (s.setRem n).inBase = s.inBase := rfl
@[simp] theorem setRem_inSize (s : State) (n : Nat) : (s.setRem n).inSize = s.inSize := rfl
@[simp] theorem setRem_maxBytes (s : State) (n : Nat) : (s.setRem n).maxBytes = s.maxBytes := rfl
@[simp] theorem setRem_phase (s : State) (n : Nat) : (s.setRem n).phase = s.phase := rfl
@[simp] theorem setRem_capped (s : State) (n : Nat) : (s.setRem n).capped = s.capped := rfl
@[simp] theorem setRem_err (s : State) (n : Nat) : (s.setRem n).err = s.err := rfl
@[simp] theorem setRem_cur (s : State) (n : Nat) : (s.setRem n).cur = s.cur := rfl
@[simp] theorem setRem_hist (s : State) (n : Nat) : (s.setRem n).hist = s.hist := rfl
@[simp] theorem setRem_written (s : State) (n : Nat) : (s.setRem n).written = s.written := rfl
@[simp] theorem setRem_total (s : State) (n : Nat) : (s.setRem n).total = s.total := rfl
@[simp] theorem setRem_copyDist (s : State) (n : Nat) : (s.setRem n).copyDist = s.copyDist := rfl
@[simp] theorem setRem_copyRem (s : State) (n : Nat) : (s.setRem n).copyRem = n := rfl
@[simp] theorem setRem_out (s : State) (n : Nat) : (s.setRem n).out = s.out := rfl
@[simp] theorem setRem_mem (s : State) (n : Nat) : (s.setRem n).mem = s.mem := rfl
@[simp] theorem setRem_host (s : State) (n : Nat) : (s.setRem n).host = s.host := rfl
@[simp] theorem setRem_readData (s : State) (n : Nat) : (s.setRem n).readData = s.readData := rfl

@[simp] theorem pushByte_fmt (s : State) (b : Byte) : (s.pushByte b).fmt = s.fmt := rfl
@[simp] theorem pushByte_inBase (s : State) (b : Byte) : (s.pushByte b).inBase = s.inBase := rfl
@[simp] theorem pushByte_inSize (s : State) (b : Byte) : (s.pushByte b).inSize = s.inSize := rfl
@[simp] theorem pushByte_maxBytes (s : State) (b : Byte) :
    (s.pushByte b).maxBytes = s.maxBytes := rfl
@[simp] theorem pushByte_phase (s : State) (b : Byte) : (s.pushByte b).phase = s.phase := rfl
@[simp] theorem pushByte_capped (s : State) (b : Byte) : (s.pushByte b).capped = s.capped := rfl
@[simp] theorem pushByte_err (s : State) (b : Byte) : (s.pushByte b).err = s.err := rfl
@[simp] theorem pushByte_cur (s : State) (b : Byte) : (s.pushByte b).cur = s.cur := rfl
@[simp] theorem pushByte_hist (s : State) (b : Byte) :
    (s.pushByte b).hist = s.hist.append Config.histParams b := rfl
@[simp] theorem pushByte_written (s : State) (b : Byte) :
    (s.pushByte b).written = s.written + 1 := rfl
@[simp] theorem pushByte_total (s : State) (b : Byte) : (s.pushByte b).total = s.total := rfl
@[simp] theorem pushByte_copyDist (s : State) (b : Byte) :
    (s.pushByte b).copyDist = s.copyDist := rfl
@[simp] theorem pushByte_copyRem (s : State) (b : Byte) :
    (s.pushByte b).copyRem = s.copyRem := rfl
@[simp] theorem pushByte_out (s : State) (b : Byte) : (s.pushByte b).out = s.out ++ [b] := rfl
@[simp] theorem pushByte_mem (s : State) (b : Byte) : (s.pushByte b).mem = s.mem := rfl
@[simp] theorem pushByte_host (s : State) (b : Byte) : (s.pushByte b).host = s.host := rfl
@[simp] theorem pushByte_readData (s : State) (b : Byte) :
    (s.pushByte b).readData = s.readData := rfl

@[simp] theorem startCopy_fmt (s : State) (d n : Nat) : (s.startCopy d n).fmt = s.fmt := rfl
@[simp] theorem startCopy_inBase (s : State) (d n : Nat) :
    (s.startCopy d n).inBase = s.inBase := rfl
@[simp] theorem startCopy_inSize (s : State) (d n : Nat) :
    (s.startCopy d n).inSize = s.inSize := rfl
@[simp] theorem startCopy_maxBytes (s : State) (d n : Nat) :
    (s.startCopy d n).maxBytes = s.maxBytes := rfl
@[simp] theorem startCopy_phase (s : State) (d n : Nat) : (s.startCopy d n).phase = .copy := rfl
@[simp] theorem startCopy_capped (s : State) (d n : Nat) :
    (s.startCopy d n).capped = s.capped := rfl
@[simp] theorem startCopy_err (s : State) (d n : Nat) : (s.startCopy d n).err = s.err := rfl
@[simp] theorem startCopy_cur (s : State) (d n : Nat) : (s.startCopy d n).cur = s.cur := rfl
@[simp] theorem startCopy_hist (s : State) (d n : Nat) : (s.startCopy d n).hist = s.hist := rfl
@[simp] theorem startCopy_written (s : State) (d n : Nat) :
    (s.startCopy d n).written = s.written := rfl
@[simp] theorem startCopy_total (s : State) (d n : Nat) : (s.startCopy d n).total = s.total := rfl
@[simp] theorem startCopy_copyDist (s : State) (d n : Nat) : (s.startCopy d n).copyDist = d := rfl
@[simp] theorem startCopy_copyRem (s : State) (d n : Nat) : (s.startCopy d n).copyRem = n := rfl
@[simp] theorem startCopy_out (s : State) (d n : Nat) : (s.startCopy d n).out = s.out := rfl
@[simp] theorem startCopy_mem (s : State) (d n : Nat) : (s.startCopy d n).mem = s.mem := rfl
@[simp] theorem startCopy_host (s : State) (d n : Nat) : (s.startCopy d n).host = s.host := rfl
@[simp] theorem startCopy_readData (s : State) (d n : Nat) :
    (s.startCopy d n).readData = s.readData := rfl

@[simp] theorem capOff_fmt (s : State) : s.capOff.fmt = s.fmt := rfl
@[simp] theorem capOff_inBase (s : State) : s.capOff.inBase = s.inBase := rfl
@[simp] theorem capOff_inSize (s : State) : s.capOff.inSize = s.inSize := rfl
@[simp] theorem capOff_maxBytes (s : State) : s.capOff.maxBytes = s.maxBytes := rfl
@[simp] theorem capOff_phase (s : State) : s.capOff.phase = .done := rfl
@[simp] theorem capOff_capped (s : State) : s.capOff.capped = true := rfl
@[simp] theorem capOff_err (s : State) : s.capOff.err = s.err := rfl
@[simp] theorem capOff_cur (s : State) : s.capOff.cur = s.cur := rfl
@[simp] theorem capOff_hist (s : State) : s.capOff.hist = s.hist := rfl
@[simp] theorem capOff_written (s : State) : s.capOff.written = s.written := rfl
@[simp] theorem capOff_total (s : State) : s.capOff.total = s.total := rfl
@[simp] theorem capOff_copyDist (s : State) : s.capOff.copyDist = s.copyDist := rfl
@[simp] theorem capOff_copyRem (s : State) : s.capOff.copyRem = s.copyRem := rfl
@[simp] theorem capOff_out (s : State) : s.capOff.out = s.out := rfl
@[simp] theorem capOff_mem (s : State) : s.capOff.mem = s.mem := rfl
@[simp] theorem capOff_host (s : State) : s.capOff.host = s.host := rfl
@[simp] theorem capOff_readData (s : State) : s.capOff.readData = s.readData := rfl

@[simp] theorem raise_fmt (s : State) (e : ErrClass) : (raise e s).fmt = s.fmt := rfl
@[simp] theorem raise_inBase (s : State) (e : ErrClass) : (raise e s).inBase = s.inBase := rfl
@[simp] theorem raise_inSize (s : State) (e : ErrClass) : (raise e s).inSize = s.inSize := rfl
@[simp] theorem raise_maxBytes (s : State) (e : ErrClass) :
    (raise e s).maxBytes = s.maxBytes := rfl
@[simp] theorem raise_phase (s : State) (e : ErrClass) : (raise e s).phase = .error := rfl
@[simp] theorem raise_capped (s : State) (e : ErrClass) : (raise e s).capped = s.capped := rfl
@[simp] theorem raise_err (s : State) (e : ErrClass) : (raise e s).err = some e := rfl
@[simp] theorem raise_cur (s : State) (e : ErrClass) : (raise e s).cur = s.cur := rfl
@[simp] theorem raise_hist (s : State) (e : ErrClass) : (raise e s).hist = s.hist := rfl
@[simp] theorem raise_written (s : State) (e : ErrClass) : (raise e s).written = s.written := rfl
@[simp] theorem raise_total (s : State) (e : ErrClass) : (raise e s).total = s.total := rfl
@[simp] theorem raise_copyDist (s : State) (e : ErrClass) :
    (raise e s).copyDist = s.copyDist := rfl
@[simp] theorem raise_copyRem (s : State) (e : ErrClass) : (raise e s).copyRem = s.copyRem := rfl
@[simp] theorem raise_out (s : State) (e : ErrClass) : (raise e s).out = s.out := rfl
@[simp] theorem raise_mem (s : State) (e : ErrClass) : (raise e s).mem = s.mem := rfl
@[simp] theorem raise_host (s : State) (e : ErrClass) : (raise e s).host = s.host := rfl
@[simp] theorem raise_readData (s : State) (e : ErrClass) :
    (raise e s).readData = s.readData := rfl

@[simp] theorem start_fmt (s : State) : (start s).fmt = s.fmt := rfl
@[simp] theorem start_inBase (s : State) : (start s).inBase = s.inBase := rfl
@[simp] theorem start_inSize (s : State) : (start s).inSize = s.inSize := rfl
@[simp] theorem start_maxBytes (s : State) : (start s).maxBytes = s.maxBytes := rfl
@[simp] theorem start_phase (s : State) : (start s).phase = .header := rfl
@[simp] theorem start_capped (s : State) : (start s).capped = false := rfl
@[simp] theorem start_err (s : State) : (start s).err = none := rfl
@[simp] theorem start_cur (s : State) : (start s).cur = ⟨s.inBase.toNat, 0, 0, 0, 0⟩ := rfl
@[simp] theorem start_hist (s : State) : (start s).hist = s.hist.clear := rfl
@[simp] theorem start_written (s : State) : (start s).written = 0 := rfl
@[simp] theorem start_total (s : State) : (start s).total = 0 := rfl
@[simp] theorem start_copyDist (s : State) : (start s).copyDist = 0 := rfl
@[simp] theorem start_copyRem (s : State) : (start s).copyRem = 0 := rfl
@[simp] theorem start_out (s : State) : (start s).out = [] := rfl
@[simp] theorem start_mem (s : State) : (start s).mem = s.mem := rfl
@[simp] theorem start_host (s : State) : (start s).host = s.host := rfl
@[simp] theorem start_readData (s : State) : (start s).readData = s.readData := rfl

@[simp] theorem setYay0_fmt (s : State) (n co dof : Word) :
    (s.setYay0 n co dof).fmt = s.fmt := rfl
@[simp] theorem setYay0_inBase (s : State) (n co dof : Word) :
    (s.setYay0 n co dof).inBase = s.inBase := rfl
@[simp] theorem setYay0_inSize (s : State) (n co dof : Word) :
    (s.setYay0 n co dof).inSize = s.inSize := rfl
@[simp] theorem setYay0_maxBytes (s : State) (n co dof : Word) :
    (s.setYay0 n co dof).maxBytes = s.maxBytes := rfl
@[simp] theorem setYay0_phase (s : State) (n co dof : Word) :
    (s.setYay0 n co dof).phase = s.phase := rfl
@[simp] theorem setYay0_capped (s : State) (n co dof : Word) :
    (s.setYay0 n co dof).capped = s.capped := rfl
@[simp] theorem setYay0_err (s : State) (n co dof : Word) :
    (s.setYay0 n co dof).err = s.err := rfl
@[simp] theorem setYay0_cur (s : State) (n co dof : Word) :
    (s.setYay0 n co dof).cur = { s.cur with cntPos := s.inBase.toNat + co.toNat, datPos := s.inBase.toNat + dof.toNat } := rfl
@[simp] theorem setYay0_hist (s : State) (n co dof : Word) :
    (s.setYay0 n co dof).hist = s.hist := rfl
@[simp] theorem setYay0_written (s : State) (n co dof : Word) :
    (s.setYay0 n co dof).written = s.written := rfl
@[simp] theorem setYay0_total (s : State) (n co dof : Word) :
    (s.setYay0 n co dof).total = n := rfl
@[simp] theorem setYay0_copyDist (s : State) (n co dof : Word) :
    (s.setYay0 n co dof).copyDist = s.copyDist := rfl
@[simp] theorem setYay0_copyRem (s : State) (n co dof : Word) :
    (s.setYay0 n co dof).copyRem = s.copyRem := rfl
@[simp] theorem setYay0_out (s : State) (n co dof : Word) :
    (s.setYay0 n co dof).out = s.out := rfl
@[simp] theorem setYay0_mem (s : State) (n co dof : Word) :
    (s.setYay0 n co dof).mem = s.mem := rfl
@[simp] theorem setYay0_host (s : State) (n co dof : Word) :
    (s.setYay0 n co dof).host = s.host := rfl
@[simp] theorem setYay0_readData (s : State) (n co dof : Word) :
    (s.setYay0 n co dof).readData = s.readData := rfl

@[simp] theorem resetEvent_fmt (s : State) : (resetEvent s).fmt = 0 := rfl
@[simp] theorem resetEvent_inBase (s : State) : (resetEvent s).inBase = 0 := rfl
@[simp] theorem resetEvent_inSize (s : State) : (resetEvent s).inSize = 0 := rfl
@[simp] theorem resetEvent_maxBytes (s : State) : (resetEvent s).maxBytes = 0 := rfl
@[simp] theorem resetEvent_phase (s : State) : (resetEvent s).phase = .idle := rfl
@[simp] theorem resetEvent_capped (s : State) : (resetEvent s).capped = false := rfl
@[simp] theorem resetEvent_err (s : State) : (resetEvent s).err = none := rfl
@[simp] theorem resetEvent_cur (s : State) : (resetEvent s).cur = ⟨0, 0, 0, 0, 0⟩ := rfl
@[simp] theorem resetEvent_hist (s : State) : (resetEvent s).hist = ⟨[], 0⟩ := rfl
@[simp] theorem resetEvent_written (s : State) : (resetEvent s).written = 0 := rfl
@[simp] theorem resetEvent_total (s : State) : (resetEvent s).total = 0 := rfl
@[simp] theorem resetEvent_copyDist (s : State) : (resetEvent s).copyDist = 0 := rfl
@[simp] theorem resetEvent_copyRem (s : State) : (resetEvent s).copyRem = 0 := rfl
@[simp] theorem resetEvent_out (s : State) : (resetEvent s).out = [] := rfl
@[simp] theorem resetEvent_mem (s : State) : (resetEvent s).mem = s.mem := rfl
@[simp] theorem resetEvent_host (s : State) : (resetEvent s).host = s.host := rfl
@[simp] theorem resetEvent_readData (s : State) : (resetEvent s).readData = s.readData := rfl

end Sys2Proof.Machine
end

