-- ==== Sys2Proof/Laws/Ops.lean ====
section
/-! SUPPORT. One lemma for each shared operation that says once everything it can do; proofs cite
these and do not unfold the operation. -/

namespace Sys2Proof.Machine

@[simp] theorem Micro.andThen_go (s : State) (f : State → Micro) :
    (Micro.go s).andThen f = f s := rfl
@[simp] theorem Micro.andThen_raised (s : State) (f : State → Micro) :
    (Micro.raised s).andThen f = .raised s := rfl
@[simp] theorem Micro.andThen_stuck (r : Fault) (f : State → Micro) :
    (Micro.stuck r).andThen f = .stuck r := rfl
@[simp] theorem Micro.outcome_go (s : State) : (Micro.go s).outcome = .next s := rfl
@[simp] theorem Micro.outcome_raised (s : State) : (Micro.raised s).outcome = .next s := rfl
@[simp] theorem Micro.outcome_stuck (r : Fault) : (Micro.stuck r).outcome = .fault r := rfl

/-- `Emit` (R164): at the counter's top it raises, else the byte is appended and counted. -/
theorem emit_cases (b : Byte) (s : State) :
    (s.written = 0xFFFFFFFF ∧ emit b s = .raised (raise .overflow s)) ∨
    (s.written ≠ 0xFFFFFFFF ∧ emit b s = .go (s.pushByte b)) := by
  unfold emit
  split <;> simp_all

/-- `AfterEmit` (R165): the PRS cap, the declared size, or nothing. -/
theorem afterEmit_cases (s : State) :
    (s.fmt = 0 ∧ s.maxBytes ≠ 0 ∧ s.written = s.maxBytes ∧ afterEmit s = s.capOff) ∨
    (s.fmt ≠ 0 ∧ s.written = s.total ∧ afterEmit s = s.setPhase .done) ∨
    ((s.fmt = 0 → s.maxBytes ≠ 0 → s.written ≠ s.maxBytes) ∧
      (s.fmt ≠ 0 → s.written ≠ s.total) ∧ afterEmit s = s) := by
  unfold afterEmit
  split
  · split <;> simp_all
  · split <;> simp_all

/-- `ExecLiteral` (R166): the counter's error, or the byte and then `AfterEmit`. -/
theorem execLiteral_cases (b : Byte) (s : State) :
    (s.written = 0xFFFFFFFF ∧ execLiteral b s = .raised (raise .overflow s)) ∨
    (s.written ≠ 0xFFFFFFFF ∧ execLiteral b s = .go (afterEmit (s.pushByte b))) := by
  unfold execLiteral
  rcases emit_cases b s with ⟨h, e⟩ | ⟨h, e⟩
  · exact .inl ⟨h, by rw [e, Micro.andThen_raised]⟩
  · exact .inr ⟨h, by rw [e, Micro.andThen_go]⟩

/-- `CheckDist` (R167). -/
theorem checkDist_cases (d : Nat) (s : State) :
    (s.written.toNat < d ∧ checkDist d s = .raised (raise .backrefTooDistant s)) ∨
    (d ≤ s.written.toNat ∧ checkDist d s = .go s) := by
  unfold checkDist
  split <;> simp_all

/-- A PRS copy (R183, R187, R188): too distant, or handed to the copy engine. -/
theorem prsCopy_cases (d n : Nat) (s : State) :
    (s.written.toNat < d ∧ prsCopy d n s = .raised (raise .backrefTooDistant s)) ∨
    (d ≤ s.written.toNat ∧ prsCopy d n s = .go (s.startCopy d n)) := by
  unfold prsCopy
  rcases checkDist_cases d s with ⟨h, e⟩ | ⟨h, e⟩ <;> simp [h, e]

/-- `YLitFinish` (R218): the limit's error, or a literal. -/
theorem yLitFinish_cases (L : Byte) (s : State) :
    (s.maxBytes ≠ 0 ∧ s.maxBytes.toNat < s.written.toNat + 1 ∧
      yLitFinish L s = .raised (raise .overflow s)) ∨
    ((s.maxBytes ≠ 0 → s.written.toNat + 1 ≤ s.maxBytes.toNat) ∧
      yLitFinish L s = execLiteral L s) := by
  unfold yLitFinish
  split
  · exact .inl ⟨by simp_all, by simp_all, rfl⟩
  · refine .inr ⟨fun h => ?_, rfl⟩
    simp_all

/-- `YCopyFinish` (R217): too distant, no byte left to produce, the limit's error, or the cut copy
handed to the copy engine. -/
theorem yCopyFinish_cases (d n : Nat) (s : State) :
    (s.written.toNat < d ∧ yCopyFinish d n s = .raised (raise .backrefTooDistant s)) ∨
    (d ≤ s.written.toNat ∧ s.total.toNat ≤ s.written.toNat ∧
      yCopyFinish d n s = .stuck .declaredSizeReached) ∨
    (d ≤ s.written.toNat ∧ s.written.toNat < s.total.toNat ∧ s.maxBytes ≠ 0 ∧
      s.maxBytes.toNat < s.written.toNat + cutLen n s ∧
      yCopyFinish d n s = .raised (raise .overflow s)) ∨
    (d ≤ s.written.toNat ∧ s.written.toNat < s.total.toNat ∧
      (s.maxBytes ≠ 0 → s.written.toNat + cutLen n s ≤ s.maxBytes.toNat) ∧
      yCopyFinish d n s = .go (s.startCopy d (cutLen n s))) := by
  unfold yCopyFinish
  rcases checkDist_cases d s with ⟨h, e⟩ | ⟨h, e⟩
  · exact .inl ⟨h, by simp [e]⟩
  · refine .inr ?_
    simp only [e, Micro.andThen_go]
    split
    · exact .inl ⟨h, by assumption, rfl⟩
    · next hlt =>
      refine .inr ?_
      split
      · next hm => exact .inl ⟨h, by omega, hm.1, hm.2, rfl⟩
      · next hm =>
        refine .inr ⟨h, by omega, fun h0 => ?_, rfl⟩
        by_contra hc
        exact hm ⟨h0, by omega⟩

/-- The state after a copy step's own writes, before `AfterEmit` (R169). -/
def copied (b : Byte) (s : State) : State :=
  let t := (s.pushByte b).setRem (s.copyRem - 1)
  if s.copyRem - 1 = 0 then t.setPhase .cmd else t

/-- The copy step (R169): a precondition fails, the counter's error, or one byte. -/
theorem copyStep_cases (s : State) :
    (s.copyRem = 0 ∧ copyStep s = .stuck .copyWithoutBytes) ∨
    (s.copyRem ≠ 0 ∧ s.hist.read s.copyDist = none ∧
      copyStep s = .stuck .historyUnderflow) ∨
    (s.copyRem ≠ 0 ∧ ∃ b, s.hist.read s.copyDist = some b ∧
      ((s.written = 0xFFFFFFFF ∧ copyStep s = .raised (raise .overflow s)) ∨
       (s.written ≠ 0xFFFFFFFF ∧ copyStep s = .go (afterEmit (copied b s))))) := by
  by_cases h0 : s.copyRem = 0
  · exact .inl ⟨h0, by simp [copyStep, h0]⟩
  · refine .inr ?_
    rcases hr : s.hist.read s.copyDist with _ | b
    · exact .inl ⟨h0, rfl, by simp [copyStep, h0, hr]⟩
    · refine .inr ⟨h0, b, rfl, ?_⟩
      rcases emit_cases b s with ⟨h, e⟩ | ⟨h, e⟩
      · exact .inl ⟨h, by simp [copyStep, h0, hr, e]⟩
      · exact .inr ⟨h, by simp only [copyStep, if_neg h0, hr, e, Micro.andThen_go]; rfl⟩

section copied
variable (b : Byte) (s : State)
@[simp] theorem copied_fmt : (copied b s).fmt = s.fmt := by unfold copied; split <;> rfl
@[simp] theorem copied_inBase : (copied b s).inBase = s.inBase := by unfold copied; split <;> rfl
@[simp] theorem copied_inSize : (copied b s).inSize = s.inSize := by unfold copied; split <;> rfl
@[simp] theorem copied_maxBytes : (copied b s).maxBytes = s.maxBytes := by
  unfold copied; split <;> rfl
@[simp] theorem copied_phase :
    (copied b s).phase = if s.copyRem - 1 = 0 then .cmd else s.phase := by
  unfold copied; split <;> rfl
@[simp] theorem copied_capped : (copied b s).capped = s.capped := by unfold copied; split <;> rfl
@[simp] theorem copied_err : (copied b s).err = s.err := by unfold copied; split <;> rfl
@[simp] theorem copied_cur : (copied b s).cur = s.cur := by unfold copied; split <;> rfl
@[simp] theorem copied_hist : (copied b s).hist = s.hist.append Config.histParams b := by
  unfold copied; split <;> rfl
@[simp] theorem copied_written : (copied b s).written = s.written + 1 := by
  unfold copied; split <;> rfl
@[simp] theorem copied_total : (copied b s).total = s.total := by unfold copied; split <;> rfl
@[simp] theorem copied_copyDist : (copied b s).copyDist = s.copyDist := by
  unfold copied; split <;> rfl
@[simp] theorem copied_copyRem : (copied b s).copyRem = s.copyRem - 1 := by
  unfold copied; split <;> rfl
@[simp] theorem copied_out : (copied b s).out = s.out ++ [b] := by unfold copied; split <;> rfl
@[simp] theorem copied_mem : (copied b s).mem = s.mem := by unfold copied; split <;> rfl
@[simp] theorem copied_host : (copied b s).host = s.host := by unfold copied; split <;> rfl
@[simp] theorem copied_readData : (copied b s).readData = s.readData := by
  unfold copied; split <;> rfl
end copied

/-- `n_eff` is at least one byte where the declared size leaves one, and never more than the
command's own length (R217). -/
theorem cutLen_bounds {n : Nat} {s : State} (hn : 1 ≤ n)
    (h : s.written.toNat < s.total.toNat) :
    1 ≤ cutLen n s ∧ cutLen n s ≤ n ∧ s.written.toNat + cutLen n s ≤ s.total.toNat := by
  unfold cutLen
  omega

/-- Counting a byte below the counter's top does not wrap (R164). -/
theorem written_succ {w : Word} (h : w ≠ 0xFFFFFFFF) : (w + 1).toNat = w.toNat + 1 := by
  have hne : w.toNat ≠ 4294967295 := fun e => h (BitVec.eq_of_toNat_eq e)
  have hadd : (w + 1).toNat = (w.toNat + 1) % 2 ^ 32 := BitVec.toNat_add w 1
  have := w.isLt
  omega

/-- Busy, by phase (R43). -/
theorem busy_iff {s : State} :
    s.busy = true ↔ s.phase = .header ∨ s.phase = .cmd ∨ s.phase = .copy := by
  unfold State.busy
  split <;> simp_all

/-! ### What the host's port does -/

/-- A register write while busy changes nothing (R39). -/
theorem writeReg_busy {s : State} (h : s.busy = true) (off : Nat) (v : Word) :
    writeReg s off v = s := by
  simp [writeReg, h]

/-- What a register write can do: nothing, the start step with the written FMT, or one register
(R24, R31 to R33). -/
theorem writeReg_cases (s : State) (off : Nat) (v : Word) :
    writeReg s off v = s ∨
    (s.busy = false ∧ off = 0 ∧ v.getLsbD 0 = true ∧
      writeReg s off v = start { s with fmt := v.extractLsb' 1 2 }) ∨
    (s.busy = false ∧ off = 0 ∧ v.getLsbD 0 = false ∧
      writeReg s off v = { s with fmt := v.extractLsb' 1 2 }) ∨
    (s.busy = false ∧ writeReg s off v = { s with inBase := v }) ∨
    (s.busy = false ∧ writeReg s off v = { s with inSize := v }) ∨
    (s.busy = false ∧ writeReg s off v = { s with maxBytes := v }) := by
  by_cases hb : s.busy = true
  · exact .inl (writeReg_busy hb off v)
  · have hf : s.busy = false := by simpa using hb
    unfold writeReg
    rw [if_neg hb]
    split
    · next h0 =>
      rcases hs : v.getLsbD 0 with _ | _
      · exact .inr (.inr (.inl ⟨hf, h0, rfl, by simp only [writeCtrl, hs, Bool.false_eq_true, if_false]⟩))
      · exact .inr (.inl ⟨hf, h0, rfl, by simp only [writeCtrl, hs, if_true]⟩)
    · split
      · exact .inr (.inr (.inr (.inl ⟨hf, rfl⟩)))
      · split
        · exact .inr (.inr (.inr (.inr (.inl ⟨hf, rfl⟩))))
        · split
          · exact .inr (.inr (.inr (.inr (.inr ⟨hf, rfl⟩))))
          · exact .inl rfl

/-- The port serves exactly the whole words at multiples of 4 inside the window (R21). -/
theorem portRefuses_none {off width : Nat} :
    portRefuses off width = none ↔ width = 4 ∧ off % 4 = 0 ∧ off < 0x40 := by
  unfold portRefuses
  split
  · simp_all
  · split
    · simp_all
    · split <;> simp_all

/-- A step with no host access pending is the engine's (R161). -/
theorem step_engine {s : State} (h : s.host = []) : step s = engineStep s := by
  simp [step, h]

/-- A step with a host access pending is that access (R161). -/
theorem step_host {s : State} {e : HostEvent} {rest : List HostEvent} (h : s.host = e :: rest) :
    step s = hostStep e (s.setHost rest) := by
  simp [step, h]

end Sys2Proof.Machine
end

