-- ==== Sys2Proof/Laws/PerInstr.lean ====
section
/-! SUPPORT. Statements made for every instruction, one lemma per constructor. -/

namespace Sys2Proof.Laws.CodeShape

/-- The size of a code (R90, R109, R115): a command has 1, 2 or 4 control bits and 1 to 3 payload
bytes, a header no control bit and 16 bytes; and only Yay0 commands use other streams than the
main one (R117). -/
def Statement (i : Instr) : Prop :=
  (((encode i).ctl.length = 1 ∨ (encode i).ctl.length = 2 ∨ (encode i).ctl.length = 4) ∧
      1 ≤ (encode i).payload.length ∧ (encode i).payload.length ≤ 3 ∨
    (encode i).ctl = [] ∧ (encode i).payload.length = 16) ∧
  (i.slot ≠ .yay0Command → ∀ x ∈ (encode i).payload, x.1 = .main)

theorem lit (L : Byte) : Statement (.lit L) := by
  simp [Statement, encode]

theorem scopy (s1 s0 : Bool) (O : Byte) : Statement (.scopy s1 s0 O) := by
  simp [Statement, encode]

theorem lcopy2 (f : BitVec 13) (lll : BitVec 3) : Statement (.lcopy2 f lll) := by
  simp [Statement, encode]

theorem lcopy3 (f : BitVec 13) (N : Byte) : Statement (.lcopy3 f N) := by
  simp [Statement, encode]

theorem endMark : Statement .endMark := by
  simp [Statement, encode]

theorem yaz0Lit (L : Byte) : Statement (.yaz0Lit L) := by
  simp [Statement, encode]

theorem yaz0Copy2 (n : BitVec 4) (D : BitVec 12) : Statement (.yaz0Copy2 n D) := by
  simp [Statement, encode]

theorem yaz0Copy3 (D : BitVec 12) (E : Byte) : Statement (.yaz0Copy3 D E) := by
  simp [Statement, encode]

theorem yay0Lit (L : Byte) : Statement (.yay0Lit L) := by
  simp [Statement, encode, Instr.slot]

theorem yay0Copy2 (n : BitVec 4) (D : BitVec 12) : Statement (.yay0Copy2 n D) := by
  simp [Statement, encode, Instr.slot]

theorem yay0Copy3 (D : BitVec 12) (E : Byte) : Statement (.yay0Copy3 D E) := by
  simp [Statement, encode, Instr.slot]

theorem yaz0Header (size : Word) (padding : BitVec 64) : Statement (.yaz0Header size padding) := by
  simp [Statement, encode, u32Bytes]

theorem yay0Header (size countOffset dataOffset : Word) :
    Statement (.yay0Header size countOffset dataOffset) := by
  simp [Statement, encode, u32Bytes]

end Sys2Proof.Laws.CodeShape
end

