-- ==== Sys2Proof/Laws/Run.lean ====
section
/-! SUPPORT. Running the machine `k` steps. The lemmas are proved of any machine of the host's
interface and then read at this one. -/

namespace Sys2Proof.Machine

/-- A run, by its first step's outcome. -/
theorem runOf_unfold (M : Host.Core) (k : Nat) (s : M.State) : M.run (k + 1) s = (match M.step s with
      | .next s' => M.run k s'
      | .fault r => .fault r
      | .refused r => .refused r) := rfl

theorem runOf_succ (M : Host.Core) {s t : M.State} (h : M.step s = .next t) (k : Nat) :
    M.run (k + 1) s = M.run k t := by
  rw [runOf_unfold, h]

theorem runOf_succ_eq_next (M : Host.Core) {s t : M.State} {k : Nat}
    (h : M.run (k + 1) s = .next t) : ∃ s', M.step s = .next s' ∧ M.run k s' = .next t := by
  rw [runOf_unfold] at h
  rcases hs : M.step s with s' | r | r
  · exact ⟨s', rfl, by rwa [hs] at h⟩
  · rw [hs] at h
    cases h
  · rw [hs] at h
    cases h

/-- A run of no steps stays where it is. -/
theorem run_zero (s : State) : core.run 0 s = .next s := rfl

/-- A run whose first step answers a next state goes on from there. -/
theorem run_succ {s t : State} (h : step s = .next t) (k : Nat) :
    core.run (k + 1) s = core.run k t :=
  runOf_succ core h k

/-- A run that answers a next state made a first step and went on. -/
theorem run_succ_eq_next {s t : State} {k : Nat} (h : core.run (k + 1) s = .next t) :
    ∃ s', step s = .next s' ∧ core.run k s' = .next t :=
  runOf_succ_eq_next core h

/-- Two runs, one after the other. -/
theorem run_add {s t : State} {j : Nat} (h : core.run j s = .next t) (k : Nat) :
    core.run (j + k) s = core.run k t := by
  induction j generalizing s with
  | zero =>
    cases h
    rw [Nat.zero_add]
  | succ j ih =>
    obtain ⟨s', h1, h2⟩ := run_succ_eq_next h
    rw [show j + 1 + k = (j + k) + 1 by omega, run_succ h1, ih h2]

end Sys2Proof.Machine
end

