-- ==== Sys2Proof/Tests/Slice0.lean ====
section
/-! SUPPORT. The model's own tests. Expected results are the spec's: the worked examples of
spec/42_prs.md, 43_yaz0.md and 44_yay0.md, the tables of spec/30_encoding.md, and the vectors of
spec/95_test_vectors.md, named in each comment. At the end, for every statement of
Certificates/Slice0/Obligations.lean that has hypotheses, a concrete state and operands that meet
them. -/

namespace Sys2Proof.Tests

open Sys2Proof Sys2Proof.Machine

/-! ### Helpers -/

/-- A state in phase CMD of format `fmt` with output `out`, and `bytes` as its input from 0. -/
def cmdState (fmt : BitVec 2) (out bytes : List Byte) (total maxBytes : Word) : State :=
  { State.reset with
    fmt := fmt, phase := .cmd, inSize := BitVec.ofNat 32 bytes.length, maxBytes := maxBytes,
    hist := ⟨out, out.length⟩, written := BitVec.ofNat 32 out.length, out := out,
    total := total, mem := Memory.writeAll [] 0 bytes }

/-- The same in phase HEADER, nothing emitted. -/
def headerState (fmt : BitVec 2) (bytes : List Byte) : State :=
  { cmdState fmt [] bytes 0 0 with phase := .header }

/-- The same in phase COPY. -/
def copyState (fmt : BitVec 2) (out : List Byte) (total maxBytes : Word) (dist rem : Nat) : State :=
  { cmdState fmt out [] total maxBytes with phase := .copy, copyDist := dist, copyRem := rem }

/-- A state with nothing but host accesses to come. -/
def hostState (l : List HostEvent) : State := { State.reset with host := l }

/-- The state of an outcome; the reset state stands for a stop. -/
def nextOf : Host.Outcome State Fault Refusal → State
  | .next s => s
  | .fault _ => State.reset
  | .refused _ => State.reset

/-- STATUS, the output, IN_POS and `e.ctl_bits` after one step. -/
def endOf (s : State) : Word × List Byte × Nat × Nat :=
  let t := nextOf (step s)
  (t.status, t.out, t.cur.inPos, t.cur.ctlBits)

/-- The copy a step has handed to the copy engine: the phase, the distance and the length. -/
def copyOf (s : State) : Phase × Nat × Nat :=
  let t := nextOf (step s)
  (t.phase, t.copyDist, t.copyRem)

/-! ### WellFormed refuses what no encoding stands for -/

theorem test_wf_lcopy2_zero_lll : (Instr.lcopy2 5 0).wf = false := by decide
theorem test_wf_lcopy3_zero_field : (Instr.lcopy3 0 9).wf = false := by decide
theorem test_wf_yaz0Copy2_zero_nibble : (Instr.yaz0Copy2 0 1).wf = false := by decide
theorem test_wf_yay0Copy2_zero_nibble : (Instr.yay0Copy2 0 1).wf = false := by decide

/-! ### Decoding, one word written out for every constructor (R93, R109, R113, R115) -/

/-- Control bit `1` in bit 0 of the control byte, then `L`. -/
theorem test_decode_lit : decodeTableWord 16 0x4101 = some (.lit 0x41) := by decide
/-- Vector E2: control bits `0 0 1 1` from bit 0 on, `O = 00`. -/
theorem test_decode_scopy : decodeTableWord 16 0x000C = some (.scopy true true 0x00) := by decide
/-- Vector E1: `01 00` after control bits `0 1`. -/
theorem test_decode_lcopy2 : decodeTableWord 24 0x000102 = some (.lcopy2 0 1) := by decide
/-- Vector E1: `00 01` and a length byte; `b1` is the high byte. -/
theorem test_decode_lcopy3 : decodeTableWord 32 0x09010002 = some (.lcopy3 0x20 0x09) := by decide
/-- Vector P1. -/
theorem test_decode_end : decodeTableWord 24 0x000002 = some .endMark := by decide
/-- Vector SRC-3: control bit `1` in bit 7. -/
theorem test_decode_yaz0Lit : decodeTableWord 16 0x4880 = some (.yaz0Lit 0x48) := by decide
/-- Vector E3: `F0 03`, the first byte most significant. -/
theorem test_decode_yaz0Copy2 : decodeTableWord 24 0x03F000 = some (.yaz0Copy2 15 3) := by decide
/-- Vector E3: `0F FF` and `E = FF`. -/
theorem test_decode_yaz0Copy3 :
    decodeTableWord 32 0xFFFF0F00 = some (.yaz0Copy3 0xFFF 0xFF) := by decide
/-- R117, R242: control bit in the control stream, the byte in the data stream. -/
theorem test_decode_yay0Lit :
    decode .yay0Command (fun a => [0x80, 0x11, 0x22, 0x33][a]?) ⟨0, 1, 3, 0, 0⟩
      = .instr (.yay0Lit 0x33) ⟨1, 1, 4, 0, 7⟩ := by decide
/-- R117, R243: `20 01` in the count stream; the data stream is not touched. -/
theorem test_decode_yay0Copy2 :
    decode .yay0Command (fun a => [0x00, 0x20, 0x01, 0x33][a]?) ⟨0, 1, 3, 0, 0⟩
      = .instr (.yay0Copy2 2 1) ⟨1, 3, 3, 0, 7⟩ := by decide
/-- R117, R244: `00 00` in the count stream, `01` in the data stream. -/
theorem test_decode_yay0Copy3 :
    decode .yay0Command (fun a => [0x00, 0x00, 0x00, 0x01][a]?) ⟨0, 1, 3, 0, 0⟩
      = .instr (.yay0Copy3 0 1) ⟨1, 3, 4, 0, 7⟩ := by decide
/-- Vector Y14: the padding is not checked. -/
theorem test_decode_yaz0Header :
    decodeTableWord 128 0x04030201EFBEADDE05000000307A6159
      = some (.yaz0Header 5 0xDEADBEEF01020304) := by decide
/-- The example of R240. -/
theorem test_decode_yay0Header :
    decodeTableWord 128 0x16000000140000000600000030796159
      = some (.yay0Header 6 0x14 0x16) := by decide
/-- Vector P5, CR6: control bits over two control bytes, the second one before the payload. -/
theorem test_decode_straddle :
    decode .prsCommand (fun a => [0x0B, 0xFD][a]?) ⟨0, 0, 0, 0x00, 2⟩
      = .instr (.scopy true true 0xFD) ⟨2, 0, 0, 0x02, 6⟩ := by decide

/-! ### Encoding -/

/-- Vector SRC-4, offset −300, length 4: `LCOPY2`, `A2 F6`. -/
theorem test_encode_lcopy2 : encodeBytes (.lcopy2 0x1ED4 2) = [0x02, 0xA2, 0xF6] := by decide
/-- Vector SRC-4, offset −0x1FEF, length 255: `LCOPY3`, `88 00 FE`. -/
theorem test_encode_lcopy3 : encodeBytes (.lcopy3 0x0011 0xFE) = [0x02, 0x88, 0x00, 0xFE] := by
  decide
/-- Vector SRC-4, offset −3, length 5: `SCOPY`, control bits `0 0 1 1`, `FD`. -/
theorem test_encode_scopy : encodeBytes (.scopy true true 0xFD) = [0x0C, 0xFD] := by decide
/-- Vector E3, `20 01`. -/
theorem test_encode_yaz0Copy2 : encodeBytes (.yaz0Copy2 2 1) = [0x00, 0x20, 0x01] := by decide

/-! ### One step of every instruction -/

/-- Vector SRC-2, its first command. -/
theorem test_lit_emits : endOf (cmdState 0 [] [0x15, 0x41] 0 0) = (0x01, [0x41], 2, 7) := by
  decide
/-- Vector P11b: capped after the literal. -/
theorem test_lit_capped : endOf (cmdState 0 [] [0x15, 0x41] 0 1) = (0x0A, [0x41], 2, 7) := by
  decide
/-- The example of R183: distance 2, length 4. -/
theorem test_scopy_copies : copyOf (cmdState 0 [0x61, 0x62] [0x04, 0xFE] 0 0) = (.copy, 2, 4) := by
  decide
/-- Vector P9: distance 1 with nothing emitted. -/
theorem test_scopy_too_distant : endOf (cmdState 0 [] [0x00, 0xFF] 0 0) = (0x44, [], 2, 4) := by
  decide
/-- The example of R187: distance 1, length 9. -/
theorem test_lcopy2_copies : copyOf (cmdState 0 [0x41] [0x02, 0xFF, 0xFF] 0 0) = (.copy, 1, 9) := by
  decide
/-- Vector P15: distance 3 after two bytes. -/
theorem test_lcopy2_too_distant :
    endOf (cmdState 0 [0x61, 0x62] [0x02, 0xEF, 0xFF] 0 0) = (0x44, [0x61, 0x62], 3, 6) := by
  decide
/-- Vector SRC-1: distance 1, length 10. -/
theorem test_lcopy3_copies :
    copyOf (cmdState 0 [0x41] [0x02, 0xF8, 0xFF, 0x09] 0 0) = (.copy, 1, 10) := by decide
/-- Vector P16, one byte further: the length byte of `00 01` is missing. -/
theorem test_lcopy3_truncated : endOf (cmdState 0 [] [0x02, 0x00, 0x01] 0 0) = (0x24, [], 3, 6) := by
  decide
/-- Vector P1. -/
theorem test_end_done : endOf (cmdState 0 [] [0x02, 0x00, 0x00] 0 0) = (0x02, [], 3, 6) := by
  decide
/-- Vector SRC-3, its last literal: the declared size ends the operation. -/
theorem test_yaz0Lit_last :
    endOf (cmdState 1 [0x48, 0x65, 0x6C, 0x6C] [0x80, 0x6F] 5 0)
      = (0x02, [0x48, 0x65, 0x6C, 0x6C, 0x6F], 2, 7) := by decide
/-- Vector Y8c: the literal would pass MAX_BYTES = 1. -/
theorem test_yaz0Lit_overflow :
    endOf (cmdState 1 [0x61] [0x80, 0x62] 6 1) = (0x54, [0x61], 2, 7) := by decide
/-- Vector Y2: distance 2, length 4. -/
theorem test_yaz0Copy2_copies :
    copyOf (cmdState 1 [0x61, 0x62] [0x00, 0x20, 0x01] 6 0) = (.copy, 2, 4) := by decide
/-- Vector Y8d: cut to 1 byte, so within MAX_BYTES = 3. -/
theorem test_yaz0Copy2_cut :
    copyOf (cmdState 1 [0x61, 0x62] [0x00, 0x20, 0x01] 3 3) = (.copy, 2, 1) := by decide
/-- Vector Y10: the longest copy. -/
theorem test_yaz0Copy3_longest :
    copyOf (cmdState 1 [0x7A] [0x00, 0x00, 0x00, 0xFF] 274 0) = (.copy, 1, 273) := by decide
/-- R278: a copy both too distant and truncated reports `Corrupted`. -/
theorem test_yaz0Copy3_priority :
    endOf (cmdState 1 [] [0x00, 0x00, 0x00] 20 0) = (0x24, [], 3, 7) := by decide
/-- The example of R242: DAT_POS advances, CNT_POS does not. -/
theorem test_yay0Lit_streams :
    (nextOf (step { cmdState 2 [] [0xC0, 0xEE, 0x61] 6 0 with cur := ⟨0, 1, 2, 0, 0⟩ })).cur
      = ⟨1, 1, 3, 0x80, 7⟩ := by decide
/-- The example of R243. -/
theorem test_yay0Copy2_copies :
    copyOf { cmdState 2 [0x61, 0x62] [0x00, 0x20, 0x01] 6 0 with cur := ⟨0, 1, 3, 0, 0⟩ }
      = (.copy, 2, 4) := by decide
/-- The example of R244. -/
theorem test_yay0Copy3_copies :
    copyOf { cmdState 2 [0x7A] [0x00, 0x00, 0x00, 0x01] 20 0 with cur := ⟨0, 1, 3, 0, 0⟩ }
      = (.copy, 1, 19) := by decide
/-- The example of R210. -/
theorem test_yaz0Header_size :
    (nextOf (step (headerState 1
      [0x59, 0x61, 0x7A, 0x30, 0, 0, 0, 5, 0, 0, 0, 0, 0, 0, 0, 0]))).total = 5 := by decide
/-- Vector Y7: the size has been read when the padding is missing. -/
theorem test_yaz0Header_truncated :
    let t := nextOf (step (headerState 1 [0x59, 0x61, 0x7A, 0x30, 0, 0, 0, 5]))
    (t.status, t.total, t.cur.inPos) = (0x24, 5, 8) := by decide
/-- The example of R240. -/
theorem test_yay0Header_streams :
    (nextOf (step (headerState 2
      [0x59, 0x61, 0x79, 0x30, 0, 0, 0, 6, 0, 0, 0, 0x14, 0, 0, 0, 0x16]))).cur
      = ⟨0x10, 0x14, 0x16, 0, 0⟩ := by decide
/-- Vector Y6b under FMT = 2: a Yaz0 magic is `Unrecognized`. -/
theorem test_yay0Header_magic :
    endOf (headerState 2 [0x59, 0x61, 0x7A, 0x30]) = (0x34, [], 4, 0) := by decide

/-! ### The copy step, the host's side, reset -/

/-- Vector P11: the cap in the middle of a copy. -/
theorem test_copyStep_capped :
    endOf (copyState 0 [0x41, 0x41, 0x41] 0 4 1 7) = (0x0A, [0x41, 0x41, 0x41, 0x41], 0, 0) := by
  decide
/-- Vector X2, its second copy step. -/
theorem test_copyStep_counter :
    (nextOf (step { copyState 0 [0x41] 0 0 1 2 with written := 0xFFFFFFFF })).status = 0x54 := by
  decide
/-- R24, R305: FMT of the write that starts. -/
theorem test_start_takes_fmt :
    let t := nextOf (step { hostState [.write 0x00 4 0x5] with fmt := 1, inBase := 7 })
    (t.fmt, t.phase, t.cur.inPos) = (2, .header, 7) := by decide
/-- R22: START and the reserved bits read 0. -/
theorem test_ctrl_reads : readReg { State.reset with fmt := 3 } 0x00 = 0x6 := by decide
/-- R21: a halfword access is refused. -/
theorem test_port_refuses : portRefuses 0x02 2 = some .notAWordAccess := by decide
/-- Writing an unlisted byte's value removes the entry. -/
theorem test_memory_canonical :
    Memory.write (Memory.write [] 3 7) 3 Memory.unlisted = [] := by decide
/-- The table's word is what the step right after reset runs. -/
theorem test_first_step_runs_placed_word :
    (nextOf (step (State.reset.withFetchWord 16 0x4101))).out = [0x41] := by decide
/-- R47: every register reads 0 after reset. -/
theorem test_reset_registers :
    [0x00, 0x04, 0x08, 0x0C, 0x10, 0x14, 0x18, 0x1C, 0x20, 0x24].all
      (fun off => readReg State.reset off == 0) = true := by decide

/-! ### The statements' hypotheses can be met -/

/-- A PRS operation at a command, two bytes emitted, `LIT 0x41` next. -/
def prsCmd : State := cmdState 0 [0x61, 0x62] [0x01, 0x41] 0 0

/-- A PRS operation in a copy of 4 bytes from 2 back. -/
def prsCopying : State := copyState 0 [0x61, 0x62] 0 0 2 4

/-- The same under a cap one byte away. -/
def prsCapped : State := copyState 0 [0x61, 0x62] 0 3 2 4

/-- A Yaz0 operation of 6 bytes at a command, its last 4 bytes next. -/
def yazCmd : State := cmdState 1 [0x61, 0x62] [0x00, 0x20, 0x01] 6 0

theorem prsCmd_inv : Inv prsCmd := by
  constructor <;>
    first | decide | (unfold State.decoding; decide) | exact ⟨by decide, by decide, by decide⟩

theorem prsCopying_inv : Inv prsCopying := by
  constructor <;>
    first | decide | (unfold State.decoding; decide) | exact ⟨by decide, by decide, by decide⟩

theorem prsCapped_inv : Inv prsCapped := by
  constructor <;>
    first | decide | (unfold State.decoding; decide) | exact ⟨by decide, by decide, by decide⟩

theorem yazCmd_inv : Inv yazCmd := by
  constructor <;>
    first | decide | (unfold State.decoding; decide) | exact ⟨by decide, by decide, by decide⟩

/-- A Yaz0 header step before four bytes that are no magic. -/
def wrongMagic : State := headerState 1 [0x50, 0x51, 0x52, 0x53]

/-- A header step of the reserved format. -/
def reservedFormat : State := headerState 3 [0x50, 0x51, 0x52, 0x53]

theorem wrongMagic_inv : Inv wrongMagic := by
  constructor <;>
    first | decide | (unfold State.decoding; decide) | exact ⟨by decide, by decide, by decide⟩

theorem reservedFormat_inv : Inv reservedFormat := by
  constructor <;>
    first | decide | (unfold State.decoding; decide) | exact ⟨by decide, by decide, by decide⟩

/-- `SCOPY`'s four control bits and `O` at a cursor with two bits left over. -/
theorem scopy_stands :
    standsAt (fun a => [0x0B, 0xFD][a]?) (.scopy true true 0xFD) ⟨0, 0, 0, 0x00, 2⟩
      ⟨2, 0, 0, 0x02, 6⟩ :=
  ⟨⟨1, 0, 0, 0x02, 6⟩, by decide, by decide, rfl⟩

theorem witness_DecodeInvertsEncode : ∃ (i : Instr) (inp : Input) (c c' : Cursor),
    i.wf = true ∧ standsAt inp i c c' :=
  ⟨_, _, _, _, rfl, scopy_stands⟩

theorem witness_DecodedCommandStands : ∃ (slot : Slot) (inp : Input) (c c' : Cursor) (i : Instr),
    decode slot inp c = .instr i c' :=
  ⟨_, _, _, _, _, test_decode_straddle⟩

theorem witness_OneStreamBytesDecode : (Instr.lcopy3 1 0xFF).wf = true ∧
    (Instr.lcopy3 1 0xFF).slot ≠ .yay0Command := by decide

theorem witness_ThreeStreamBytesDecode :
    let i := Instr.yay0Copy3 0xFFF 0x05
    let inp : Input := fun a => [0x00, 0x0F, 0xFF, 0x05][a]?
    let count := ((encode i).payload.filter (·.1 = .count)).map Prod.snd
    let data := ((encode i).payload.filter (·.1 = .data)).map Prod.snd
    i.wf = true ∧ i.slot = .yay0Command ∧ inp 0 = some (controlByte i) ∧
      count = [0x0F, 0xFF] ∧ data = [0x05] ∧
      inp (1 + 0) = count[0]? ∧ inp (1 + 1) = count[1]? ∧ inp (3 + 0) = data[0]? := by decide

theorem witness_NoIllegalCommand : ∀ a : Nat, ((fun _ => some 0 : Input) a).isSome = true :=
  fun _ => rfl

/-- Vector CR1's byte, for the first bit and for all eight. -/
theorem witness_PrsControlBitsLsbFirst : ∃ (inp : Input) (c : Cursor) (b : Byte),
    c.ctlBits = 0 ∧ inp c.inPos = some b ∧ b = 0x15 ∧ (1 ≤ 1 ∧ 1 ≤ 8) ∧ (1 ≤ 8 ∧ 8 ≤ 8) :=
  ⟨fun _ => some 0x15, ⟨0, 0, 0, 0, 0⟩, 0x15, rfl, rfl, rfl, by decide, by decide⟩

/-- Vector CR2's byte. -/
theorem witness_YazControlBitsMsbFirst : ∃ (inp : Input) (c : Cursor) (b : Byte),
    c.ctlBits = 0 ∧ inp c.inPos = some b ∧ b = 0xC0 ∧ (1 ≤ 1 ∧ 1 ≤ 8) ∧ (1 ≤ 8 ∧ 8 ≤ 8) :=
  ⟨fun _ => some 0xC0, ⟨0, 0, 0, 0, 0⟩, 0xC0, rfl, rfl, rfl, by decide, by decide⟩

theorem witness_ControlFetchIsLazy :
    (8 ≤ (⟨0, 0, 0, 0x15, 8⟩ : Cursor).ctlBits) ∧
    (⟨0, 0, 0, 0, 0⟩ : Cursor).ctlBits = 0 ∧ (fun _ => none : Input) 0 = none := by decide

/-- One witness for each of the three clauses, each where it meets a neighbour. -/
theorem witness_LongFormSelection :
    (∃ b0 b1 : Byte, b0 = 0 ∧ b1 = 0) ∧ (∃ b0 : Byte, b0.toNat % 8 ≠ 0 ∧ b0 = 1) ∧
    ∃ b0 b1 : Byte, b0.toNat % 8 = 0 ∧ ¬ (b0 = 0 ∧ b1 = 0) ∧ b0 = 0 :=
  ⟨⟨0, 0, rfl, rfl⟩, ⟨1, by decide, rfl⟩, 0, 1, by decide, by decide, rfl⟩

/-- A control bit of either value, and copy codes on both sides of a zero nibble. -/
theorem witness_CopyCodeSelection :
    readBitY (fun a => [0x80, 0x10][a]?) ⟨0, 0, 0, 0, 0⟩ = .ok true ⟨1, 0, 0, 0, 7⟩ ∧
    readBitY (fun a => [0x00, 0x10][a]?) ⟨0, 0, 0, 0, 0⟩ = .ok false ⟨1, 0, 0, 0, 7⟩ ∧
    codeNibble (copyCode 0x10 0x00) ≠ 0 ∧ codeNibble (copyCode 0x0F 0xFF) = 0 := by decide

theorem witness_CommandRanges : ∃ (slot : Slot) (inp : Input) (c c' : Cursor) (i : Instr),
    decode slot inp c = .instr i c' :=
  ⟨_, _, _, _, _, test_decode_yay0Copy3⟩

theorem witness_LitEmitsItsByte :
    prsCmd.fmt = 0 ∧ prsCmd.written ≠ 0xFFFFFFFF ∧
      prsCmd.hist.size ≤ prsCmd.hist.bytes.length := by decide

/-- With MAX_BYTES reached exactly, and without. -/
theorem witness_YlitEmitsItsByte :
    let ok (s : State) := s.fmt ≠ 0 ∧ s.written ≠ 0xFFFFFFFF ∧
      (s.maxBytes = 0 ∨ s.written.toNat + 1 ≤ s.maxBytes.toNat) ∧
      s.hist.size ≤ s.hist.bytes.length
    ok yazCmd ∧ ok { yazCmd with maxBytes := 3 } := by decide

/-- The largest distance of each form, with exactly that many bytes emitted. -/
theorem witness_PrsCopiesHandOver :
    256 - (0 : Byte).toNat ≤ ({ prsCmd with written := 256 } : State).written.toNat ∧
    8192 - (0 : BitVec 13).toNat ≤ ({ prsCmd with written := 8192 } : State).written.toNat ∧
    8192 - (1 : BitVec 13).toNat ≤ ({ prsCmd with written := 8191 } : State).written.toNat := by
  decide

/-- A copy of 4 bytes where 4 are left, and at a limit of exactly those. -/
theorem witness_YCopiesHandOver :
    let s : State := { yazCmd with maxBytes := 6 }
    (1 : BitVec 12).toNat + 1 ≤ s.written.toNat ∧ s.written.toNat < s.total.toNat ∧
    s.written.toNat + min ((2 : BitVec 4).toNat + 2) (s.total.toNat - s.written.toNat)
      ≤ s.maxBytes.toNat ∧
    s.written.toNat + min ((0 : Byte).toNat + 18) (s.total.toNat - s.written.toNat)
      ≤ s.maxBytes.toNat := by decide

/-- One byte fewer than each distance. -/
theorem witness_TooDistantCopiesRaise :
    ({ prsCmd with written := 255 } : State).written.toNat < 256 - (0 : Byte).toNat ∧
    ({ prsCmd with written := 8191 } : State).written.toNat < 8192 - (0 : BitVec 13).toNat ∧
    prsCmd.written.toNat < (2 : BitVec 12).toNat + 1 := by decide

/-- A limit one byte too low, for a literal and for each copy. -/
theorem witness_LimitOverflowRaises :
    let s : State := { yazCmd with maxBytes := 2 }
    let t : State := { yazCmd with maxBytes := 5 }
    s.maxBytes ≠ 0 ∧ s.maxBytes.toNat < s.written.toNat + 1 ∧ t.maxBytes ≠ 0 ∧
    (1 : BitVec 12).toNat + 1 ≤ t.written.toNat ∧ t.written.toNat < t.total.toNat ∧
    t.maxBytes.toNat < t.written.toNat + min ((2 : BitVec 4).toNat + 2)
      (t.total.toNat - t.written.toNat) ∧
    t.maxBytes.toNat < t.written.toNat + min ((0 : Byte).toNat + 18)
      (t.total.toNat - t.written.toNat) := by decide

theorem witness_CounterTopRaises :
    let s : State := { prsCopying with written := 0xFFFFFFFF }
    s.written = 0xFFFFFFFF ∧ s.host = [] ∧ s.phase = .copy ∧ s.copyRem ≠ 0 ∧
      (s.hist.read s.copyDist).isSome = true := by decide

/-- A state for each of the five clauses. -/
theorem witness_StepRunsDecodedInstr :
    (prsCmd.host = [] ∧ prsCmd.phase = .cmd ∧ prsCmd.fmt = 0 ∧
      decode .prsCommand prsCmd.input prsCmd.cur = .instr (.lit 0x41) ⟨2, 0, 0, 0, 7⟩) ∧
    (yazCmd.host = [] ∧ yazCmd.phase = .cmd ∧ yazCmd.fmt = 1 ∧
      decode .yaz0Command yazCmd.input yazCmd.cur = .instr (.yaz0Copy2 2 1) ⟨3, 0, 0, 0, 7⟩) ∧
    (let s : State := State.reset.withFetchWord 16 0x4881
     s.host = [] ∧ s.phase = .cmd ∧ s.fmt = 2 ∧
      decode .yay0Command s.input s.cur = .instr (.yay0Lit 0x48) ⟨1, 1, 2, 0, 7⟩) ∧
    (let s : State := State.reset.withFetchWord 128 0x05000000307A6159
     s.host = [] ∧ s.phase = .header ∧ s.fmt = 1 ∧
      decode .yaz0Header s.input s.cur = .instr (.yaz0Header 5 0) ⟨16, 0, 0, 0, 0⟩) ∧
    (let s : State := State.reset.withFetchWord 128 0x16000000140000000600000030796159
     s.host = [] ∧ s.phase = .header ∧ s.fmt = 2 ∧
      decode .yay0Header s.input s.cur = .instr (.yay0Header 6 0x14 0x16) ⟨16, 0, 0, 0, 0⟩) := by
  decide

theorem witness_PlacedWordRunsNext : State.reset.mem.wf ∧
    decodeTableWord 16 0x4101 = some (.lit 0x41) := by decide

/-- A read that fails in each slot, nothing there, in a magic, or in a Yaz0 header whose size has
been read; for a Yay0 command each stream that can fail, its data byte missing for a literal and
for a copy. -/
theorem witness_FailedReadIsCorrupted :
    let p := cmdState 0 [] [] 0 0
    let y := cmdState 1 [] [] 6 0
    let z := { cmdState 2 [] [0x00] 6 0 with cur := ⟨0, 1, 1, 0, 0⟩ }
    let f := { cmdState 2 [] [0x00] 6 0 with cur := ⟨3, 0, 0, 0, 0⟩ }
    let l := { cmdState 2 [] [0x80] 6 0 with cur := ⟨0, 0, 1, 0, 0⟩ }
    let e := { cmdState 2 [] [0x00, 0x01] 6 0 with cur := ⟨0, 0, 2, 0, 0⟩ }
    let h := headerState 1 [0x59, 0x61, 0x7A, 0x30, 0, 0, 0, 5]
    let g := headerState 2 [0x59]
    failedStream .yay0Command z = .count ∧ failedStream .yay0Command f = .main ∧
    failedStream .yay0Command l = .data ∧ failedStream .yay0Command e = .data ∧
    decode .yay0Command f.input f.cur = .truncated ⟨3, 0, 0, 0, 0⟩ none ∧
    decode .yay0Command l.input l.cur = .truncated ⟨1, 0, 1, 0, 7⟩ none ∧
    decode .yay0Command e.input e.cur = .truncated ⟨1, 2, 2, 0, 7⟩ none ∧
    decode .prsCommand p.input p.cur = .truncated ⟨0, 0, 0, 0, 0⟩ none ∧
    decode .yaz0Command y.input y.cur = .truncated ⟨0, 0, 0, 0, 0⟩ none ∧
    decode .yay0Command z.input z.cur = .truncated ⟨1, 1, 1, 0, 7⟩ none ∧
    decode .yaz0Header h.input h.cur = .truncated ⟨8, 0, 0, 0, 0⟩ (some 5) ∧
    decode .yay0Header g.input g.cur = .truncated ⟨1, 0, 0, 0, 0⟩ none := by decide

/-- Both clauses: a header of four wrong bytes, and a PRS command. -/
theorem witness_WrongMagicIsUnrecognized :
    (let s := wrongMagic
     Inv s ∧ s.host = [] ∧ s.phase = .header ∧ s.fmt = 1 ∧ s.input 0 = some 0x50 ∧
      s.input 1 = some 0x51 ∧ s.input 2 = some 0x52 ∧ s.input 3 = some 0x53 ∧
      (0x50 : Byte) ++ (0x51 : Byte) ++ (0x52 : Byte) ++ (0x53 : Byte) ≠ (0x59617A30 : Word)) ∧
    (prsCmd.host = [] ∧ prsCmd.fmt = 0 ∧ prsCmd.err ≠ some .unrecognized ∧
      ∃ t, step prsCmd = .next t) :=
  ⟨⟨wrongMagic_inv, by decide⟩, by decide, by decide, by decide, _, rfl⟩

theorem witness_ReservedFormatIsUnsupported :
    Inv reservedFormat ∧ reservedFormat.host = [] ∧ reservedFormat.phase = .header ∧
      reservedFormat.fmt = 3 :=
  ⟨reservedFormat_inv, by decide⟩

theorem witness_PrsHeaderReadsNothing :
    let s := headerState 0 []
    s.host = [] ∧ s.phase = .header ∧ s.fmt = 0 := by decide

theorem witness_CopyStepEmitsOneByte : Inv prsCopying ∧ prsCopying.host = [] ∧
    prsCopying.phase = .copy ∧ prsCopying.written ≠ 0xFFFFFFFF :=
  ⟨prsCopying_inv, by decide⟩

/-- Both distances that are outside a history of two bytes. -/
theorem witness_HistoryUnderflowFaults :
    let s : State := { prsCopying with copyDist := 0 }
    let t : State := { prsCopying with copyDist := 3 }
    s.host = [] ∧ s.phase = .copy ∧ s.copyRem ≠ 0 ∧ s.copyDist = 0 ∧
      t.host = [] ∧ t.phase = .copy ∧ t.copyRem ≠ 0 ∧ t.hist.size < t.copyDist := by decide

theorem witness_CopyRepeatsPattern :
    Inv prsCopying ∧ prsCopying.host = [] ∧ prsCopying.phase = .copy ∧
    prsCopying.written.toNat + prsCopying.copyRem ≤ 0xFFFFFFFF ∧
    (prsCopying.fmt = 0 → prsCopying.maxBytes ≠ 0 →
      prsCopying.written.toNat + prsCopying.copyRem ≤ prsCopying.maxBytes.toNat) :=
  ⟨prsCopying_inv, by decide⟩

theorem witness_PrsCapStopsCopy :
    Inv prsCapped ∧ prsCapped.host = [] ∧ prsCapped.phase = .copy ∧ prsCapped.fmt = 0 ∧
    prsCapped.maxBytes ≠ 0 ∧
    prsCapped.maxBytes.toNat < prsCapped.written.toNat + prsCapped.copyRem :=
  ⟨prsCapped_inv, by decide⟩

/-- The reference sizes, at the largest distance. -/
theorem witness_CompactionIsTransparent : Config.histParams.legal ∧ 1 ≤ 0x2000 ∧
    0x2000 ≤ min (List.replicate 0x2000 (0 : Byte)).length
      (Config.histParams.capacity - Config.histParams.compact) := by
  rw [List.length_replicate]
  decide

theorem witness_StepKeepsInvariant : Inv prsCmd ∧ ∃ t, step prsCmd = .next t :=
  ⟨prsCmd_inv, _, rfl⟩

theorem witness_EngineNeverStops : Inv yazCmd ∧ yazCmd.host = [] := ⟨yazCmd_inv, rfl⟩

theorem witness_OperationEnds : Inv yazCmd ∧ yazCmd.host = [] ∧ yazCmd.busy = true :=
  ⟨yazCmd_inv, by decide⟩

theorem witness_EngineStepFrame : prsCopying.host = [] ∧ ∃ t, step prsCopying = .next t :=
  ⟨rfl, _, rfl⟩

theorem witness_PointersOnlyAdvance : prsCmd.host = [] ∧ prsCmd.phase ≠ .header ∧
    prsCopying.phase = .copy ∧ ∃ t, step prsCmd = .next t :=
  ⟨rfl, by decide, rfl, _, rfl⟩

/-- A copy too distant, at a command step. -/
theorem witness_ErrorsArePrecise :
    let s := cmdState 0 [] [0x00, 0xFF] 0 0
    s.host = [] ∧ s.phase = .cmd ∧ ∃ t, step s = .next t ∧ t.phase = .error :=
  ⟨rfl, rfl, _, rfl, rfl⟩

theorem witness_EndedEngineStaysPut : State.reset.host = [] ∧ State.reset.busy = false := by decide

theorem witness_OnlyStartWriteBegins :
    let s := hostState [.write 0x00 4 0x3]
    s.busy = false ∧ ∃ t, step s = .next t ∧ t.busy = true :=
  ⟨rfl, _, rfl, rfl⟩

/-- START = 1 and START = 0, with FMT = 3. -/
theorem witness_CtrlWriteStoresFmtAndStarts :
    let s := hostState [.write 0x00 4 0x7]
    let t := hostState [.write 0x00 4 0x6]
    s.busy = false ∧ s.host = [.write 0x00 4 0x7] ∧ (0x7 : Word).getLsbD 0 = true ∧
      t.busy = false ∧ t.host = [.write 0x00 4 0x6] ∧ (0x6 : Word).getLsbD 0 = false := by decide

/-- A busy block with a START write, and with a read of the last offset. -/
theorem witness_BusyWritesIgnored :
    let s : State := { prsCmd with host := [.write 0x00 4 0x1] }
    let t : State := { prsCmd with host := [.read 0x3C 4] }
    s.busy = true ∧ 0x00 % 4 = 0 ∧ s.host = [.write 0x00 4 0x1] ∧
      t.busy = true ∧ 0x3C % 4 = 0 ∧ 0x3C < 0x40 ∧ t.host = [.read 0x3C 4] := by decide

/-- A write of each kind: a register while idle, and the offsets at the edges of the read-only
range while busy. -/
theorem witness_RegisterWrites :
    (hostState [.write 0x08 4 1]).busy = false ∧
    (hostState [.write 0x0C 4 1]).host = [.write 0x0C 4 1] ∧
    (hostState [.write 0x10 4 1]).host = [.write 0x10 4 1] ∧
    (0x04 % 4 = 0 ∧ 0x04 < 0x40) ∧ (0x14 % 4 = 0 ∧ 0x14 ≤ 0x14) ∧
    (0x3C % 4 = 0 ∧ 0x3C < 0x40 ∧ 0x14 ≤ 0x3C) := by decide

theorem witness_RegisterReads :
    (hostState [.read 0x24 4]).host = [.read 0x24 4] ∧ 0x24 % 4 = 0 ∧ 0x24 < 0x40 ∧
    (hostState [.read 0x28 4]).host = [.read 0x28 4] ∧ 0x28 % 4 = 0 ∧ 0x28 < 0x40 := by decide

/-- A halfword at an aligned offset, and a word at an odd one. -/
theorem witness_OddAccessesRefused :
    (hostState [.write 0x04 2 1]).host = [.write 0x04 2 1] ∧ 2 ≠ 4 ∧
    (hostState [.read 0x01 4]).host = [.read 0x01 4] ∧ 0x01 % 4 ≠ 0 := by decide

theorem witness_StatusBits : Inv prsCmd ∧ Inv prsCapped := ⟨prsCmd_inv, prsCapped_inv⟩

/-- Reset in the middle of a copy. -/
theorem witness_ResetEventFromAnyState :
    let s : State := { prsCopying with host := [.reset] }
    s.busy = true ∧ s.host = [.reset] := by decide

/-- The input changed while idle, and while busy beyond IN_SIZE and below it. -/
theorem witness_HostInputSetsOneByte :
    let s := hostState [.input 5 0x41]
    let t : State := { prsCmd with host := [.input 5 0x41] }
    let u : State := { prsCmd with host := [.input 0 0x41] }
    s.mem.wf ∧ s.host = [.input 5 0x41] ∧ s.busy = false ∧
      t.mem.wf ∧ t.host = [.input 5 0x41] ∧ t.busy = true ∧ t.mem.read 5 ≠ 0x41 ∧
      t.inSize.toNat ≤ 5 ∧ u.mem.wf ∧ u.host = [.input 0 0x41] ∧ u.busy = true ∧
      u.mem.read 0 ≠ 0x41 ∧ 0 < u.inSize.toNat := by decide

/-- Another byte right at IN_SIZE. -/
theorem witness_BytesBeyondInSizeUnread :
    let m := prsCmd.mem.write 2 0xEE
    prsCmd.host = [] ∧ (∀ a, a < prsCmd.inSize.toNat → m.read a = prsCmd.mem.read a) ∧
      m.read 2 ≠ prsCmd.mem.read 2 ∧ ∃ t, step prsCmd = .next t :=
  ⟨rfl, by decide, by decide, _, rfl⟩

/-- Another byte right at `e.hsize`. -/
theorem witness_HistoryAboveSizeUnread :
    let h : History := ⟨[0x61, 0x62, 0xEE], 2⟩
    prsCopying.host = [] ∧ prsCopying.hist.size ≤ prsCopying.hist.bytes.length ∧
      h.size = prsCopying.hist.size ∧
      h.bytes.take h.size = prsCopying.hist.bytes.take prsCopying.hist.size ∧
      h ≠ prsCopying.hist ∧ ∃ t, step prsCopying = .next t :=
  ⟨rfl, by decide, rfl, rfl, by decide, _, rfl⟩

/-- A block after reset, and one that has ended in an error. -/
theorem witness_OperationsForgetThePast :
    let s := hostState [.write 0x00 4 0x1]
    let s' : State := { s with phase := .error, err := some .overflow, out := [0x41], written := 1 }
    s.busy = false ∧ s'.busy = false ∧ s.inBase = s'.inBase ∧ s.inSize = s'.inSize ∧
      s.maxBytes = s'.maxBytes ∧ s.mem = s'.mem ∧ s.host = [.write 0x00 4 0x1] ∧
      s'.host = [.write 0x00 4 0x1] ∧ (0x1 : Word).getLsbD 0 = true ∧
      ∃ t, core.run 2 s = .next t :=
  ⟨rfl, rfl, rfl, rfl, rfl, rfl, rfl, rfl, by decide, _, rfl⟩

/-- Vector P7's commands, from after its first literal. -/
theorem witness_PrsDecoderExpands :
    let s := cmdState 0 [0x71] [0x0A, 0xF8, 0xFF, 0x00, 0x00, 0x00] 0 0
    let cmds := [Instr.lcopy3 0x1FFF 0x00]
    Inv s ∧ s.host = [] ∧ s.phase = .cmd ∧ s.fmt = 0 ∧ s.maxBytes = 0 ∧
      (∀ i ∈ cmds, i.slot = .prsCommand) ∧
      streamStands s.input (cmds ++ [.endMark]) s.cur ⟨6, 0, 0, 0, 4⟩ ∧
      expand cmds s.out = some [0x71, 0x71] := by
  refine ⟨?_, rfl, rfl, rfl, rfl, by decide, ?_, by decide⟩
  · constructor <;>
      first | decide | (unfold State.decoding; decide) | exact ⟨by decide, by decide, by decide⟩
  · exact ⟨⟨4, 0, 0, 0x02, 6⟩, rfl,
      ⟨⟨1, 0, 0, 0x02, 6⟩, by decide, by decide, by decide, by decide, rfl⟩,
      ⟨6, 0, 0, 0, 4⟩, rfl, ⟨⟨4, 0, 0, 0, 4⟩, by decide, by decide, by decide, rfl⟩, rfl⟩

/-- Vector Y4: two literals, then a copy of 4 bytes cut to 1. -/
theorem witness_YazDecodersExpand :
    let s := cmdState 1 [0x61] [0x80, 0x62, 0x20, 0x01] 3 0
    Inv s ∧ s.host = [] ∧ s.phase = .cmd ∧ s.fmt = 1 ∧ s.maxBytes = 0 ∧
      (∀ i ∈ [Instr.yaz0Lit 0x62] ++ [.yaz0Copy2 2 1], i.slot = .yaz0Command) ∧
      streamStands s.input ([.yaz0Lit 0x62] ++ [.yaz0Copy2 2 1]) s.cur ⟨4, 0, 0, 0, 6⟩ ∧
      expand [.yaz0Lit 0x62] s.out = some [0x61, 0x62] ∧ [0x61, 0x62].length < s.total.toNat ∧
      expandOne (.yaz0Copy2 2 1) [0x61, 0x62] = some [0x61, 0x62, 0x61, 0x62, 0x61, 0x62] ∧
      s.total.toNat ≤ [0x61, 0x62, 0x61, 0x62, 0x61, 0x62].length := by
  refine ⟨?_, rfl, rfl, rfl, rfl, by decide, ?_, by decide, by decide, by decide, by decide⟩
  · constructor <;>
      first | decide | (unfold State.decoding; decide) | exact ⟨by decide, by decide, by decide⟩
  · exact ⟨⟨2, 0, 0, 0, 7⟩, rfl, ⟨⟨1, 0, 0, 0, 7⟩, by decide, by decide, rfl⟩,
      ⟨4, 0, 0, 0, 6⟩, rfl, ⟨⟨2, 0, 0, 0, 6⟩, by decide, by decide, by decide, rfl⟩, rfl⟩

end Sys2Proof.Tests
end

/-! The register port: what one step answers for a word access inside the window, and what a
CTRL write does (spec/10_state.md R21, R24, R39; spec/41_copy_engine.md R160). -/

namespace Sys2Proof.Machine

/-- BUSY is of the phase alone, so the host's accesses to come do not bear on it (R43). -/
@[simp] theorem busy_setHost (s : State) (l : List HostEvent) : (s.setHost l).busy = s.busy := rfl

/-! ### A word access inside the window is served (R21) -/

/-- The step of a served write is the register write, the access taken off the host's list. -/
theorem step_write_word {s : State} {off : Nat} {v : Word} {rest : List HostEvent}
    (hhost : s.host = .write off 4 v :: rest) (halign : off % 4 = 0) (hwindow : off < 0x40) :
    step s = .next (writeReg (s.setHost rest) off v) := by
  have hserved : portRefuses off 4 = none := portRefuses_none.mpr ⟨rfl, halign, hwindow⟩
  rw [step_host hhost, hostStep, hserved]

/-- The step of a served read keeps the register's word and changes nothing of the block. -/
theorem step_read_word {s : State} {off : Nat} {rest : List HostEvent}
    (hhost : s.host = .read off 4 :: rest) (halign : off % 4 = 0) (hwindow : off < 0x40) :
    step s = .next { s with host := rest, readData := some (readReg s off) } := by
  have hserved : portRefuses off 4 = none := portRefuses_none.mpr ⟨rfl, halign, hwindow⟩
  rw [step_host hhost, hostStep, hserved]
  rfl

/-! ### The CTRL register (R24) -/

/-- START always reads 0. -/
theorem readReg_ctrl_start (s : State) : (readReg s 0x00).getLsbD 0 = false := by
  rw [readReg, if_pos rfl, BitVec.getLsbD_append]
  rfl

/-- While not busy, a write at offset 0 is a CTRL write. -/
theorem writeReg_ctrl {s : State} (hidle : s.busy = false) (v : Word) :
    writeReg s 0x00 v = writeCtrl s v := by
  simp [writeReg, hidle]

/-- With START = 1 the start step follows, with the FMT of the same write. -/
theorem writeCtrl_start {v : Word} (hstart : v.getLsbD 0 = true) (s : State) :
    writeCtrl s v = start { s with fmt := v.extractLsb' 1 2 } := by
  rw [writeCtrl, if_pos hstart]

/-- With START = 0 only FMT is stored. -/
theorem writeCtrl_no_start {v : Word} (hstart : v.getLsbD 0 = false) (s : State) :
    writeCtrl s v = { s with fmt := v.extractLsb' 1 2 } := by
  rw [writeCtrl, hstart, if_neg Bool.false_ne_true]

/-- While not busy, the step of a CTRL write is that write. -/
theorem step_ctrl_write {s : State} {v : Word} {rest : List HostEvent}
    (hidle : s.busy = false) (hhost : s.host = .write 0x00 4 v :: rest) :
    step s = .next (writeCtrl (s.setHost rest) v) := by
  rw [step_write_word hhost (by decide) (by decide), writeReg_ctrl (by simpa using hidle)]

/-! ### The statements -/

/-- Settles O43, by the two values of the written START bit. -/
theorem ctrlWriteStoresFmtAndStarts : Obligations.CtrlWriteStoresFmtAndStarts := by
  intro s v rest hidle hhost
  refine ⟨_, step_ctrl_write hidle hhost, ?_⟩
  cases hstart : v.getLsbD 0 with
  | true =>
    rw [writeCtrl_start hstart]
    exact ⟨rfl, readReg_ctrl_start _, by simp⟩
  | false =>
    rw [writeCtrl_no_start hstart]
    exact ⟨rfl, readReg_ctrl_start _, rfl, rfl, rfl, rfl, rfl, rfl, nofun,
      fun _ => ⟨rfl, rfl, rfl, ⟨rfl, rfl, rfl⟩, ⟨rfl, rfl⟩, ⟨rfl, rfl⟩⟩⟩

/-- Settles O44: the port serves the access, and a busy block ignores a write. -/
theorem busyWritesIgnored : Obligations.BusyWritesIgnored := by
  intro s off rest hbusy halign hwindow
  constructor
  · intro v hhost
    rw [step_write_word hhost halign hwindow, writeReg_busy (by simpa using hbusy)]
    rfl
  · exact fun hhost => step_read_word hhost halign hwindow

end Sys2Proof.Machine

/-! Control bits out of a fresh control byte, in the order of each format, and what a PRS long
form's payload bytes select (spec/30_encoding.md R92, R98, R112; spec/40_control_reader.md R142 to
R144). -/

namespace Sys2Proof.Machine

/-! ### The control readers (R142 to R144) -/

/-- The cursor after the fetch of the control byte `b`, none of its bits taken (R142). -/
def fetched (c : Cursor) (b : Byte) : Cursor :=
  { c with inPos := c.inPos + 1, ctlByte := b, ctlBits := 8 }

/-- With no bit left, a refill fetches the byte at the main pointer. -/
theorem refill_fetched {inp : Input} {c : Cursor} {b : Byte} (hempty : c.ctlBits = 0)
    (hbyte : inp c.inPos = some b) : refill inp c = .ok () (fetched c b) := by
  rw [refill, if_pos hempty, hbyte]
  rfl

/-- With bits left, a refill does nothing (R144). -/
theorem refill_left {c : Cursor} (hleft : c.ctlBits ≠ 0) (inp : Input) :
    refill inp c = .ok () c := by
  rw [refill, if_neg hleft]

/-- A control reader that takes bit `bit b 0` of a control byte `b` and leaves `shift b 1`: bit `n`
in its order is `bit b n`, and `shift b n` is what is left after `n` of them. -/
structure TakesBits (rd : Input → Cursor → Got Bool) (bit : Byte → Nat → Bool)
    (shift : Byte → Nat → Byte) : Prop where
  reads : ∀ inp c, rd inp c = (refill inp c).bind fun _ c =>
    .ok (bit c.ctlByte 0) { c with ctlByte := shift c.ctlByte 1, ctlBits := c.ctlBits - 1 }
  bit_shift : ∀ b n, bit (shift b 1) n = bit b (n + 1)
  shift_zero : ∀ b, shift b 0 = b
  shift_succ : ∀ b n, shift (shift b 1) n = shift b (n + 1)

/-- `ReadBitPRS` takes a control byte from bit 0 upwards (R142). -/
theorem readBitPRS_takesBits : TakesBits readBitPRS BitVec.getLsbD (· >>> ·) where
  reads _ _ := rfl
  bit_shift b n := by rw [BitVec.getLsbD_ushiftRight, Nat.add_comm]
  shift_zero := BitVec.ushiftRight_zero
  shift_succ b n := by rw [← BitVec.shiftRight_add, Nat.add_comm]

/-- `ReadBitY` takes a control byte from bit 7 downwards (R143). -/
theorem readBitY_takesBits : TakesBits readBitY BitVec.getMsbD (· <<< ·) where
  reads _ _ := rfl
  bit_shift b n := BitVec.getMsbD_shiftLeft ..
  shift_zero := BitVec.shiftLeft_zero
  shift_succ b n := by rw [← BitVec.shiftLeft_add, Nat.add_comm]

namespace TakesBits

variable {rd : Input → Cursor → Got Bool} {bit : Byte → Nat → Bool} {shift : Byte → Nat → Byte}

/-- As many bits as are left come out in the reader's order, with no fetch. -/
theorem readBits_left (h : TakesBits rd bit shift) (inp : Input) :
    ∀ (n : Nat) (c : Cursor), n ≤ c.ctlBits →
      readBits rd inp n c = .ok ((List.range n).map (bit c.ctlByte))
        { c with ctlByte := shift c.ctlByte n, ctlBits := c.ctlBits - n } := by
  intro n
  induction n with
  | zero =>
    intro c _
    simp [readBits, h.shift_zero]
  | succ n ih =>
    intro c hn
    have hleft : c.ctlBits ≠ 0 := by omega
    have hrest : n ≤ c.ctlBits - 1 := by omega
    rw [readBits, h.reads, refill_left hleft, Got.bind_ok, Got.bind_ok, ih _ hrest, Got.bind_ok]
    simp [List.range_succ_eq_map, h.bit_shift, h.shift_succ, Nat.sub_sub, Nat.add_comm]

/-- With no bit left, reading goes on as it does right after the fetch. -/
theorem readBits_fetch (h : TakesBits rd bit shift) {inp : Input} {c : Cursor} {b : Byte} {k : Nat}
    (hempty : c.ctlBits = 0) (hbyte : inp c.inPos = some b) (hk : 1 ≤ k) :
    readBits rd inp k c = readBits rd inp k (fetched c b) := by
  obtain ⟨n, rfl⟩ := Nat.exists_eq_add_of_le' hk
  have hfull : (fetched c b).ctlBits ≠ 0 := by simp [fetched]
  rw [readBits, readBits, h.reads, h.reads, refill_fetched hempty hbyte, refill_left hfull]

/-- One to eight bits of a fresh control byte come out in the reader's order, with one fetch. -/
theorem readBits_fresh (h : TakesBits rd bit shift) {inp : Input} {c : Cursor} {b : Byte} {k : Nat}
    (hempty : c.ctlBits = 0) (hbyte : inp c.inPos = some b) (hk : 1 ≤ k) (hk8 : k ≤ 8) :
    readBits rd inp k c = .ok ((List.range k).map (bit b))
      { c with inPos := c.inPos + 1, ctlByte := shift b k, ctlBits := 8 - k } := by
  rw [h.readBits_fetch hempty hbyte hk, h.readBits_left inp k (fetched c b) hk8]
  rfl

end TakesBits

/-! ### The payload bytes of a PRS long form (R98, R99) -/

/-- A byte that stands at the main pointer is read, and the pointer moves past it (R173). -/
theorem nextByte_main {inp : Input} {c : Cursor} {b : Byte} (hbyte : inp c.inPos = some b) :
    nextByte inp .main c = .ok b (c.advance .main) :=
  nextByte_eq_ok.mpr ⟨hbyte, rfl⟩

/-- After the two payload bytes, the end test, then the length field, select the command. -/
theorem decodePrsLong_of_bytes {inp : Input} {c : Cursor} {b0 b1 : Byte}
    (h0 : inp c.inPos = some b0) (h1 : inp (c.inPos + 1) = some b1) :
    decodePrsLong inp c =
      let after : Cursor := { c with inPos := c.inPos + 2 }
      if offset16 b0 b1 = 0 then .ok .endMark after
      else if longLen b0 ≠ 0 then .ok (.lcopy2 (longField (offset16 b0 b1)) (longLen b0)) after
      else (nextByte inp .main after).bind fun N c' =>
        .ok (.lcopy3 (longField (offset16 b0 b1)) N) c' := by
  rw [decodePrsLong, nextByte_main h0, Got.bind_ok, nextByte_main (c := c.advance .main) h1]
  rfl

/-- The length field is zero exactly when the low three bits of `b0` are. -/
theorem longLen_eq_zero (b0 : Byte) : longLen b0 = 0 ↔ b0.toNat % 8 = 0 := by
  rw [← longLen_toNat, ← BitVec.toNat_inj]
  rfl

/-- The distance of a long form, from its payload bytes (R95). -/
theorem longDist_offset16 (b0 b1 : Byte) :
    longDist (longField (offset16 b0 b1)) = 8192 - (b1.toNat * 32 + b0.toNat / 8) := by
  rw [longDist, longField_toNat]

/-! ### The statements -/

/-- Settles O7: `ReadBitPRS` takes the fetched byte from bit 0 upwards. -/
theorem prsControlBitsLsbFirst : Obligations.PrsControlBitsLsbFirst := by
  intro inp c b k hempty hbyte hk hk8
  exact readBitPRS_takesBits.readBits_fresh hempty hbyte hk hk8

/-- Settles O8: `ReadBitY` takes the fetched byte from its most significant bit downwards, and bit
`j` from that end is bit `7 - j`. -/
theorem yazControlBitsMsbFirst : Obligations.YazControlBitsMsbFirst := by
  intro inp c b k hempty hbyte hk hk8
  have hmsb : (List.range k).map b.getMsbD = (List.range k).map fun j => b.getLsbD (7 - j) := by
    refine List.map_congr_left fun j hj => ?_
    have hj8 : j < 8 := (List.mem_range.mp hj).trans_le hk8
    simp [BitVec.getMsbD, hj8]
  rw [← hmsb]
  exact readBitY_takesBits.readBits_fresh hempty hbyte hk hk8

/-- Settles O10, by the branch of the end test and of the length field that each clause is. -/
theorem longFormSelection : Obligations.LongFormSelection := by
  intro inp c b0 b1 h0 h1
  rw [decodePrsLong_of_bytes h0 h1]
  refine ⟨fun hend => ?_, fun hlen => ?_, fun hlen hend N hN => ?_⟩
  · exact if_pos ((offset16_eq_zero b0 b1).mpr hend)
  · have hnotEnd : offset16 b0 b1 ≠ 0 := by
      intro hzero
      obtain ⟨rfl, -⟩ := (offset16_eq_zero b0 b1).mp hzero
      exact hlen rfl
    have hlll : longLen b0 ≠ 0 := mt (longLen_eq_zero b0).mp hlen
    refine ⟨longField (offset16 b0 b1), longLen b0, ?_, ?_, longDist_offset16 b0 b1⟩
    · exact (if_neg hnotEnd).trans (if_pos hlll)
    · rw [lcopy2Len, longLen_toNat]
  · have hnotEnd : offset16 b0 b1 ≠ 0 := mt (offset16_eq_zero b0 b1).mp hend
    have hlll : ¬ longLen b0 ≠ 0 := not_not.mpr ((longLen_eq_zero b0).mpr hlen)
    refine ⟨longField (offset16 b0 b1), ?_, rfl, longDist_offset16 b0 b1⟩
    refine (if_neg hnotEnd).trans ((if_neg hlll).trans ?_)
    rw [nextByte_main (c := { c with inPos := c.inPos + 2 }) hN]
    rfl

end Sys2Proof.Machine

/-! Moves between phases that touch nothing else, and the header step of a PRS operation
(spec/42_prs.md R180). -/

namespace Sys2Proof.Machine

/-- Setting the phase enters it: every other state field stays. -/
theorem enters_setPhase (s : State) (p : Phase) : Enters s (.next (s.setPhase p)) p :=
  ⟨s.setPhase p, rfl, setPhase_phase s p, setPhase_err s p, setPhase_capped s p,
    ⟨rfl, rfl, rfl, rfl, fun _ => rfl, rfl, rfl⟩, ⟨rfl, rfl, rfl⟩, ⟨rfl, rfl⟩, ⟨rfl, rfl⟩⟩

/-- With no host access pending, a step in phase HEADER is the header step (R161, R162). -/
theorem step_header {s : State} (hhost : s.host = []) (hphase : s.phase = .header) :
    step s = headerStep s := by
  rw [step_engine hhost, engineStep, hphase]

/-- A PRS stream has no header: its header step only sets the phase (R180). -/
theorem headerStep_prs {s : State} (hfmt : s.fmt = 0) : headerStep s = .next (s.setPhase .cmd) := by
  rw [headerStep, if_pos hfmt]

/-- Settles O28: the step is the header step, and with FMT = 0 that only sets the phase. -/
theorem prsHeaderReadsNothing : Obligations.PrsHeaderReadsNothing := by
  intro s hhost hphase hfmt
  rw [step_header hhost hphase, headerStep_prs hfmt]
  exact enters_setPhase s .cmd

end Sys2Proof.Machine

/-! Raising an error rolls nothing back, and the header step of the reserved format
(spec/60_exceptions.md R271, R276; spec/41_copy_engine.md R162). -/

namespace Sys2Proof.Machine

/-- `raise` records its class and enters ERROR; nothing else moves (R276). -/
theorem raises_raise (s : State) (e : ErrClass) : Raises s (.next (raise e s)) e :=
  ⟨raise e s, rfl, raise_phase s e, raise_err s e, raise_capped s e,
    ⟨rfl, rfl, rfl, rfl, fun _ => rfl, rfl, rfl⟩, ⟨rfl, rfl, rfl⟩, ⟨rfl, rfl⟩, ⟨rfl, rfl⟩⟩

@[simp] theorem raise_errCode (s : State) (e : ErrClass) : (raise e s).errCode = e.code := rfl

/-- IN_POS, the register at 0x1C, holds the main pointer (R36). -/
theorem readReg_inPos (s : State) : readReg s 0x1C = BitVec.ofNat 32 s.cur.inPos := rfl

/-- BYTES_WRITTEN, the register at 0x14, holds the emission counter (R34). -/
theorem readReg_written (s : State) : readReg s 0x14 = s.written := rfl

/-- The reserved format has no header decoder: its header step looks at no input (R271). -/
theorem headerStep_reserved {s : State} (hfmt : s.fmt = 3) :
    headerStep s = .next (raise .unsupported s) := by
  have hprs : s.fmt ≠ 0 := by simp [hfmt]
  have hyaz0 : s.fmt ≠ 1 := by simp [hfmt]
  have hyay0 : s.fmt ≠ 2 := by simp [hfmt]
  rw [headerStep, if_neg hprs, if_neg hyaz0, if_neg hyay0]

/-- Settles O27: the step only raises, so the pointer and the counter still stand where the start
step put them (`Inv.fresh`). -/
theorem reservedFormatIsUnsupported : Obligations.ReservedFormatIsUnsupported := by
  intro s hinv hhost hphase hfmt
  obtain ⟨hcur, hwritten, -⟩ := hinv.fresh hphase
  rw [step_header hhost hphase, headerStep_reserved hfmt]
  refine ⟨raises_raise s .unsupported, raise .unsupported s, rfl, raise_errCode s .unsupported,
    ?_, ?_⟩
  · rw [readReg_inPos, raise_cur, hcur, BitVec.ofNat_toNat, BitVec.setWidth_eq]
  · rw [readReg_written, raise_written, hwritten]

end Sys2Proof.Machine


/-! Reset: what the registers read after it, and the step that takes it
(spec/70_reset_and_hazards.md R300; spec/10_state.md R47). -/

namespace Sys2Proof.Machine

/-- In IDLE with nothing capped and no error, no STATUS bit is set (R25). -/
@[simp] theorem status_resetEvent (s : State) : (resetEvent s).status = 0 := by
  have hcode : (resetEvent s).errCode = 0 := rfl
  have hbusy : (resetEvent s).busy = false := rfl
  rw [State.status, hcode, hbusy, resetEvent_capped, resetEvent_phase]
  rfl

/-- After reset every offset of the window reads 0: each register shows a field that reset sets to
0, and the other offsets name no register. -/
@[simp] theorem readReg_resetEvent (s : State) (off : Nat) : readReg (resetEvent s) off = 0 := by
  have hctrl : (0 : BitVec 29) ++ (resetEvent s).fmt ++ (0 : BitVec 1) = (0 : Word) := by
    rw [resetEvent_fmt]
    decide
  have hinPos : BitVec.ofNat 32 (resetEvent s).cur.inPos = 0 := rfl
  have hcntPos : BitVec.ofNat 32 (resetEvent s).cur.cntPos = 0 := rfl
  have hdatPos : BitVec.ofNat 32 (resetEvent s).cur.datPos = 0 := rfl
  simp only [readReg, hctrl, status_resetEvent, resetEvent_inBase, resetEvent_inSize,
    resetEvent_maxBytes, resetEvent_written, resetEvent_total, hinPos, hcntPos, hdatPos, ite_self]

/-- The step of a pending reset is the reset event, in whatever phase the engine stands. -/
theorem step_reset {s : State} {rest : List HostEvent} (hhost : s.host = .reset :: rest) :
    step s = .next (resetEvent (s.setHost rest)) := by
  rw [step_host hhost, hostStep]

/-- Settles O49: the step is the reset event, which sets each field to its value of R47. -/
theorem resetEventFromAnyState : Obligations.ResetEventFromAnyState := by
  intro s rest hhost
  exact ⟨_, step_reset hhost, rfl, rfl, rfl, rfl, rfl, rfl, rfl, rfl, rfl, rfl, rfl, rfl, rfl, rfl,
    readReg_resetEvent _⟩

end Sys2Proof.Machine

/-! The code of an instruction and its decoder agree (spec/30_encoding.md): bits and bytes that
stand in the input are what the readers answer, and the fields of each form are put together and
taken apart without loss. -/

namespace Sys2Proof.Machine

/-! ### Bits and bytes that stand in the input, as reads -/

/-- The control bits come out of the reader `rd` one after the other from `c` on, up to `c'`. -/
def bitsStand (rd : Input → Cursor → Got Bool) (inp : Input) :
    List Bool → Cursor → Cursor → Prop
  | [], c, c' => c = c'
  | b :: bs, c, c' => ∃ m, rd inp c = .ok b m ∧ bitsStand rd inp bs m c'

@[simp] theorem bitsStand_nil {rd : Input → Cursor → Got Bool} {inp : Input} {c c' : Cursor} :
    bitsStand rd inp [] c c' ↔ c = c' := Iff.rfl

@[simp] theorem bitsStand_cons {rd : Input → Cursor → Got Bool} {inp : Input} {b : Bool}
    {bs : List Bool} {c c' : Cursor} :
    bitsStand rd inp (b :: bs) c c' ↔ ∃ m, rd inp c = .ok b m ∧ bitsStand rd inp bs m c' :=
  Iff.rfl

/-- `readBits` reads exactly the bits that stand. -/
theorem readBits_length_eq_ok {rd : Input → Cursor → Got Bool} {inp : Input} {bs : List Bool}
    {c c' : Cursor} : readBits rd inp bs.length c = .ok bs c' ↔ bitsStand rd inp bs c c' := by
  induction bs generalizing c with
  | nil => simp [readBits]
  | cons b bs ih =>
    simp only [List.length_cons, readBits, Got.bind_eq_ok, Got.ok.injEq, List.cons.injEq,
      bitsStand_cons]
    constructor
    · rintro ⟨_, m, hb, _, _, hbs, ⟨rfl, rfl⟩, rfl⟩
      exact ⟨m, hb, ih.mp hbs⟩
    · rintro ⟨m, hb, hbs⟩
      exact ⟨b, m, hb, bs, c', ih.mpr hbs, ⟨rfl, rfl⟩, rfl⟩

@[simp] theorem payloadStands_nil {inp : Input} {c c' : Cursor} :
    payloadStands inp [] c c' ↔ c = c' := Iff.rfl

/-- A payload byte that stands is what `NextByte` answers (R173). -/
@[simp] theorem payloadStands_cons {inp : Input} {p : Stream} {b : Byte}
    {rest : List (Stream × Byte)} {c c' : Cursor} :
    payloadStands inp ((p, b) :: rest) c c' ↔
      ∃ m, nextByte inp p c = .ok b m ∧ payloadStands inp rest m c' := by
  simp [payloadStands, nextByte_eq_ok]

theorem payloadStands_append {inp : Input} {xs ys : List (Stream × Byte)} {c c' : Cursor} :
    payloadStands inp (xs ++ ys) c c' ↔
      ∃ m, payloadStands inp xs c m ∧ payloadStands inp ys m c' := by
  induction xs generalizing c with
  | nil => simp
  | cons x xs ih => simp [payloadStands, ih, and_assoc]

/-- An instruction stands where its control bits and then its payload bytes are read. -/
theorem standsAt_iff {inp : Input} {i : Instr} {c c' : Cursor} :
    standsAt inp i c c' ↔ ∃ m, bitsStand (slotReader i.slot) inp (encode i).ctl c m ∧
      payloadStands inp (encode i).payload m c' := by
  simp only [standsAt, readBits_length_eq_ok]

/-! ### Fields put together and taken apart -/

/-- A concatenation as a number: the left part above the right one. -/
theorem append_toNat {m n : Nat} (x : BitVec m) (y : BitVec n) :
    (x ++ y).toNat = x.toNat * 2 ^ n + y.toNat := by
  rw [BitVec.toNat_append, ← Nat.shiftLeft_add_eq_or_of_lt y.isLt, Nat.shiftLeft_eq]

/-- A field as a number. -/
theorem extract_toNat {w : Nat} (start len : Nat) (x : BitVec w) :
    (x.extractLsb' start len).toNat = x.toNat / 2 ^ start % 2 ^ len := by
  rw [BitVec.extractLsb'_toNat, Nat.shiftRight_eq_div_pow]

/-- The two payload bytes of a long form give back its field (R94, R95). -/
theorem longField_encoded (f : BitVec 13) (l : BitVec 3) :
    longField (offset16 (f.extractLsb' 0 5 ++ l) (f.extractLsb' 5 8)) = f := by
  apply BitVec.eq_of_toNat_eq
  rw [longField_toNat, append_toNat, extract_toNat, extract_toNat]
  have := f.isLt
  have := l.isLt
  omega

/-- The first payload byte of a long form gives back its length field (R98). -/
theorem longLen_encoded (x : BitVec 5) (l : BitVec 3) : longLen (x ++ l) = l := by
  apply BitVec.eq_of_toNat_eq
  rw [longLen_toNat, append_toNat]
  have := l.isLt
  omega

/-- A long form's first payload byte, from its fields. -/
theorem longField_low (b0 b1 : Byte) :
    (longField (offset16 b0 b1)).extractLsb' 0 5 ++ longLen b0 = b0 := by
  apply BitVec.eq_of_toNat_eq
  rw [append_toNat, extract_toNat, longField_toNat, longLen_toNat]
  omega

/-- A long form's second payload byte, from its field. -/
theorem longField_high (b0 b1 : Byte) :
    (longField (offset16 b0 b1)).extractLsb' 5 8 = b1 := by
  apply BitVec.eq_of_toNat_eq
  rw [extract_toNat, longField_toNat]
  have := b0.isLt
  have := b1.isLt
  omega

/-- Where `lll` is zero, the field is zero exactly for the end mark's bytes (R99). -/
theorem longField_eq_zero {b0 b1 : Byte} (hlen : longLen b0 = 0) :
    longField (offset16 b0 b1) = 0 ↔ offset16 b0 b1 = 0 := by
  constructor
  · intro hf
    have h0 := longField_low b0 b1
    have h1 := longField_high b0 b1
    rw [hf, hlen] at h0
    rw [hf] at h1
    rw [offset16_eq_zero, ← h0, ← h1]
    decide
  · intro ho
    rw [ho]
    decide

/-- The two bytes of a copy code are the concatenation of its nibble and its distance field
(R113). -/
theorem copyCode_encoded (n : BitVec 4) (D : BitVec 12) :
    copyCode (n ++ D.extractLsb' 8 4) (D.extractLsb' 0 8) = n ++ D := by
  apply BitVec.eq_of_toNat_eq
  rw [copyCode, append_toNat, append_toNat, append_toNat, extract_toNat, extract_toNat]
  have := D.isLt
  omega

theorem codeNibble_append (n : BitVec 4) (D : BitVec 12) : codeNibble (n ++ D) = n := by
  apply BitVec.eq_of_toNat_eq
  rw [codeNibble, extract_toNat, append_toNat]
  have := n.isLt
  have := D.isLt
  omega

theorem codeDist_append (n : BitVec 4) (D : BitVec 12) : codeDist (n ++ D) = D := by
  apply BitVec.eq_of_toNat_eq
  rw [codeDist, extract_toNat, append_toNat]
  have := D.isLt
  omega

/-- A copy code's first byte, from its fields. -/
theorem copyCode_high (c0 c1 : Byte) :
    codeNibble (copyCode c0 c1) ++ (codeDist (copyCode c0 c1)).extractLsb' 8 4 = c0 := by
  apply BitVec.eq_of_toNat_eq
  rw [append_toNat, extract_toNat, codeNibble_toNat, codeDist_toNat]
  have := c0.isLt
  have := c1.isLt
  omega

/-- A copy code's second byte, from its distance field. -/
theorem copyCode_low (c0 c1 : Byte) :
    (codeDist (copyCode c0 c1)).extractLsb' 0 8 = c1 := by
  apply BitVec.eq_of_toNat_eq
  rw [extract_toNat, codeDist_toNat]
  have := c1.isLt
  omega

/-- Four bytes and the big-endian word they make (R71). -/
theorem u32Bytes_append (b0 b1 b2 b3 : Byte) :
    u32Bytes (b0 ++ b1 ++ b2 ++ b3) = [(.main, b0), (.main, b1), (.main, b2), (.main, b3)] := by
  have h0 := b0.isLt
  have h1 := b1.isLt
  have h2 := b2.isLt
  have h3 := b3.isLt
  have hw : (b0 ++ b1 ++ b2 ++ b3).toNat
      = ((b0.toNat * 2 ^ 8 + b1.toNat) * 2 ^ 8 + b2.toNat) * 2 ^ 8 + b3.toNat := by
    simp only [append_toNat]
  simp only [u32Bytes, List.cons.injEq, Prod.mk.injEq, true_and, and_true]
  refine ⟨?_, ?_, ?_, ?_⟩ <;>
  · apply BitVec.eq_of_toNat_eq
    rw [extract_toNat, hw]
    omega

theorem append_u32Bytes (w : Word) :
    w.extractLsb' 24 8 ++ w.extractLsb' 16 8 ++ w.extractLsb' 8 8 ++ w.extractLsb' 0 8 = w := by
  apply BitVec.eq_of_toNat_eq
  simp only [append_toNat, extract_toNat]
  have := w.isLt
  omega

/-- The two words of a header's padding. -/
theorem append_padding (x : BitVec 64) : x.extractLsb' 32 32 ++ x.extractLsb' 0 32 = x := by
  apply BitVec.eq_of_toNat_eq
  simp only [append_toNat, extract_toNat]
  have := x.isLt
  omega

theorem padding_high (p q : Word) : (p ++ q).extractLsb' 32 32 = p := by
  apply BitVec.eq_of_toNat_eq
  rw [extract_toNat, append_toNat]
  have := p.isLt
  have := q.isLt
  omega

theorem padding_low (p q : Word) : (p ++ q).extractLsb' 0 32 = q := by
  apply BitVec.eq_of_toNat_eq
  rw [extract_toNat, append_toNat]
  have := q.isLt
  omega

/-! ### Codes, from the bytes that were read -/

theorem encode_lcopy2_of_bytes (b0 b1 : Byte) :
    encode (.lcopy2 (longField (offset16 b0 b1)) (longLen b0))
      = ⟨[false, true], [(.main, b0), (.main, b1)]⟩ := by
  rw [encode, longField_low, longField_high]

theorem encode_lcopy3_of_bytes {b0 : Byte} (hlen : longLen b0 = 0) (b1 N : Byte) :
    encode (.lcopy3 (longField (offset16 b0 b1)) N)
      = ⟨[false, true], [(.main, b0), (.main, b1), (.main, N)]⟩ := by
  rw [encode, ← hlen, longField_low, longField_high]

theorem encode_yaz0Copy2_of_bytes (c0 c1 : Byte) :
    encode (.yaz0Copy2 (codeNibble (copyCode c0 c1)) (codeDist (copyCode c0 c1)))
      = ⟨[false], [(.main, c0), (.main, c1)]⟩ := by
  rw [encode, copyCode_high, copyCode_low]

theorem encode_yaz0Copy3_of_bytes {c0 c1 : Byte} (hn : codeNibble (copyCode c0 c1) = 0)
    (E : Byte) : encode (.yaz0Copy3 (codeDist (copyCode c0 c1)) E)
      = ⟨[false], [(.main, c0), (.main, c1), (.main, E)]⟩ := by
  rw [encode, ← hn, copyCode_high, copyCode_low]

theorem encode_yay0Copy2_of_bytes (c0 c1 : Byte) :
    encode (.yay0Copy2 (codeNibble (copyCode c0 c1)) (codeDist (copyCode c0 c1)))
      = ⟨[false], [(.count, c0), (.count, c1)]⟩ := by
  rw [encode, copyCode_high, copyCode_low]

theorem encode_yay0Copy3_of_bytes {c0 c1 : Byte} (hn : codeNibble (copyCode c0 c1) = 0)
    (E : Byte) : encode (.yay0Copy3 (codeDist (copyCode c0 c1)) E)
      = ⟨[false], [(.count, c0), (.count, c1), (.data, E)]⟩ := by
  rw [encode, ← hn, copyCode_high, copyCode_low]

/-! ### The decoders read what stands -/

/-- `ReadU32BE` reads exactly the four bytes of a word (R71). -/
theorem readU32BE_eq_ok {inp : Input} {c c' : Cursor} {w : Word} :
    readU32BE inp c = .ok w c' ↔ payloadStands inp (u32Bytes w) c c' := by
  constructor
  · intro h
    simp only [readU32BE, Got.bind_eq_ok, Got.ok.injEq] at h
    obtain ⟨b0, c1, h0, b1, c2, h1, b2, c3, h2, b3, c4, h3, rfl, rfl⟩ := h
    rw [u32Bytes_append]
    simp [h0, h1, h2, h3]
  · intro h
    simp only [u32Bytes, payloadStands_cons, payloadStands_nil] at h
    obtain ⟨c1, h0, c2, h1, c3, h2, c4, h3, rfl⟩ := h
    simp only [readU32BE, h0, h1, h2, h3, Got.bind_ok, append_u32Bytes]

/-- `i` is a well-formed instruction of the slot and its code stands between the two cursors. -/
def ReadsAs (slot : Slot) (inp : Input) (i : Instr) (c c' : Cursor) : Prop :=
  i.slot = slot ∧ i.wf = true ∧ standsAt inp i c c'

/-- The PRS long form: END, LCOPY2 or LCOPY3, by its first two bytes (R98, R99). -/
theorem decodePrsLong_eq_ok {inp : Input} {c c1 c2 c' : Cursor} {i : Instr}
    (hfirst : readBitPRS inp c = .ok false c1) (hsecond : readBitPRS inp c1 = .ok true c2)
    (h : decodePrsLong inp c2 = .ok i c') : ReadsAs .prsCommand inp i c c' := by
  simp only [decodePrsLong, Got.bind_eq_ok] at h
  obtain ⟨b0, c3, hb0, b1, c4, hb1, h⟩ := h
  split at h
  · next hend =>
    obtain ⟨rfl, rfl⟩ := (offset16_eq_zero b0 b1).mp hend
    cases h
    refine ⟨rfl, rfl, standsAt_iff.mpr ?_⟩
    simp [encode, Instr.slot, slotReader, hfirst, hsecond, hb0, hb1]
  · next hend =>
    split at h
    · next hlen =>
      cases h
      refine ⟨rfl, bne_iff_ne.mpr hlen, standsAt_iff.mpr ?_⟩
      rw [encode_lcopy2_of_bytes]
      simp [Instr.slot, slotReader, hfirst, hsecond, hb0, hb1]
    · next hlen =>
      rw [not_not] at hlen
      simp only [Got.bind_eq_ok, Got.ok.injEq] at h
      obtain ⟨N, c5, hN, rfl, rfl⟩ := h
      refine ⟨rfl, bne_iff_ne.mpr (mt (longField_eq_zero hlen).mp hend), standsAt_iff.mpr ?_⟩
      rw [encode_lcopy3_of_bytes hlen]
      simp [Instr.slot, slotReader, hfirst, hsecond, hb0, hb1, hN]

/-- What the PRS decoder reads is a PRS command that stands there (R181 to R188). -/
theorem decodePrs_eq_ok {inp : Input} {c c' : Cursor} {i : Instr}
    (h : decodePrs inp c = .ok i c') : ReadsAs .prsCommand inp i c c' := by
  simp only [decodePrs, Got.bind_eq_ok] at h
  obtain ⟨first, c1, hfirst, h⟩ := h
  cases first with
  | true =>
    simp only [if_true, Got.bind_eq_ok, Got.ok.injEq] at h
    obtain ⟨L, c2, hL, rfl, rfl⟩ := h
    refine ⟨rfl, rfl, standsAt_iff.mpr ?_⟩
    simp [encode, Instr.slot, slotReader, hfirst, hL]
  | false =>
    simp only [Bool.false_eq_true, if_false, Got.bind_eq_ok] at h
    obtain ⟨second, c2, hsecond, h⟩ := h
    cases second with
    | true => exact decodePrsLong_eq_ok hfirst hsecond (by simpa using h)
    | false =>
      simp only [Bool.false_eq_true, if_false, decodePrsShort, Got.bind_eq_ok, Got.ok.injEq] at h
      obtain ⟨s1, c3, hs1, s0, c4, hs0, O, c5, hO, rfl, rfl⟩ := h
      refine ⟨rfl, rfl, standsAt_iff.mpr ?_⟩
      simp [encode, Instr.slot, slotReader, hfirst, hsecond, hs1, hs0, hO]

/-- What the Yaz0 decoder reads is a Yaz0 command that stands there (R211 to R214). -/
theorem decodeYaz0_eq_ok {inp : Input} {c c' : Cursor} {i : Instr}
    (h : decodeYaz0 inp c = .ok i c') : ReadsAs .yaz0Command inp i c c' := by
  simp only [decodeYaz0, Got.bind_eq_ok] at h
  obtain ⟨bit, m, hbit, h⟩ := h
  cases bit with
  | true =>
    simp only [if_true, Got.bind_eq_ok, Got.ok.injEq] at h
    obtain ⟨L, _, hL, rfl, rfl⟩ := h
    refine ⟨rfl, rfl, standsAt_iff.mpr ?_⟩
    simp [encode, Instr.slot, slotReader, hbit, hL]
  | false =>
    simp only [Bool.false_eq_true, if_false, Got.bind_eq_ok] at h
    obtain ⟨c0, _, h0, c1, _, h1, h⟩ := h
    split at h
    · next hn =>
      cases h
      refine ⟨rfl, bne_iff_ne.mpr hn, standsAt_iff.mpr ?_⟩
      rw [encode_yaz0Copy2_of_bytes]
      simp [Instr.slot, slotReader, hbit, h0, h1]
    · next hn =>
      simp only [Got.bind_eq_ok, Got.ok.injEq] at h
      obtain ⟨E, _, hE, rfl, rfl⟩ := h
      refine ⟨rfl, rfl, standsAt_iff.mpr ?_⟩
      rw [encode_yaz0Copy3_of_bytes (not_not.mp hn)]
      simp [Instr.slot, slotReader, hbit, h0, h1, hE]

/-- What the Yay0 decoder reads is a Yay0 command that stands there (R241 to R244). -/
theorem decodeYay0_eq_ok {inp : Input} {c c' : Cursor} {i : Instr}
    (h : decodeYay0 inp c = .ok i c') : ReadsAs .yay0Command inp i c c' := by
  simp only [decodeYay0, Got.bind_eq_ok] at h
  obtain ⟨bit, m, hbit, h⟩ := h
  cases bit with
  | true =>
    simp only [if_true, Got.bind_eq_ok, Got.ok.injEq] at h
    obtain ⟨L, _, hL, rfl, rfl⟩ := h
    refine ⟨rfl, rfl, standsAt_iff.mpr ?_⟩
    simp [encode, Instr.slot, slotReader, hbit, hL]
  | false =>
    simp only [Bool.false_eq_true, if_false, Got.bind_eq_ok] at h
    obtain ⟨c0, _, h0, c1, _, h1, h⟩ := h
    split at h
    · next hn =>
      cases h
      refine ⟨rfl, bne_iff_ne.mpr hn, standsAt_iff.mpr ?_⟩
      rw [encode_yay0Copy2_of_bytes]
      simp [Instr.slot, slotReader, hbit, h0, h1]
    · next hn =>
      simp only [Got.bind_eq_ok, Got.ok.injEq] at h
      obtain ⟨E, _, hE, rfl, rfl⟩ := h
      refine ⟨rfl, rfl, standsAt_iff.mpr ?_⟩
      rw [encode_yay0Copy3_of_bytes (not_not.mp hn)]
      simp [Instr.slot, slotReader, hbit, h0, h1, hE]

/-- A payload of four parts stands where its parts stand one after another. -/
theorem payloadStands_four {inp : Input} {w x y z : List (Stream × Byte)} {c c' : Cursor} :
    payloadStands inp (w ++ x ++ y ++ z) c c' ↔
      ∃ c1 c2 c3, payloadStands inp w c c1 ∧ payloadStands inp x c1 c2 ∧
        payloadStands inp y c2 c3 ∧ payloadStands inp z c3 c' := by
  simp only [payloadStands_append]
  constructor
  · rintro ⟨c3, ⟨c2, ⟨c1, hw, hx⟩, hy⟩, hz⟩
    exact ⟨c1, c2, c3, hw, hx, hy, hz⟩
  · rintro ⟨c1, c2, c3, hw, hx, hy, hz⟩
    exact ⟨c3, ⟨c2, ⟨c1, hw, hx⟩, hy⟩, hz⟩

/-- A header has no control bits: it stands where its sixteen bytes do. -/
theorem standsAt_yaz0Header {inp : Input} {size : Word} {padding : BitVec 64} {c c' : Cursor} :
    standsAt inp (.yaz0Header size padding) c c' ↔
      ∃ c1 c2 c3, readU32BE inp c = .ok Config.yaz0Magic c1 ∧ readU32BE inp c1 = .ok size c2 ∧
        readU32BE inp c2 = .ok (padding.extractLsb' 32 32) c3 ∧
        readU32BE inp c3 = .ok (padding.extractLsb' 0 32) c' := by
  simp only [standsAt_iff, encode, bitsStand_nil, exists_eq_left', payloadStands_four,
    readU32BE_eq_ok]

theorem standsAt_yay0Header {inp : Input} {size co dof : Word} {c c' : Cursor} :
    standsAt inp (.yay0Header size co dof) c c' ↔
      ∃ c1 c2 c3, readU32BE inp c = .ok Config.yay0Magic c1 ∧ readU32BE inp c1 = .ok size c2 ∧
        readU32BE inp c2 = .ok co c3 ∧ readU32BE inp c3 = .ok dof c' := by
  simp only [standsAt_iff, encode, bitsStand_nil, exists_eq_left', payloadStands_four,
    readU32BE_eq_ok]

/-- What the Yaz0 header decoder reads is a header that stands there (R210). -/
theorem decodeYaz0Header_eq_instr {inp : Input} {c c' : Cursor} {i : Instr}
    (h : decodeYaz0Header inp c = .instr i c') : ReadsAs .yaz0Header inp i c c' := by
  unfold decodeYaz0Header at h
  split at h
  · cases h
  · next magic c1 hmagic =>
    split at h
    · cases h
    · next hm =>
      rw [ne_eq, not_not] at hm
      subst hm
      split at h
      · cases h
      · next size c2 hsize =>
        split at h
        · cases h
        · next padding c3 hpad =>
          cases h
          simp only [Got.bind_eq_ok, Got.ok.injEq] at hpad
          obtain ⟨p, c4, hp, q, c5, hq, rfl, rfl⟩ := hpad
          refine ⟨rfl, rfl, standsAt_yaz0Header.mpr ⟨c1, c2, c4, hmagic, hsize, ?_, ?_⟩⟩
          · rwa [padding_high]
          · rwa [padding_low]

/-- What the Yay0 header decoder reads is a header that stands there (R240). -/
theorem decodeYay0Header_eq_instr {inp : Input} {c c' : Cursor} {i : Instr}
    (h : decodeYay0Header inp c = .instr i c') : ReadsAs .yay0Header inp i c c' := by
  unfold decodeYay0Header at h
  split at h
  · cases h
  · next magic c1 hmagic =>
    split at h
    · cases h
    · next hm =>
      rw [ne_eq, not_not] at hm
      subst hm
      simp only [Got.decoded_eq_instr, Got.bind_eq_ok, Got.ok.injEq] at h
      obtain ⟨size, c2, hsize, co, c3, hco, dof, c4, hdof, rfl, rfl⟩ := h
      exact ⟨rfl, rfl, standsAt_yay0Header.mpr ⟨c1, c2, c3, hmagic, hsize, hco, hdof⟩⟩

/-- Settles O3, decoder by decoder: the fields of what was read are those its code has. -/
theorem decodedCommandStands : Obligations.DecodedCommandStands := by
  intro slot inp c c' i h
  cases slot with
  | prsCommand => exact decodePrs_eq_ok (Got.decoded_eq_instr.mp h)
  | yaz0Command => exact decodeYaz0_eq_ok (Got.decoded_eq_instr.mp h)
  | yay0Command => exact decodeYay0_eq_ok (Got.decoded_eq_instr.mp h)
  | yaz0Header => exact decodeYaz0Header_eq_instr h
  | yay0Header => exact decodeYay0Header_eq_instr h

/-! ### Decoding what stands -/

theorem copyCode_nibble_encoded (n : BitVec 4) (D : BitVec 12) :
    codeNibble (copyCode (n ++ D.extractLsb' 8 4) (D.extractLsb' 0 8)) = n := by
  rw [copyCode_encoded, codeNibble_append]

theorem copyCode_dist_encoded (n : BitVec 4) (D : BitVec 12) :
    codeDist (copyCode (n ++ D.extractLsb' 8 4) (D.extractLsb' 0 8)) = D := by
  rw [copyCode_encoded, codeDist_append]

/-- The bytes of a long form that is no END are not both zero (R99). -/
theorem offset16_encoded_ne_zero {f : BitVec 13} {l : BitVec 3} (h : f ≠ 0 ∨ l ≠ 0) :
    offset16 (f.extractLsb' 0 5 ++ l) (f.extractLsb' 5 8) ≠ 0 := by
  intro hzero
  have hf := longField_encoded f l
  have hl := longLen_encoded (f.extractLsb' 0 5) l
  rw [hzero] at hf
  rw [((offset16_eq_zero _ _).mp hzero).1] at hl
  rcases h with h | h
  · exact h (hf.symm.trans (by decide))
  · exact h (hl.symm.trans (by decide))

/-- Settles O2, instruction by instruction: the decoder's reads are the bits and bytes that stand,
and its branches are those of the fields they were made from. -/
theorem decodeInvertsEncode : Obligations.DecodeInvertsEncode := by
  intro i inp c c' hwf hstands
  have h := standsAt_iff.mp hstands
  cases i
  all_goals
    simp only [encode, Instr.slot, slotReader, bitsStand_cons, bitsStand_nil, payloadStands_cons,
      payloadStands_nil] at h
  case lit L =>
    obtain ⟨m, ⟨c1, hb, rfl⟩, c2, hL, rfl⟩ := h
    simp [Instr.slot, decode, decodePrs, hb, hL]
  case scopy s1 s0 O =>
    obtain ⟨m, ⟨c1, hfirst, c2, hsecond, c3, hs1, c4, hs0, rfl⟩, c5, hO, rfl⟩ := h
    simp [Instr.slot, decode, decodePrs, decodePrsShort, hfirst, hsecond, hs1, hs0, hO]
  case lcopy2 f lll =>
    obtain ⟨m, ⟨c1, hfirst, c2, hsecond, rfl⟩, c3, hb0, c4, hb1, rfl⟩ := h
    have hl : lll ≠ 0 := bne_iff_ne.mp hwf
    simp only [Instr.slot, decode, decodePrs, decodePrsLong, hfirst, hsecond, hb0, hb1,
      Got.bind_ok, longLen_encoded, longField_encoded, if_neg (offset16_encoded_ne_zero (.inr hl)),
      if_pos hl, Bool.false_eq_true, if_false, if_true, Got.decoded_ok]
  case lcopy3 f N =>
    obtain ⟨m, ⟨c1, hfirst, c2, hsecond, rfl⟩, c3, hb0, c4, hb1, c5, hN, rfl⟩ := h
    have hf : f ≠ 0 := bne_iff_ne.mp hwf
    simp only [Instr.slot, decode, decodePrs, decodePrsLong, hfirst, hsecond, hb0, hb1, hN,
      Got.bind_ok, longLen_encoded, longField_encoded, if_neg (offset16_encoded_ne_zero (.inl hf)),
      ne_eq, not_true_eq_false, Bool.false_eq_true, if_false, if_true, Got.decoded_ok]
  case endMark =>
    obtain ⟨m, ⟨c1, hfirst, c2, hsecond, rfl⟩, c3, hb0, c4, hb1, rfl⟩ := h
    have hend : offset16 0 0 = 0 := by decide
    simp only [Instr.slot, decode, decodePrs, decodePrsLong, hfirst, hsecond, hb0, hb1,
      Got.bind_ok, hend, Bool.false_eq_true, if_false, if_true, Got.decoded_ok]
  case yaz0Lit L =>
    obtain ⟨m, ⟨c1, hb, rfl⟩, c2, hL, rfl⟩ := h
    simp [Instr.slot, decode, decodeYaz0, hb, hL]
  case yaz0Copy2 n D =>
    obtain ⟨m, ⟨c1, hb, rfl⟩, c2, h0, c3, h1, rfl⟩ := h
    have hn : n ≠ 0 := bne_iff_ne.mp hwf
    simp only [Instr.slot, decode, decodeYaz0, hb, h0, h1, Got.bind_ok, copyCode_nibble_encoded,
      copyCode_dist_encoded, if_pos hn, Bool.false_eq_true, if_false, Got.decoded_ok]
  case yaz0Copy3 D E =>
    obtain ⟨m, ⟨c1, hb, rfl⟩, c2, h0, c3, h1, c4, hE, rfl⟩ := h
    simp only [Instr.slot, decode, decodeYaz0, hb, h0, h1, hE, Got.bind_ok,
      copyCode_nibble_encoded, copyCode_dist_encoded, ne_eq, not_true_eq_false,
      Bool.false_eq_true, if_false, Got.decoded_ok]
  case yay0Lit L =>
    obtain ⟨m, ⟨c1, hb, rfl⟩, c2, hL, rfl⟩ := h
    simp [Instr.slot, decode, decodeYay0, hb, hL]
  case yay0Copy2 n D =>
    obtain ⟨m, ⟨c1, hb, rfl⟩, c2, h0, c3, h1, rfl⟩ := h
    have hn : n ≠ 0 := bne_iff_ne.mp hwf
    simp only [Instr.slot, decode, decodeYay0, hb, h0, h1, Got.bind_ok, copyCode_nibble_encoded,
      copyCode_dist_encoded, if_pos hn, Bool.false_eq_true, if_false, Got.decoded_ok]
  case yay0Copy3 D E =>
    obtain ⟨m, ⟨c1, hb, rfl⟩, c2, h0, c3, h1, c4, hE, rfl⟩ := h
    simp only [Instr.slot, decode, decodeYay0, hb, h0, h1, hE, Got.bind_ok,
      copyCode_nibble_encoded, copyCode_dist_encoded, ne_eq, not_true_eq_false,
      Bool.false_eq_true, if_false, Got.decoded_ok]
  case yaz0Header size padding =>
    obtain ⟨c1, c2, c3, hm, hs, hp, hq⟩ := standsAt_yaz0Header.mp hstands
    simp only [Instr.slot, decode, decodeYaz0Header, hm, hs, hp, hq, Got.bind_ok, ne_eq,
      not_true_eq_false, if_false, append_padding]
  case yay0Header size co dof =>
    obtain ⟨c1, c2, c3, hm, hs, hco, hdof⟩ := standsAt_yay0Header.mp hstands
    simp only [Instr.slot, decode, decodeYay0Header, hm, hs, hco, hdof, Got.bind_ok, ne_eq,
      not_true_eq_false, if_false, Got.decoded_ok]

end Sys2Proof.Machine

/-! Laid out codes decode: where the bytes of an instruction follow one another in their streams,
its code stands (spec/30_encoding.md sections 2 to 6, spec/40_control_reader.md section 2). -/

namespace Sys2Proof.Machine

/-! ### The pointers of a cursor -/

theorem Cursor.ptr_advance (c : Cursor) (p q : Stream) :
    (c.advance p).ptr q = c.ptr q + if p = q then 1 else 0 := by
  cases p <;> cases q <;> rfl

/-- The bytes of a payload that come from the stream `p`, in order. -/
def streamBytes (p : Stream) (payload : List (Stream × Byte)) : List Byte :=
  (payload.filter (·.1 = p)).map Prod.snd

theorem streamBytes_cons_same (p : Stream) (b : Byte) (rest : List (Stream × Byte)) :
    streamBytes p ((p, b) :: rest) = b :: streamBytes p rest := by
  simp [streamBytes]

theorem streamBytes_cons_other {p q : Stream} (h : q ≠ p) (b : Byte)
    (rest : List (Stream × Byte)) : streamBytes p ((q, b) :: rest) = streamBytes p rest := by
  simp [streamBytes, h]

/-- A payload that comes from the main stream alone. -/
theorem streamBytes_of_main {payload : List (Stream × Byte)} (h : ∀ x ∈ payload, x.1 = .main)
    (p : Stream) : streamBytes p payload = if p = .main then payload.map Prod.snd else [] := by
  split
  · next hp =>
    subst hp
    rw [streamBytes, List.filter_eq_self.mpr (by simpa using h)]
  · next hp =>
    rw [streamBytes, List.filter_eq_nil_iff.mpr, List.map_nil]
    intro x hx
    simpa [h x hx] using Ne.symm hp

/-- A payload stands where each stream's bytes follow its pointer, and every pointer ends right
after its own stream's bytes. -/
theorem payloadStands_of_streams {inp : Input} :
    ∀ (payload : List (Stream × Byte)) (c : Cursor),
      (∀ p k b, (streamBytes p payload)[k]? = some b → inp (c.ptr p + k) = some b) →
      ∃ c', payloadStands inp payload c c' ∧
        ∀ p, c'.ptr p = c.ptr p + (streamBytes p payload).length := by
  intro payload
  induction payload with
  | nil => exact fun c _ => ⟨c, rfl, fun _ => rfl⟩
  | cons x rest ih =>
    obtain ⟨q, b⟩ := x
    intro c h
    have hbyte : inp (c.ptr q) = some b := h q 0 b (by rw [streamBytes_cons_same]; rfl)
    obtain ⟨c', hstands, hptr⟩ := ih (c.advance q) fun p k b' hk => by
      rw [Cursor.ptr_advance]
      split
      · next hqp =>
        subst hqp
        rw [Nat.add_assoc, Nat.add_comm 1 k]
        exact h q (k + 1) b' (by rwa [streamBytes_cons_same])
      · next hqp => exact h p k b' (by rwa [streamBytes_cons_other hqp])
    refine ⟨c', ⟨hbyte, hstands⟩, fun p => ?_⟩
    rw [hptr, Cursor.ptr_advance]
    split
    · next hqp =>
      subst hqp
      rw [streamBytes_cons_same, List.length_cons]
      omega
    · next hqp => rw [streamBytes_cons_other hqp, Nat.add_zero]

/-! ### A fresh control byte -/

/-- Bit `j` of a packed control byte, counted from bit 0, is the `j`-th control bit (R92). -/
theorem getLsbD_packLsb (bs : List Bool) :
    ∀ j (hj : j < bs.length), j < 8 → (packLsb bs).getLsbD j = bs[j] := by
  induction bs with
  | nil => exact fun j hj => absurd hj (Nat.not_lt_zero j)
  | cons b bs ih =>
    intro j hj h8
    cases j with
    | zero => cases b <;> simp [packLsb]
    | succ j =>
      have hlow : (if b then (1 : Byte) else 0).getLsbD (j + 1) = false := by
        cases b <;> simp [BitVec.getLsbD_one]
      rw [packLsb, BitVec.getLsbD_or, hlow, Bool.or_false, List.getElem_cons_succ,
        ← ih j (by simpa using hj) (by omega), BitVec.getLsbD_shiftLeft, decide_eq_true h8,
        Nat.add_sub_cancel]
      simp

/-- Bit `j` of a packed control byte, counted from bit 7 down, is the `j`-th control bit (R112). -/
theorem getMsbD_packMsb (bs : List Bool) :
    ∀ j (hj : j < bs.length), j < 8 → (packMsb bs).getMsbD j = bs[j] := by
  induction bs with
  | nil => exact fun j hj => absurd hj (Nat.not_lt_zero j)
  | cons b bs ih =>
    intro j hj h8
    cases j with
    | zero => cases b <;> simp [packMsb, BitVec.getMsbD]
    | succ j =>
      have hhigh : (if b then (0x80 : Byte) else 0).getMsbD (j + 1) = false := by
        cases b
        · simp
        · have h : ∀ k, k < 7 → (0x80 : Byte).getMsbD (k + 1) = false := by decide
          exact h j (by omega)
      rw [packMsb, BitVec.getMsbD_or, hhigh, Bool.or_false, List.getElem_cons_succ,
        ← ih j (by simpa using hj) (by omega)]
      simp [BitVec.getMsbD_ushiftRight, h8]

/-- The first bits of a control byte, as a list. -/
theorem map_range_eq {bs : List Bool} {f : Nat → Bool}
    (h : ∀ j (hj : j < bs.length), f j = bs[j]) : (List.range bs.length).map f = bs :=
  List.ext_getElem (by simp) fun j _ hj => by simpa using h j hj

/-- The size and the streams of every code (R90, R109, R115, R117). -/
theorem codeShape : ∀ i : Instr, Laws.CodeShape.Statement i
  | .lit L => Laws.CodeShape.lit L
  | .scopy s1 s0 O => Laws.CodeShape.scopy s1 s0 O
  | .lcopy2 f lll => Laws.CodeShape.lcopy2 f lll
  | .lcopy3 f N => Laws.CodeShape.lcopy3 f N
  | .endMark => Laws.CodeShape.endMark
  | .yaz0Lit L => Laws.CodeShape.yaz0Lit L
  | .yaz0Copy2 n D => Laws.CodeShape.yaz0Copy2 n D
  | .yaz0Copy3 D E => Laws.CodeShape.yaz0Copy3 D E
  | .yay0Lit L => Laws.CodeShape.yay0Lit L
  | .yay0Copy2 n D => Laws.CodeShape.yay0Copy2 n D
  | .yay0Copy3 D E => Laws.CodeShape.yay0Copy3 D E
  | .yaz0Header size padding => Laws.CodeShape.yaz0Header size padding
  | .yay0Header size co dof => Laws.CodeShape.yay0Header size co dof

/-- No instruction has more than four control bits (R93, R113). -/
theorem ctl_length_le (i : Instr) : (encode i).ctl.length ≤ 4 := by
  rcases (codeShape i).1 with ⟨h, -⟩ | ⟨h, -⟩
  · omega
  · simp [h]

/-- The control byte of an instruction holds its control bits first, in its reader's order (R92,
R112). -/
theorem controlBits_stand {i : Instr} {inp : Input} {c : Cursor} (hctl : (encode i).ctl ≠ [])
    (hempty : c.ctlBits = 0) (hbyte : inp c.inPos = some (controlByte i)) :
    ∃ m, bitsStand (slotReader i.slot) inp (encode i).ctl c m ∧
      ∀ p, m.ptr p = c.ptr p + if p = .main then 1 else 0 := by
  have hk : 1 ≤ (encode i).ctl.length := List.length_pos_iff.mpr hctl
  have hk4 := ctl_length_le i
  by_cases hslot : i.slot = .prsCommand
  · have hpack : controlByte i = packLsb (encode i).ctl := by rw [controlByte, hslot]
    have hread := readBitPRS_takesBits.readBits_fresh hempty hbyte hk (by omega)
    rw [hpack, map_range_eq fun j hj => getLsbD_packLsb _ j hj (by omega)] at hread
    rw [hslot]
    exact ⟨_, readBits_length_eq_ok.mp hread, fun p => by cases p <;> rfl⟩
  · have hreader : slotReader i.slot = readBitY := by cases h : i.slot <;> simp_all [slotReader]
    have hpack : controlByte i = packMsb (encode i).ctl := by
      cases h : i.slot <;> simp_all [controlByte]
    have hread := readBitY_takesBits.readBits_fresh hempty hbyte hk (by omega)
    rw [hpack, map_range_eq fun j hj => getMsbD_packMsb _ j hj (by omega)] at hread
    rw [hreader]
    exact ⟨_, readBits_length_eq_ok.mp hread, fun p => by cases p <;> rfl⟩

/-- Settles O5: control byte, count bytes and data bytes stand at their own pointers, so the whole
code does, and decoding inverts encoding. -/
theorem threeStreamBytesDecode : Obligations.ThreeStreamBytesDecode := by
  intro i inp p q r hwf hslot count data hctl hcount hdata
  have hne : (encode i).ctl ≠ [] := by cases i <;> simp_all [Instr.slot, encode]
  have hmain : streamBytes .main (encode i).payload = [] := by
    cases i <;> simp_all [Instr.slot, encode, streamBytes]
  obtain ⟨m, hbits, hm⟩ := controlBits_stand (c := ⟨p, q, r, 0, 0⟩) hne rfl hctl
  obtain ⟨c', hpayload, hptr⟩ := payloadStands_of_streams (inp := inp) (encode i).payload m
    fun t k b hk => by
      rw [hm]
      cases t with
      | main => simp [hmain] at hk
      | count => exact hcount k b hk
      | data => exact hdata k b hk
  have hstands : standsAt inp i ⟨p, q, r, 0, 0⟩ c' := standsAt_iff.mpr ⟨m, hbits, hpayload⟩
  refine ⟨c', ?_, ?_, ?_, ?_⟩
  · rw [← hslot]
    exact decodeInvertsEncode i inp _ c' hwf hstands
  · have := hptr .main
    rw [hm, hmain] at this
    exact this
  · have := hptr .count
    rw [hm] at this
    exact this
  · have := hptr .data
    rw [hm] at this
    exact this

/-! ### Codes in one stream -/

/-- Where the bytes of an instruction that is no Yay0 command follow one another from the main
pointer on, no control bit left over, it stands there. -/
theorem standsAt_of_bytes {i : Instr} {inp : Input} {c : Cursor} (hslot : i.slot ≠ .yay0Command)
    (hempty : c.ctlBits = 0)
    (h : ∀ k b, (encodeBytes i)[k]? = some b → inp (c.inPos + k) = some b) :
    ∃ c', standsAt inp i c c' ∧ c'.inPos = c.inPos + (encodeBytes i).length ∧
      c'.cntPos = c.cntPos ∧ c'.datPos = c.datPos := by
  have hstreams := streamBytes_of_main ((codeShape i).2 hslot)
  obtain ⟨n, m, hbytes, hbits, hm⟩ : ∃ (l : List Byte) (m : Cursor),
      encodeBytes i = l ++ (encode i).payload.map Prod.snd ∧
      bitsStand (slotReader i.slot) inp (encode i).ctl c m ∧
      ∀ p, m.ptr p = c.ptr p + if p = .main then l.length else 0 := by
    by_cases hctl : (encode i).ctl = []
    · refine ⟨[], c, by simp [encodeBytes, hctl], by rw [hctl]; rfl, fun p => by simp⟩
    · have hbytes : encodeBytes i = [controlByte i] ++ (encode i).payload.map Prod.snd := by
        simp [encodeBytes, hctl]
      obtain ⟨m, hbits, hm⟩ := controlBits_stand hctl hempty (h 0 _ (by rw [hbytes]; rfl))
      exact ⟨[controlByte i], m, hbytes, hbits, hm⟩
  obtain ⟨c', hpayload, hptr⟩ := payloadStands_of_streams (inp := inp) (encode i).payload m
    fun p k b hk => by
      rw [hstreams] at hk
      split at hk
      · next hp =>
        rw [hm, if_pos hp, hp, Nat.add_assoc]
        refine h (n.length + k) b ?_
        rw [hbytes, List.getElem?_append_right (by omega), Nat.add_sub_cancel_left]
        exact hk
      · cases hk
  refine ⟨c', standsAt_iff.mpr ⟨m, hbits, hpayload⟩, ?_, ?_, ?_⟩
  · have := hptr .main
    rw [hm, hstreams, if_pos rfl, if_pos rfl] at this
    rw [hbytes, List.length_append, ← Nat.add_assoc]
    exact this
  · have := hptr .count
    rw [hm, hstreams] at this
    exact this
  · have := hptr .data
    rw [hm, hstreams] at this
    exact this

/-- Settles O4: the bytes stand, so decoding inverts encoding. -/
theorem oneStreamBytesDecode : Obligations.OneStreamBytesDecode := by
  intro i base rest hwf hslot
  obtain ⟨c', hstands, hptrs⟩ := standsAt_of_bytes (i := i) (c := ⟨base, 0, 0, 0, 0⟩)
    (inp := fun a => if a < base then none else (encodeBytes i ++ rest)[a - base]?) hslot rfl
    fun k b hk => by
      obtain ⟨hlt, -⟩ := List.getElem?_eq_some_iff.mp hk
      simp only [Nat.not_lt.mpr (Nat.le_add_right base k), if_false, Nat.add_sub_cancel_left]
      rwa [List.getElem?_append_left hlt]
  exact ⟨c', decodeInvertsEncode i _ _ c' hwf hstands, hptrs⟩

/-! ### Reading never fails where bytes are -/

/-- A reading step that answered a value. -/
def Answers {α : Type} (g : Got α) : Prop := ∃ a c, g = .ok a c

theorem answers_ok {α : Type} (a : α) (c : Cursor) : Answers (Got.ok a c) := ⟨a, c, rfl⟩

theorem Answers.bind {α β : Type} {g : Got α} {f : α → Cursor → Got β} (hg : Answers g)
    (hf : ∀ a c, Answers (f a c)) : Answers (g.bind f) := by
  obtain ⟨a, c, rfl⟩ := hg
  exact hf a c

section total
variable {inp : Input} (htotal : ∀ a, (inp a).isSome = true)
include htotal

theorem answers_nextByte (p : Stream) (c : Cursor) : Answers (nextByte inp p c) := by
  obtain ⟨b, hb⟩ := Option.isSome_iff_exists.mp (htotal (c.ptr p))
  exact ⟨b, c.advance p, nextByte_eq_ok.mpr ⟨hb, rfl⟩⟩

theorem answers_refill (c : Cursor) : Answers (refill inp c) := by
  rcases refill_cases inp c with ⟨-, e⟩ | ⟨-, b, -, e⟩ | ⟨-, hnone, -⟩
  · exact ⟨_, _, e⟩
  · exact ⟨_, _, e⟩
  · exact absurd (htotal c.inPos) (by simp [hnone])

theorem answers_readBitPRS (c : Cursor) : Answers (readBitPRS inp c) :=
  (answers_refill htotal c).bind fun _ _ => answers_ok _ _

theorem answers_readBitY (c : Cursor) : Answers (readBitY inp c) :=
  (answers_refill htotal c).bind fun _ _ => answers_ok _ _

theorem answers_decodePrsShort (c : Cursor) : Answers (decodePrsShort inp c) :=
  (answers_readBitPRS htotal c).bind fun _ c => (answers_readBitPRS htotal c).bind fun _ c =>
    (answers_nextByte htotal .main c).bind fun _ _ => answers_ok _ _

theorem answers_decodePrsLong (c : Cursor) : Answers (decodePrsLong inp c) := by
  refine (answers_nextByte htotal .main c).bind fun b0 c =>
    (answers_nextByte htotal .main c).bind fun b1 c => ?_
  simp only
  split
  · exact answers_ok _ _
  · split
    · exact answers_ok _ _
    · exact (answers_nextByte htotal .main c).bind fun _ _ => answers_ok _ _

theorem answers_decodePrs (c : Cursor) : Answers (decodePrs inp c) := by
  refine (answers_readBitPRS htotal c).bind fun first c => ?_
  cases first with
  | true => exact (answers_nextByte htotal .main c).bind fun _ _ => answers_ok _ _
  | false =>
    refine (answers_readBitPRS htotal c).bind fun second c => ?_
    cases second with
    | true => exact answers_decodePrsLong htotal c
    | false => exact answers_decodePrsShort htotal c

theorem answers_decodeYaz0 (c : Cursor) : Answers (decodeYaz0 inp c) := by
  refine (answers_readBitY htotal c).bind fun bit c => ?_
  cases bit with
  | true => exact (answers_nextByte htotal .main c).bind fun _ _ => answers_ok _ _
  | false =>
    refine (answers_nextByte htotal .main c).bind fun c0 c =>
      (answers_nextByte htotal .main c).bind fun c1 c => ?_
    simp only
    split
    · exact answers_ok _ _
    · exact (answers_nextByte htotal .main c).bind fun _ _ => answers_ok _ _

theorem answers_decodeYay0 (c : Cursor) : Answers (decodeYay0 inp c) := by
  refine (answers_readBitY htotal c).bind fun bit c => ?_
  cases bit with
  | true => exact (answers_nextByte htotal .data c).bind fun _ _ => answers_ok _ _
  | false =>
    refine (answers_nextByte htotal .count c).bind fun c0 c =>
      (answers_nextByte htotal .count c).bind fun c1 c => ?_
    simp only
    split
    · exact answers_ok _ _
    · exact (answers_nextByte htotal .data c).bind fun _ _ => answers_ok _ _

end total

theorem Answers.decoded {g : Got Instr} (h : Answers g) : ∃ i c', g.decoded = .instr i c' := by
  obtain ⟨i, c', rfl⟩ := h
  exact ⟨i, c', rfl⟩

/-- Settles O6: each of the three command decoders answers at every cursor. -/
theorem noIllegalCommand : Obligations.NoIllegalCommand := by
  rintro slot inp c (rfl | rfl | rfl) htotal
  · exact (answers_decodePrs htotal c).decoded
  · exact (answers_decodeYaz0 htotal c).decoded
  · exact (answers_decodeYay0 htotal c).decoded

/-! ### The lazy fetch (R144) -/

/-- The reader of either bit order looks at the input only to fetch a control byte. -/
theorem TakesBits.fetchIsLazy {rd : Input → Cursor → Got Bool} {bit : Byte → Nat → Bool}
    {shift : Byte → Nat → Byte} (hrd : TakesBits rd bit shift) :
    (∀ (inp inp' : Input) (c : Cursor) (n : Nat), n ≤ c.ctlBits →
      readBits rd inp n c = readBits rd inp' n c ∧
      ∃ bits c', readBits rd inp n c = .ok bits c' ∧ c'.inPos = c.inPos ∧
        c'.cntPos = c.cntPos ∧ c'.datPos = c.datPos ∧ c'.ctlBits = c.ctlBits - n) ∧
    (∀ (inp : Input) (c : Cursor), c.ctlBits = 0 → inp c.inPos = none → rd inp c = .short c) := by
  constructor
  · intro inp inp' c n hn
    rw [hrd.readBits_left inp n c hn, hrd.readBits_left inp' n c hn]
    exact ⟨rfl, _, _, rfl, rfl, rfl, rfl, rfl⟩
  · intro inp c hempty hnone
    rw [hrd.reads, refill, if_pos hempty, hnone]
    rfl

/-- Settles O9, for each of the two readers. -/
theorem controlFetchIsLazy : Obligations.ControlFetchIsLazy := by
  rintro rd (rfl | rfl)
  · exact readBitPRS_takesBits.fetchIsLazy
  · exact readBitY_takesBits.fetchIsLazy

/-! ### Yaz0 and Yay0 commands after their control bit -/

/-- Settles O11: after the control bit each byte is read in its own stream, and the nibble of the
copy code chooses the form. -/
theorem copyCodeSelection : Obligations.CopyCodeSelection := by
  intro inp c m bit hbit
  refine ⟨?_, ?_, ?_, ?_⟩
  · rintro rfl L hL
    have hread : nextByte inp .main m = .ok L (m.advance .main) := nextByte_eq_ok.mpr ⟨hL, rfl⟩
    simp [decode, decodeYaz0, hbit, hread]
  · rintro rfl L hL
    have hread : nextByte inp .data m = .ok L (m.advance .data) := nextByte_eq_ok.mpr ⟨hL, rfl⟩
    simp [decode, decodeYay0, hbit, hread]
  · rintro rfl c0 c1 h0 h1
    have hread0 : nextByte inp .main m = .ok c0 (m.advance .main) := nextByte_eq_ok.mpr ⟨h0, rfl⟩
    have hread1 : nextByte inp .main (m.advance .main) = .ok c1 { m with inPos := m.inPos + 2 } :=
      nextByte_eq_ok.mpr ⟨h1, rfl⟩
    refine ⟨codeNibble (copyCode c0 c1), codeDist (copyCode c0 c1), codeNibble_toNat c0 c1,
      codeDist_toNat c0 c1, fun hn => ?_, fun hn E hE => ?_⟩
    · simp only [decode, decodeYaz0, hbit, hread0, hread1, Got.bind_ok, if_pos hn,
        Bool.false_eq_true, if_false, Got.decoded_ok]
    · have hread2 : nextByte inp .main { m with inPos := m.inPos + 2 }
          = .ok E { m with inPos := m.inPos + 3 } := nextByte_eq_ok.mpr ⟨hE, rfl⟩
      simp only [decode, decodeYaz0, hbit, hread0, hread1, hread2, Got.bind_ok, hn, ne_eq,
        not_true_eq_false, Bool.false_eq_true, if_false, Got.decoded_ok]
  · rintro rfl c0 c1 h0 h1
    have hread0 : nextByte inp .count m = .ok c0 (m.advance .count) :=
      nextByte_eq_ok.mpr ⟨h0, rfl⟩
    have hread1 : nextByte inp .count (m.advance .count)
        = .ok c1 { m with cntPos := m.cntPos + 2 } := nextByte_eq_ok.mpr ⟨h1, rfl⟩
    refine ⟨codeNibble (copyCode c0 c1), codeDist (copyCode c0 c1), codeNibble_toNat c0 c1,
      codeDist_toNat c0 c1, fun hn => ?_, fun hn E hE => ?_⟩
    · simp only [decode, decodeYay0, hbit, hread0, hread1, Got.bind_ok, if_pos hn,
        Bool.false_eq_true, if_false, Got.decoded_ok]
    · have hread2 : nextByte inp .data { m with cntPos := m.cntPos + 2 }
          = .ok E { m with cntPos := m.cntPos + 2, datPos := m.datPos + 1 } :=
        nextByte_eq_ok.mpr ⟨hE, rfl⟩
      simp only [decode, decodeYay0, hbit, hread0, hread1, hread2, Got.bind_ok, hn, ne_eq,
        not_true_eq_false, Bool.false_eq_true, if_false, Got.decoded_ok]

/-! ### Ranges of distance and length (R100, R114) -/

theorem toNat_pos_of_ne_zero {n : Nat} {x : BitVec n} (h : x ≠ 0) : 1 ≤ x.toNat :=
  Nat.one_le_iff_ne_zero.mpr fun h0 => h (BitVec.eq_of_toNat_eq h0)

theorem scopyDist_range (O : Byte) : 1 ≤ scopyDist O ∧ scopyDist O ≤ 256 := by
  have := O.isLt
  unfold scopyDist
  omega

theorem scopyLen_range (s1 s0 : Bool) : 2 ≤ scopyLen s1 s0 ∧ scopyLen s1 s0 ≤ 5 := by
  cases s1 <;> cases s0 <;> decide

theorem longDist_range (f : BitVec 13) : 1 ≤ longDist f ∧ longDist f ≤ 8192 := by
  have := f.isLt
  unfold longDist
  omega

theorem lcopy2Len_range (lll : BitVec 3) : lll.toNat + 2 = lcopy2Len lll ∧ lcopy2Len lll ≤ 9 := by
  have := lll.isLt
  unfold lcopy2Len
  omega

theorem lcopy3Len_range (N : Byte) : 1 ≤ lcopy3Len N ∧ lcopy3Len N ≤ 256 := by
  have := N.isLt
  unfold lcopy3Len
  omega

theorem yDist_range (D : BitVec 12) : 1 ≤ yDist D ∧ yDist D ≤ 4096 := by
  have := D.isLt
  unfold yDist
  omega

theorem ycopy2Len_range (n : BitVec 4) : n.toNat + 2 = ycopy2Len n ∧ ycopy2Len n ≤ 17 := by
  have := n.isLt
  unfold ycopy2Len
  omega

theorem ycopy3Len_range (E : Byte) : 18 ≤ ycopy3Len E ∧ ycopy3Len E ≤ 273 := by
  have := E.isLt
  unfold ycopy3Len
  omega

/-- Settles O12: what is decoded is well formed, and a field that must not be zero makes its length
one larger than its least (R98, R113). -/
theorem commandRanges : Obligations.CommandRanges := by
  intro slot inp c c' i h
  obtain ⟨-, hwf, -⟩ := decodedCommandStands slot inp c c' i h
  cases i with
  | lit L => exact ⟨rfl, rfl⟩
  | scopy s1 s0 O =>
    exact ⟨(scopyDist_range O).1, (scopyDist_range O).2, (scopyLen_range s1 s0).1,
      (scopyLen_range s1 s0).2, rfl, rfl⟩
  | lcopy2 f lll =>
    have := toNat_pos_of_ne_zero (bne_iff_ne.mp hwf)
    have := lcopy2Len_range lll
    exact ⟨(longDist_range f).1, (longDist_range f).2, by omega, by omega, rfl, rfl⟩
  | lcopy3 f N =>
    have hf := toNat_pos_of_ne_zero (bne_iff_ne.mp hwf)
    have hd : longDist f ≤ 8191 := by
      unfold longDist
      omega
    exact ⟨(longDist_range f).1, hd, (lcopy3Len_range N).1, (lcopy3Len_range N).2, rfl, rfl⟩
  | endMark => exact ⟨rfl, rfl⟩
  | yaz0Lit L => exact ⟨rfl, rfl⟩
  | yaz0Copy2 n D =>
    have := toNat_pos_of_ne_zero (bne_iff_ne.mp hwf)
    have := ycopy2Len_range n
    exact ⟨(yDist_range D).1, (yDist_range D).2, by omega, by omega, rfl, rfl⟩
  | yaz0Copy3 D E =>
    exact ⟨(yDist_range D).1, (yDist_range D).2, (ycopy3Len_range E).1, (ycopy3Len_range E).2,
      rfl, rfl⟩
  | yay0Lit L => exact ⟨rfl, rfl⟩
  | yay0Copy2 n D =>
    have := toNat_pos_of_ne_zero (bne_iff_ne.mp hwf)
    have := ycopy2Len_range n
    exact ⟨(yDist_range D).1, (yDist_range D).2, by omega, by omega, rfl, rfl⟩
  | yay0Copy3 D E =>
    exact ⟨(yDist_range D).1, (yDist_range D).2, (ycopy3Len_range E).1, (ycopy3Len_range E).2,
      rfl, rfl⟩
  | yaz0Header size padding => exact ⟨rfl, rfl⟩
  | yay0Header size co dof => exact ⟨rfl, rfl⟩

/-- Settles O1: the eleven words, evaluated. -/
theorem specWordsDecode : Obligations.SpecWordsDecode := by
  unfold Obligations.SpecWordsDecode
  decide

end Sys2Proof.Machine

/-! What each instruction does where it completes and where it raises (spec/42_prs.md,
43_yaz0.md, 44_yay0.md; spec/41_copy_engine.md R164 to R168): its outcome by the shared operation
it ends in, and that operation's frame. -/

namespace Sys2Proof.Machine

/-! ### `AfterEmit`, field by field (R165) -/

/-- The last byte a PRS cap allows has been counted (R186). -/
abbrev State.atCap (s : State) : Prop := s.fmt = 0 ∧ s.maxBytes ≠ 0 ∧ s.written = s.maxBytes

/-- The last byte of a declared size has been counted (R216). -/
abbrev State.atSize (s : State) : Prop := s.fmt ≠ 0 ∧ s.written = s.total

theorem afterEmit_atCap {s : State} (h : s.atCap) : afterEmit s = s.capOff := by
  obtain ⟨hfmt, hcap⟩ := h
  rw [afterEmit, if_pos hfmt, if_pos hcap]

theorem afterEmit_atSize {s : State} (h : s.atSize) : afterEmit s = s.setPhase .done := by
  obtain ⟨hfmt, hsize⟩ := h
  rw [afterEmit, if_neg hfmt, if_pos hsize]

theorem afterEmit_inside {s : State} (hcap : ¬ s.atCap) (hsize : ¬ s.atSize) :
    afterEmit s = s := by
  rcases afterEmit_cases s with ⟨h1, h2, h3, -⟩ | ⟨h1, h2, -⟩ | ⟨-, -, h⟩
  · exact absurd ⟨h1, h2, h3⟩ hcap
  · exact absurd ⟨h1, h2⟩ hsize
  · exact h

theorem afterEmit_phase (s : State) :
    (afterEmit s).phase = if s.atCap ∨ s.atSize then .done else s.phase := by
  by_cases hcap : s.atCap
  · rw [afterEmit_atCap hcap, if_pos (.inl hcap), capOff_phase]
  · by_cases hsize : s.atSize
    · rw [afterEmit_atSize hsize, if_pos (.inr hsize), setPhase_phase]
    · rw [afterEmit_inside hcap hsize, if_neg (not_or.mpr ⟨hcap, hsize⟩)]

theorem afterEmit_capped (s : State) :
    (afterEmit s).capped = if s.atCap then true else s.capped := by
  by_cases hcap : s.atCap
  · rw [afterEmit_atCap hcap, if_pos hcap, capOff_capped]
  · rw [if_neg hcap]
    by_cases hsize : s.atSize
    · rw [afterEmit_atSize hsize, setPhase_capped]
    · rw [afterEmit_inside hcap hsize]

section afterEmit
variable (s : State)
@[simp] theorem afterEmit_fmt : (afterEmit s).fmt = s.fmt := by
  rcases afterEmit_cases s with ⟨-, -, -, h⟩ | ⟨-, -, h⟩ | ⟨-, -, h⟩ <;> simp [h]
@[simp] theorem afterEmit_inBase : (afterEmit s).inBase = s.inBase := by
  rcases afterEmit_cases s with ⟨-, -, -, h⟩ | ⟨-, -, h⟩ | ⟨-, -, h⟩ <;> simp [h]
@[simp] theorem afterEmit_inSize : (afterEmit s).inSize = s.inSize := by
  rcases afterEmit_cases s with ⟨-, -, -, h⟩ | ⟨-, -, h⟩ | ⟨-, -, h⟩ <;> simp [h]
@[simp] theorem afterEmit_maxBytes : (afterEmit s).maxBytes = s.maxBytes := by
  rcases afterEmit_cases s with ⟨-, -, -, h⟩ | ⟨-, -, h⟩ | ⟨-, -, h⟩ <;> simp [h]
@[simp] theorem afterEmit_err : (afterEmit s).err = s.err := by
  rcases afterEmit_cases s with ⟨-, -, -, h⟩ | ⟨-, -, h⟩ | ⟨-, -, h⟩ <;> simp [h]
@[simp] theorem afterEmit_cur : (afterEmit s).cur = s.cur := by
  rcases afterEmit_cases s with ⟨-, -, -, h⟩ | ⟨-, -, h⟩ | ⟨-, -, h⟩ <;> simp [h]
@[simp] theorem afterEmit_hist : (afterEmit s).hist = s.hist := by
  rcases afterEmit_cases s with ⟨-, -, -, h⟩ | ⟨-, -, h⟩ | ⟨-, -, h⟩ <;> simp [h]
@[simp] theorem afterEmit_written : (afterEmit s).written = s.written := by
  rcases afterEmit_cases s with ⟨-, -, -, h⟩ | ⟨-, -, h⟩ | ⟨-, -, h⟩ <;> simp [h]
@[simp] theorem afterEmit_total : (afterEmit s).total = s.total := by
  rcases afterEmit_cases s with ⟨-, -, -, h⟩ | ⟨-, -, h⟩ | ⟨-, -, h⟩ <;> simp [h]
@[simp] theorem afterEmit_copyDist : (afterEmit s).copyDist = s.copyDist := by
  rcases afterEmit_cases s with ⟨-, -, -, h⟩ | ⟨-, -, h⟩ | ⟨-, -, h⟩ <;> simp [h]
@[simp] theorem afterEmit_copyRem : (afterEmit s).copyRem = s.copyRem := by
  rcases afterEmit_cases s with ⟨-, -, -, h⟩ | ⟨-, -, h⟩ | ⟨-, -, h⟩ <;> simp [h]
@[simp] theorem afterEmit_out : (afterEmit s).out = s.out := by
  rcases afterEmit_cases s with ⟨-, -, -, h⟩ | ⟨-, -, h⟩ | ⟨-, -, h⟩ <;> simp [h]
@[simp] theorem afterEmit_mem : (afterEmit s).mem = s.mem := by
  rcases afterEmit_cases s with ⟨-, -, -, h⟩ | ⟨-, -, h⟩ | ⟨-, -, h⟩ <;> simp [h]
@[simp] theorem afterEmit_host : (afterEmit s).host = s.host := by
  rcases afterEmit_cases s with ⟨-, -, -, h⟩ | ⟨-, -, h⟩ | ⟨-, -, h⟩ <;> simp [h]
@[simp] theorem afterEmit_readData : (afterEmit s).readData = s.readData := by
  rcases afterEmit_cases s with ⟨-, -, -, h⟩ | ⟨-, -, h⟩ | ⟨-, -, h⟩ <;> simp [h]
end afterEmit

/-! ### One emitted byte, by a literal or by a copy step -/

/-- The state after one byte has been emitted, `e.copy_rem` and the phase set, before
`AfterEmit`. A literal leaves those two as they are (R166); a copy step counts off (R169). -/
def emitted (b : Byte) (rem : Nat) (p : Phase) (s : State) : State :=
  ((s.pushByte b).setRem rem).setPhase p

theorem pushByte_eq_emitted (b : Byte) (s : State) :
    s.pushByte b = emitted b s.copyRem s.phase s := rfl

theorem copied_eq_emitted (b : Byte) (s : State) :
    copied b s = emitted b (s.copyRem - 1) (if s.copyRem - 1 = 0 then .cmd else s.phase) s := by
  unfold copied
  split <;> rfl

section emitted
variable (b : Byte) (n : Nat) (p : Phase) (s : State)
@[simp] theorem emitted_fmt : (emitted b n p s).fmt = s.fmt := rfl
@[simp] theorem emitted_inBase : (emitted b n p s).inBase = s.inBase := rfl
@[simp] theorem emitted_inSize : (emitted b n p s).inSize = s.inSize := rfl
@[simp] theorem emitted_maxBytes : (emitted b n p s).maxBytes = s.maxBytes := rfl
@[simp] theorem emitted_phase : (emitted b n p s).phase = p := rfl
@[simp] theorem emitted_capped : (emitted b n p s).capped = s.capped := rfl
@[simp] theorem emitted_err : (emitted b n p s).err = s.err := rfl
@[simp] theorem emitted_cur : (emitted b n p s).cur = s.cur := rfl
@[simp] theorem emitted_hist :
    (emitted b n p s).hist = s.hist.append Config.histParams b := rfl
@[simp] theorem emitted_written : (emitted b n p s).written = s.written + 1 := rfl
@[simp] theorem emitted_total : (emitted b n p s).total = s.total := rfl
@[simp] theorem emitted_copyDist : (emitted b n p s).copyDist = s.copyDist := rfl
@[simp] theorem emitted_copyRem : (emitted b n p s).copyRem = n := rfl
@[simp] theorem emitted_out : (emitted b n p s).out = s.out ++ [b] := rfl
@[simp] theorem emitted_mem : (emitted b n p s).mem = s.mem := rfl
@[simp] theorem emitted_host : (emitted b n p s).host = s.host := rfl
@[simp] theorem emitted_readData : (emitted b n p s).readData = s.readData := rfl
end emitted

/-- An emitted byte and `AfterEmit`: what is appended, where the operation ends, and the frame. -/
theorem emits_emitted {s : State} (hin : s.hist.size ≤ s.hist.bytes.length) (b : Byte) (n : Nat)
    (p : Phase) :
    Emits s (.next (afterEmit (emitted b n p s))) b
      (if (s.fmt = 0 ∧ s.maxBytes ≠ 0 ∧ s.written + 1 = s.maxBytes) ∨
        (s.fmt ≠ 0 ∧ s.written + 1 = s.total) then .done else p)
      (if s.fmt = 0 ∧ s.maxBytes ≠ 0 ∧ s.written + 1 = s.maxBytes then true else s.capped) n := by
  refine ⟨_, rfl, by simp, by simp, ?_, ?_, afterEmit_phase _, afterEmit_capped _, by simp,
    by simp, by simp, ⟨by simp, by simp, by simp, by simp, by simp, by simp, by simp⟩,
    ⟨by simp, by simp⟩⟩
  · rw [afterEmit_hist, emitted_hist]
    exact History.append_read_one hin (by decide) b
  · intro d h1 hd
    rw [afterEmit_hist, emitted_hist]
    refine History.append_read_succ hin b h1 ?_
    rw [prsLongMaxDist_eq] at hd
    rw [histParams_capacity, histParams_compact]
    omega

/-! ### Each instruction by the operation it ends in -/

theorem exec_lit (L : Byte) (s : State) : exec (.lit L) s = (execLiteral L s).outcome := rfl
theorem exec_scopy (s1 s0 : Bool) (O : Byte) (s : State) :
    exec (.scopy s1 s0 O) s = (prsCopy (scopyDist O) (scopyLen s1 s0) s).outcome := rfl
theorem exec_lcopy2 (f : BitVec 13) (lll : BitVec 3) (s : State) :
    exec (.lcopy2 f lll) s = (prsCopy (longDist f) (lcopy2Len lll) s).outcome := rfl
theorem exec_lcopy3 (f : BitVec 13) (N : Byte) (s : State) :
    exec (.lcopy3 f N) s = (prsCopy (longDist f) (lcopy3Len N) s).outcome := rfl
theorem exec_endMark (s : State) : exec .endMark s = .next (s.setPhase .done) := rfl
theorem exec_yaz0Lit (L : Byte) (s : State) :
    exec (.yaz0Lit L) s = (yLitFinish L s).outcome := rfl
theorem exec_yay0Lit (L : Byte) (s : State) :
    exec (.yay0Lit L) s = (yLitFinish L s).outcome := rfl
theorem exec_yaz0Copy2 (n : BitVec 4) (D : BitVec 12) (s : State) :
    exec (.yaz0Copy2 n D) s = (yCopyFinish (yDist D) (ycopy2Len n) s).outcome := rfl
theorem exec_yay0Copy2 (n : BitVec 4) (D : BitVec 12) (s : State) :
    exec (.yay0Copy2 n D) s = (yCopyFinish (yDist D) (ycopy2Len n) s).outcome := rfl
theorem exec_yaz0Copy3 (D : BitVec 12) (E : Byte) (s : State) :
    exec (.yaz0Copy3 D E) s = (yCopyFinish (yDist D) (ycopy3Len E) s).outcome := rfl
theorem exec_yay0Copy3 (D : BitVec 12) (E : Byte) (s : State) :
    exec (.yay0Copy3 D E) s = (yCopyFinish (yDist D) (ycopy3Len E) s).outcome := rfl
theorem exec_yaz0Header (size : Word) (padding : BitVec 64) (s : State) :
    exec (.yaz0Header size padding) s = .next (enterBody (s.setTotal size)) := rfl
theorem exec_yay0Header (size co dof : Word) (s : State) :
    exec (.yay0Header size co dof) s = .next (enterBody (s.setYay0 size co dof)) := rfl

/-! ### Literals -/

/-- Below the counter's top a literal is one emitted byte (R166). -/
theorem execLiteral_below_top {s : State} (h : s.written ≠ 0xFFFFFFFF) (L : Byte) :
    execLiteral L s = .go (afterEmit (emitted L s.copyRem s.phase s)) := by
  rcases execLiteral_cases L s with ⟨htop, -⟩ | ⟨-, e⟩
  · exact absurd htop h
  · exact e

/-- At the counter's top a literal raises (R164). -/
theorem execLiteral_top {s : State} (h : s.written = 0xFFFFFFFF) (L : Byte) :
    execLiteral L s = .raised (raise .overflow s) := by
  rcases execLiteral_cases L s with ⟨-, e⟩ | ⟨hbelow, -⟩
  · exact e
  · exact absurd h hbelow

/-- Within MAX_BYTES a Yaz0 or Yay0 literal is a literal (R218). -/
theorem yLitFinish_within {s : State}
    (h : s.maxBytes = 0 ∨ s.written.toNat + 1 ≤ s.maxBytes.toNat) (L : Byte) :
    yLitFinish L s = execLiteral L s := by
  rcases yLitFinish_cases L s with ⟨h0, hlt, -⟩ | ⟨-, e⟩
  · rcases h with h | h
    · exact absurd h h0
    · omega
  · exact e

/-- A Yaz0 or Yay0 literal that would pass MAX_BYTES raises (R218). -/
theorem yLitFinish_beyond {s : State} (h0 : s.maxBytes ≠ 0)
    (h : s.maxBytes.toNat < s.written.toNat + 1) (L : Byte) :
    yLitFinish L s = .raised (raise .overflow s) := by
  rcases yLitFinish_cases L s with ⟨-, -, e⟩ | ⟨hle, -⟩
  · exact e
  · have := hle h0
    omega

/-- Settles O13: a literal is one emitted byte, and a PRS operation has no declared size. -/
theorem litEmitsItsByte : Obligations.LitEmitsItsByte := by
  intro L s hfmt hbelow hin capped
  have h := emits_emitted hin L s.copyRem s.phase
  rw [exec_lit, execLiteral_below_top hbelow, Micro.outcome_go]
  simp only [hfmt, true_and, ne_eq, not_true_eq_false, false_and, or_false] at h
  exact h

/-- Settles O14: within the limit both literals are one emitted byte, and only PRS has a cap. -/
theorem ylitEmitsItsByte : Obligations.YlitEmitsItsByte := by
  intro L s hfmt hbelow hlimit hin p
  have h := emits_emitted hin L s.copyRem s.phase
  have hout : (yLitFinish L s).outcome = .next (afterEmit (emitted L s.copyRem s.phase s)) := by
    rw [yLitFinish_within hlimit, execLiteral_below_top hbelow, Micro.outcome_go]
  rw [exec_yaz0Lit, exec_yay0Lit, hout]
  simp only [hfmt, false_and, false_or, ne_eq, not_false_eq_true, true_and, if_false] at h
  exact ⟨h, h⟩

/-! ### Copies -/

/-- Handing a copy to the copy engine touches nothing else (R168). -/
theorem handsOver_startCopy (s : State) (d n : Nat) :
    HandsOver s (.next (s.startCopy d n)) d n :=
  ⟨s.startCopy d n, rfl, rfl, rfl, rfl, rfl, rfl,
    ⟨rfl, rfl, rfl, rfl, fun _ => rfl, rfl, rfl⟩, ⟨rfl, rfl, rfl⟩, ⟨rfl, rfl⟩⟩

/-- A PRS copy of a distance the output has is handed over (R183, R187, R188). -/
theorem prsCopy_handsOver {d : Nat} {s : State} (h : d ≤ s.written.toNat) (n : Nat) :
    HandsOver s (prsCopy d n s).outcome d n := by
  rcases prsCopy_cases d n s with ⟨hlt, -⟩ | ⟨-, e⟩
  · omega
  · rw [e, Micro.outcome_go]
    exact handsOver_startCopy s d n

/-- A PRS copy of a greater distance raises (R167). -/
theorem prsCopy_tooDistant {d : Nat} {s : State} (h : s.written.toNat < d) (n : Nat) :
    Raises s (prsCopy d n s).outcome .backrefTooDistant := by
  rcases prsCopy_cases d n s with ⟨-, e⟩ | ⟨hle, -⟩
  · rw [e, Micro.outcome_raised]
    exact raises_raise s .backrefTooDistant
  · omega

/-- A Yaz0 or Yay0 copy of a distance the output has, its cut length within the limit, is handed
over (R217). -/
theorem yCopyFinish_handsOver {d n : Nat} {s : State} (hd : d ≤ s.written.toNat)
    (hleft : s.written.toNat < s.total.toNat)
    (hfits : s.maxBytes = 0 ∨ s.written.toNat + cutLen n s ≤ s.maxBytes.toNat) :
    HandsOver s (yCopyFinish d n s).outcome d (cutLen n s) := by
  rcases yCopyFinish_cases d n s with ⟨hlt, -⟩ | ⟨-, hle, -⟩ | ⟨-, -, h0, hlt, -⟩ | ⟨-, -, -, e⟩
  · omega
  · omega
  · rcases hfits with h | h
    · exact absurd h h0
    · omega
  · rw [e, Micro.outcome_go]
    exact handsOver_startCopy s d (cutLen n s)

/-- A Yaz0 or Yay0 copy of a greater distance raises before anything else is looked at (R167,
R278). -/
theorem yCopyFinish_tooDistant {d : Nat} {s : State} (h : s.written.toNat < d) (n : Nat) :
    Raises s (yCopyFinish d n s).outcome .backrefTooDistant := by
  rcases yCopyFinish_cases d n s with ⟨-, e⟩ | ⟨hle, -⟩ | ⟨hle, -⟩ | ⟨hle, -⟩
  · rw [e, Micro.outcome_raised]
    exact raises_raise s .backrefTooDistant
  all_goals omega

/-- A Yaz0 or Yay0 copy whose cut length would pass MAX_BYTES raises (R216, R217). -/
theorem yCopyFinish_beyond {d n : Nat} {s : State} (h0 : s.maxBytes ≠ 0)
    (hd : d ≤ s.written.toNat) (hleft : s.written.toNat < s.total.toNat)
    (hpasses : s.maxBytes.toNat < s.written.toNat + cutLen n s) :
    Raises s (yCopyFinish d n s).outcome .overflow := by
  rcases yCopyFinish_cases d n s with ⟨hlt, -⟩ | ⟨-, hle, -⟩ | ⟨-, -, -, -, e⟩ | ⟨-, -, hle, -⟩
  · omega
  · omega
  · rw [e, Micro.outcome_raised]
    exact raises_raise s .overflow
  · have := hle h0
    omega

/-- Settles O15: the three commands are one copy, by distance and length. -/
theorem prsCopiesHandOver : Obligations.PrsCopiesHandOver := fun _ =>
  ⟨fun _ _ _ h => prsCopy_handsOver h _, fun _ _ h => prsCopy_handsOver h _,
    fun _ _ h => prsCopy_handsOver h _⟩

/-- Settles O16: the four commands are one copy, by distance and length. -/
theorem yCopiesHandOver : Obligations.YCopiesHandOver := fun _ _ hd hleft =>
  ⟨fun _ hfits => ⟨yCopyFinish_handsOver hd hleft hfits, yCopyFinish_handsOver hd hleft hfits⟩,
    fun _ hfits => ⟨yCopyFinish_handsOver hd hleft hfits, yCopyFinish_handsOver hd hleft hfits⟩⟩

/-- Settles O20: every copy checks its distance first. -/
theorem tooDistantCopiesRaise : Obligations.TooDistantCopiesRaise := fun _ =>
  ⟨fun _ _ _ h => prsCopy_tooDistant h _,
    fun _ _ _ h => ⟨prsCopy_tooDistant h _, prsCopy_tooDistant h _⟩,
    fun _ _ _ h => ⟨yCopyFinish_tooDistant h _, yCopyFinish_tooDistant h _,
      yCopyFinish_tooDistant h _, yCopyFinish_tooDistant h _⟩⟩

/-- Settles O21: both literals and all four copies measure what they would write against the
limit before they write it. -/
theorem limitOverflowRaises : Obligations.LimitOverflowRaises := by
  intro s h0
  refine ⟨fun hlit L => ?_, fun D hd hleft => ⟨fun n hpasses => ?_, fun E hpasses => ?_⟩⟩
  · rw [exec_yaz0Lit, exec_yay0Lit, yLitFinish_beyond h0 hlit, Micro.outcome_raised]
    exact ⟨raises_raise s .overflow, raises_raise s .overflow⟩
  · exact ⟨yCopyFinish_beyond h0 hd hleft hpasses, yCopyFinish_beyond h0 hd hleft hpasses⟩
  · exact ⟨yCopyFinish_beyond h0 hd hleft hpasses, yCopyFinish_beyond h0 hd hleft hpasses⟩

/-! ### The end mark and the headers -/

/-- Settles O17. -/
theorem endMarkEndsOperation : Obligations.EndMarkEndsOperation := fun s =>
  enters_setPhase s .done

/-- Settles O18: after the size only the phase is set. -/
theorem yaz0HeaderStoresSize : Obligations.Yaz0HeaderStoresSize := fun size padding s =>
  ⟨_, exec_yaz0Header size padding s, rfl, rfl, rfl, rfl, rfl,
    ⟨rfl, rfl, rfl, rfl, fun _ => rfl, rfl, rfl⟩, ⟨rfl, rfl, rfl⟩, ⟨rfl, rfl⟩⟩

/-- Settles O19: after the size and the two stream pointers only the phase is set. -/
theorem yay0HeaderStoresSizeAndStreams : Obligations.Yay0HeaderStoresSizeAndStreams :=
  fun size co dof s =>
  ⟨_, exec_yay0Header size co dof s, rfl, rfl, rfl, rfl, rfl, rfl, rfl, rfl, rfl,
    ⟨rfl, rfl, rfl, rfl, fun _ => rfl, rfl, rfl⟩, ⟨rfl, rfl, rfl⟩, ⟨rfl, rfl⟩⟩

/-! ### The copy step -/

/-- With no host access pending, a step in phase COPY is the copy step (R161). -/
theorem step_copy {s : State} (hhost : s.host = []) (hphase : s.phase = .copy) :
    step s = (copyStep s).outcome := by
  rw [step_engine hhost, engineStep, hphase]

/-- Settles O22: both raise before they store the byte. -/
theorem counterTopRaises : Obligations.CounterTopRaises := by
  intro s htop
  refine ⟨fun L => ?_, fun hhost hphase hrem hread => ?_⟩
  · rw [exec_lit, execLiteral_top htop, Micro.outcome_raised]
    exact raises_raise s .overflow
  · rw [step_copy hhost hphase]
    rcases copyStep_cases s with ⟨h0, -⟩ | ⟨-, hnone, -⟩ | ⟨-, b, -, ⟨-, e⟩ | ⟨hbelow, -⟩⟩
    · exact absurd h0 hrem
    · rw [hnone] at hread
      cases hread
    · rw [e, Micro.outcome_raised]
      exact raises_raise s .overflow
    · exact absurd htop hbelow

/-- A distance outside the history reads no byte (R67). -/
theorem History.read_outside {h : History} {d : Nat} (hd : d = 0 ∨ h.size < d) :
    h.read d = none := if_neg (by omega)

/-- Settles O30: the read the copy step makes first has no answer. -/
theorem historyUnderflowFaults : Obligations.HistoryUnderflowFaults := by
  intro s hhost hphase hrem hd
  have hnone := History.read_outside hd
  rw [step_copy hhost hphase]
  rcases copyStep_cases s with ⟨h0, -⟩ | ⟨-, -, e⟩ | ⟨-, b, hb, -⟩
  · exact absurd h0 hrem
  · rw [e, Micro.outcome_stuck]
  · rw [hnone] at hb
    cases hb

/-- A copy of the invariant has its source byte in the history: the distance was admitted, and
compaction keeps it in reach (R68). -/
theorem Inv.copy_read {s : State} (hinv : Inv s) (hphase : s.phase = .copy) :
    ∃ b, s.hist.read s.copyDist = some b ∧ s.out[s.out.length - s.copyDist]? = some b := by
  obtain ⟨hd1, hdmax, hdout, -, -⟩ := hinv.copyLegal hphase
  have hreach := hinv.histReach
  rw [histParams_capacity, histParams_compact] at hreach
  rw [prsLongMaxDist_eq] at hdmax
  have hread := hinv.histHolds.read hd1 (by omega)
  have hb := List.getElem?_eq_getElem (show s.out.length - s.copyDist < s.out.length by omega)
  exact ⟨_, hread.trans hb, hb⟩

/-- The copy step of the invariant, below the counter's top, emits the byte the distance names. -/
theorem Inv.step_copy {s : State} (hinv : Inv s) (hhost : s.host = []) (hphase : s.phase = .copy)
    (hbelow : s.written ≠ 0xFFFFFFFF) :
    ∃ b, s.out[s.out.length - s.copyDist]? = some b ∧ step s = .next (afterEmit
      (emitted b (s.copyRem - 1) (if s.copyRem - 1 = 0 then .cmd else .copy) s)) := by
  obtain ⟨b, hread, hout⟩ := hinv.copy_read hphase
  obtain ⟨-, -, -, hrem, -⟩ := hinv.copyLegal hphase
  refine ⟨b, hout, ?_⟩
  rw [Machine.step_copy hhost hphase]
  rcases copyStep_cases s with ⟨h0, -⟩ | ⟨-, hnone, -⟩ | ⟨-, b', hb', ⟨htop, -⟩ | ⟨-, e⟩⟩
  · omega
  · rw [hread] at hnone
    cases hnone
  · exact absurd htop hbelow
  · rw [hread, Option.some.injEq] at hb'
    rw [e, Micro.outcome_go, copied_eq_emitted, hphase, hb']

/-- Settles O29: the copy step is one emitted byte. -/
theorem copyStepEmitsOneByte : Obligations.CopyStepEmitsOneByte := by
  intro s hinv hhost hphase hbelow
  obtain ⟨b, hb, hstep⟩ := hinv.step_copy hhost hphase hbelow
  obtain ⟨-, -, -, hrem, -⟩ := hinv.copyLegal hphase
  have hlast : s.copyRem - 1 = 0 ↔ s.copyRem = 1 := by omega
  refine ⟨b, hb, ?_⟩
  have h := emits_emitted hinv.histHolds.inside b (s.copyRem - 1)
    (if s.copyRem - 1 = 0 then .cmd else .copy)
  rw [hstep]
  simpa only [hlast] using h

end Sys2Proof.Machine

/-! What a step of the engine can do (spec/41_copy_engine.md R161 to R163, R171, R172): which slot
it reads, what a decoder's reads leave behind, and every next state there is. The frame of a step
and the errors of spec/60_exceptions.md follow. -/

namespace Sys2Proof

open Machine

/-! ### Where the reads of a decoder lead (R42, R173, R285) -/

/-- From `c` to `c'` the pointers moved forward over bytes of the input only, those of streams
outside `S` not at all, and at most eight control bits are left. -/
structure Walk (inp : Input) (S : Stream → Prop) (c c' : Cursor) : Prop where
  forward : ∀ p, c.ptr p ≤ c'.ptr p
  present : ∀ p a, c.ptr p ≤ a → a < c'.ptr p → (inp a).isSome = true
  other : ∀ p, ¬ S p → c'.ptr p = c.ptr p
  bits : c.ctlBits ≤ 8 → c'.ctlBits ≤ 8

section walk
variable {inp : Input} {S : Stream → Prop}

/-- A move of the control bits alone. -/
theorem Walk.of_ptr {c c' : Cursor} (hptr : ∀ p, c'.ptr p = c.ptr p)
    (hbits : c.ctlBits ≤ 8 → c'.ctlBits ≤ 8) : Walk inp S c c' where
  forward p := (hptr p).ge
  present p a h1 h2 := by
    rw [hptr] at h2
    omega
  other p _ := hptr p
  bits := hbits

theorem Walk.refl (c : Cursor) : Walk inp S c c := .of_ptr (fun _ => rfl) id

theorem Walk.trans {a b c : Cursor} (h : Walk inp S a b) (k : Walk inp S b c) :
    Walk inp S a c where
  forward p := (h.forward p).trans (k.forward p)
  present p x h1 h2 := by
    by_cases hx : x < b.ptr p
    · exact h.present p x h1 hx
    · exact k.present p x (by omega) h2
  other p hp := (k.other p hp).trans (h.other p hp)
  bits h8 := k.bits (h.bits h8)

/-- One byte of a stream of `S`. -/
theorem Walk.advance {c : Cursor} {p : Stream} {b : Byte} (hp : S p)
    (hb : inp (c.ptr p) = some b) : Walk inp S c (c.advance p) where
  forward q := by
    rw [Cursor.ptr_advance]
    omega
  present q a h1 h2 := by
    rw [Cursor.ptr_advance] at h2
    split at h2
    · next hq =>
      subst hq
      obtain rfl : a = c.ptr p := by omega
      simp [hb]
    · omega
  other q hq := by
    have hpq : p ≠ q := by
      rintro rfl
      exact hq hp
    rw [Cursor.ptr_advance, if_neg hpq, Nat.add_zero]
  bits h8 := by rwa [Cursor.advance_ctlBits]

/-- A reading step from `c` walks to where it stops, and stops early only where a stream of `S`
has no byte. -/
def Got.Walks {α : Type} (inp : Input) (S : Stream → Prop) (c : Cursor) (g : Got α) : Prop :=
  Walk inp S c g.cursor ∧ ∀ c', g = .short c' → ∃ p, S p ∧ inp (c'.ptr p) = none

theorem Got.walks_ok {α : Type} {a : α} {c c' : Cursor} (h : Walk inp S c c') :
    (Got.ok a c').Walks inp S c := ⟨h, nofun⟩

theorem Got.Walks.bind {α β : Type} {g : Got α} {f : α → Cursor → Got β} {c : Cursor}
    (hg : g.Walks inp S c) (hf : ∀ a m, (f a m).Walks inp S m) : (g.bind f).Walks inp S c := by
  obtain ⟨hwalk, hshort⟩ := hg
  cases g with
  | ok a m => exact ⟨hwalk.trans (hf a m).1, (hf a m).2⟩
  | short m =>
    refine ⟨hwalk, fun c' h => hshort c' ?_⟩
    cases h
    rfl

theorem nextByte_walks {p : Stream} (hp : S p) (c : Cursor) :
    (nextByte inp p c).Walks inp S c := by
  cases h : nextByte inp p c with
  | ok b c' =>
    obtain ⟨hb, rfl⟩ := nextByte_eq_ok.mp h
    exact Got.walks_ok (Walk.advance hp hb)
  | short c' =>
    obtain ⟨hnone, rfl⟩ := nextByte_eq_short.mp h
    refine ⟨Walk.refl c', fun c'' hc => ⟨p, hp, ?_⟩⟩
    cases hc
    exact hnone

theorem refill_walks (hmain : S .main) (c : Cursor) : (refill inp c).Walks inp S c := by
  rcases refill_cases inp c with ⟨-, e⟩ | ⟨h0, b, hb, e⟩ | ⟨-, hnone, e⟩
  · rw [e]
    exact Got.walks_ok (Walk.refl c)
  · rw [e]
    have hfetch : Walk inp S (c.advance .main) (fetched c b) :=
      .of_ptr (fun p => by cases p <;> rfl) fun _ => le_refl 8
    exact Got.walks_ok ((Walk.advance hmain hb).trans hfetch)
  · rw [e]
    refine ⟨Walk.refl c, fun c'' hc => ⟨.main, hmain, ?_⟩⟩
    cases hc
    exact hnone

theorem walks_of_takesBits {rd : Input → Cursor → Got Bool} {bit : Byte → Nat → Bool}
    {shift : Byte → Nat → Byte} (hrd : TakesBits rd bit shift) (hmain : S .main) (c : Cursor) :
    (rd inp c).Walks inp S c := by
  rw [hrd.reads]
  refine (refill_walks hmain c).bind fun _ m => Got.walks_ok (.of_ptr (fun p => ?_) fun h8 => ?_)
  · cases p <;> rfl
  · exact (Nat.sub_le m.ctlBits 1).trans h8

theorem readBitPRS_walks (hmain : S .main) (c : Cursor) : (readBitPRS inp c).Walks inp S c :=
  walks_of_takesBits readBitPRS_takesBits hmain c

theorem readBitY_walks (hmain : S .main) (c : Cursor) : (readBitY inp c).Walks inp S c :=
  walks_of_takesBits readBitY_takesBits hmain c

theorem readU32BE_walks (hmain : S .main) (c : Cursor) : (readU32BE inp c).Walks inp S c :=
  (nextByte_walks hmain c).bind fun _ c => (nextByte_walks hmain c).bind fun _ c =>
    (nextByte_walks hmain c).bind fun _ c => (nextByte_walks hmain c).bind fun _ c =>
      Got.walks_ok (Walk.refl c)

theorem decodePrsLong_walks (hmain : S .main) (c : Cursor) :
    (decodePrsLong inp c).Walks inp S c := by
  refine (nextByte_walks hmain c).bind fun b0 c => (nextByte_walks hmain c).bind fun b1 c => ?_
  simp only
  split
  · exact Got.walks_ok (Walk.refl c)
  · split
    · exact Got.walks_ok (Walk.refl c)
    · exact (nextByte_walks hmain c).bind fun _ c => Got.walks_ok (Walk.refl c)

theorem decodePrs_walks (hmain : S .main) (c : Cursor) : (decodePrs inp c).Walks inp S c := by
  refine (readBitPRS_walks hmain c).bind fun first c => ?_
  cases first with
  | true => exact (nextByte_walks hmain c).bind fun _ c => Got.walks_ok (Walk.refl c)
  | false =>
    refine (readBitPRS_walks hmain c).bind fun second c => ?_
    cases second with
    | true => exact decodePrsLong_walks hmain c
    | false =>
      exact (readBitPRS_walks hmain c).bind fun _ c => (readBitPRS_walks hmain c).bind fun _ c =>
        (nextByte_walks hmain c).bind fun _ c => Got.walks_ok (Walk.refl c)

theorem decodeYaz0_walks (hmain : S .main) (c : Cursor) : (decodeYaz0 inp c).Walks inp S c := by
  refine (readBitY_walks hmain c).bind fun bit c => ?_
  cases bit with
  | true => exact (nextByte_walks hmain c).bind fun _ c => Got.walks_ok (Walk.refl c)
  | false =>
    refine (nextByte_walks hmain c).bind fun c0 c => (nextByte_walks hmain c).bind fun c1 c => ?_
    simp only
    split
    · exact Got.walks_ok (Walk.refl c)
    · exact (nextByte_walks hmain c).bind fun _ c => Got.walks_ok (Walk.refl c)

theorem decodeYay0_walks (hall : ∀ p, S p) (c : Cursor) : (decodeYay0 inp c).Walks inp S c := by
  refine (readBitY_walks (hall .main) c).bind fun bit c => ?_
  cases bit with
  | true => exact (nextByte_walks (hall .data) c).bind fun _ c => Got.walks_ok (Walk.refl c)
  | false =>
    refine (nextByte_walks (hall .count) c).bind fun c0 c =>
      (nextByte_walks (hall .count) c).bind fun c1 c => ?_
    simp only
    split
    · exact Got.walks_ok (Walk.refl c)
    · exact (nextByte_walks (hall .data) c).bind fun _ c => Got.walks_ok (Walk.refl c)

end walk

/-- Where a decoder's answer leaves the cursor. -/
def Decoded.cursor : Decoded → Cursor
  | .instr _ c => c
  | .truncated c _ => c
  | .unrecognized c => c

/-- A decoder's answer from `c`, as `Got.Walks` says it of a reading step. -/
def Decoded.Walks (inp : Input) (S : Stream → Prop) (c : Cursor) (d : Decoded) : Prop :=
  Walk inp S c d.cursor ∧ ∀ c' x, d = .truncated c' x → ∃ p, S p ∧ inp (c'.ptr p) = none

theorem Got.Walks.decoded {inp : Input} {S : Stream → Prop} {c : Cursor} {g : Got Instr}
    (h : g.Walks inp S c) : g.decoded.Walks inp S c := by
  cases g with
  | ok i c' => exact ⟨h.1, nofun⟩
  | short c' =>
    refine ⟨h.1, fun c'' x hc => h.2 c'' ?_⟩
    cases hc
    rfl

/-- A step of the walk, then the rest of it. -/
theorem Decoded.Walks.after {inp : Input} {S : Stream → Prop} {a b : Cursor} {d : Decoded}
    (h : Walk inp S a b) (k : d.Walks inp S b) : d.Walks inp S a := ⟨h.trans k.1, k.2⟩

theorem Decoded.walks_truncated {α : Type} {inp : Input} {S : Stream → Prop} {c c' : Cursor}
    {g : Got α} (h : g.Walks inp S c) (hg : g = .short c') (d : Option Word) :
    (Decoded.truncated c' d).Walks inp S c := by
  subst hg
  refine ⟨h.1, fun c'' x hc => h.2 c'' ?_⟩
  cases hc
  rfl

theorem decodeYaz0Header_walks {inp : Input} {S : Stream → Prop} (hmain : S .main) (c : Cursor) :
    (decodeYaz0Header inp c).Walks inp S c := by
  have hmagic := readU32BE_walks (inp := inp) hmain c
  unfold decodeYaz0Header
  split
  · next c1 h => exact Decoded.walks_truncated hmagic h none
  · next magic c1 h =>
    rw [h] at hmagic
    split
    · exact ⟨hmagic.1, nofun⟩
    · refine Decoded.Walks.after hmagic.1 ?_
      have hsize := readU32BE_walks (inp := inp) hmain c1
      split
      · next c2 h => exact Decoded.walks_truncated hsize h none
      · next size c2 h =>
        rw [h] at hsize
        refine Decoded.Walks.after hsize.1 ?_
        have hpadding : ((readU32BE inp c2).bind fun p c => (readU32BE inp c).bind fun q c =>
            Got.ok (α := BitVec 64) (p ++ q) c).Walks inp S c2 :=
          (readU32BE_walks hmain c2).bind fun _ c => (readU32BE_walks hmain c).bind fun _ c =>
            Got.walks_ok (Walk.refl c)
        split
        · next c3 h => exact Decoded.walks_truncated hpadding h (some size)
        · next padding c3 h =>
          rw [h] at hpadding
          exact ⟨hpadding.1, nofun⟩

theorem decodeYay0Header_walks {inp : Input} {S : Stream → Prop} (hmain : S .main) (c : Cursor) :
    (decodeYay0Header inp c).Walks inp S c := by
  have hmagic := readU32BE_walks (inp := inp) hmain c
  unfold decodeYay0Header
  split
  · next c1 h => exact Decoded.walks_truncated hmagic h none
  · next magic c1 h =>
    rw [h] at hmagic
    split
    · exact ⟨hmagic.1, nofun⟩
    · refine Decoded.Walks.after hmagic.1 (Got.Walks.decoded ?_)
      exact (readU32BE_walks hmain c1).bind fun _ c => (readU32BE_walks hmain c).bind fun _ c =>
        (readU32BE_walks hmain c).bind fun _ c => Got.walks_ok (Walk.refl c)

/-- The streams a slot's decoder may read (R117): only a Yay0 command has more than one. -/
def slotStreams (slot : Slot) (p : Stream) : Prop := p = .main ∨ slot = .yay0Command

theorem decode_walks (slot : Slot) (inp : Input) (c : Cursor) :
    (decode slot inp c).Walks inp (slotStreams slot) c := by
  cases slot with
  | prsCommand => exact (decodePrs_walks (.inl rfl) c).decoded
  | yaz0Command => exact (decodeYaz0_walks (.inl rfl) c).decoded
  | yay0Command => exact (decodeYay0_walks (fun _ => .inr rfl) c).decoded
  | yaz0Header => exact decodeYaz0Header_walks (.inl rfl) c
  | yay0Header => exact decodeYay0Header_walks (.inl rfl) c

/-- Where a read of `IN` failed, the pointer stands at the failing address itself: where it stood
before, or at IN_SIZE where the walk had come up to there (R285). -/
theorem Walk.failing_address {s : State} {S : Stream → Prop} {c c' : Cursor} {p : Stream}
    (h : Walk s.input S c c') (hnone : s.input (c'.ptr p) = none) :
    c'.ptr p = max (c.ptr p) s.inSize.toNat := by
  have hge := input_eq_none.mp hnone
  have hle := h.forward p
  by_cases hmoved : c.ptr p = c'.ptr p
  · omega
  · have hread := h.present p (c'.ptr p - 1) (by omega) (by omega)
    obtain ⟨b, hb⟩ := Option.isSome_iff_exists.mp hread
    have := (input_eq_some.mp hb).1
    omega

end Sys2Proof

namespace Sys2Proof.Machine

/-! ### The slot a step reads (R162, R163) -/

/-- The engine's next step reads a command or header of this slot. -/
inductive Reads (s : State) : Slot → Prop where
  | prsCommand (hphase : s.phase = .cmd) (hfmt : s.fmt = 0) : Reads s .prsCommand
  | yaz0Command (hphase : s.phase = .cmd) (hfmt : s.fmt = 1) : Reads s .yaz0Command
  | yay0Command (hphase : s.phase = .cmd) (hfmt : s.fmt = 2) : Reads s .yay0Command
  | yaz0Header (hphase : s.phase = .header) (hfmt : s.fmt = 1) : Reads s .yaz0Header
  | yay0Header (hphase : s.phase = .header) (hfmt : s.fmt = 2) : Reads s .yay0Header

/-- A step that reads a slot runs what the slot's decoder answers. -/
theorem Reads.engineStep {s : State} {slot : Slot} (h : Reads s slot) :
    Machine.engineStep s = runDecoded s (decode slot s.input s.cur) := by
  cases h <;> simp [Machine.engineStep, commandStep, headerStep, *]

theorem Reads.step {s : State} {slot : Slot} (h : Reads s slot) (hhost : s.host = []) :
    Machine.step s = runDecoded s (decode slot s.input s.cur) := by
  rw [step_engine hhost, h.engineStep]

/-- Where the decoder reads an instruction, the step is that instruction after its reads. -/
theorem Reads.step_instr {s : State} {slot : Slot} {i : Instr} {c : Cursor} (h : Reads s slot)
    (hhost : s.host = []) (hdec : decode slot s.input s.cur = .instr i c) :
    Machine.step s = exec i (s.setCur c) := by
  rw [h.step hhost, hdec]
  rfl

theorem Reads.phase {s : State} {slot : Slot} (h : Reads s slot) :
    s.phase = .header ∨ s.phase = .cmd := by
  cases h <;> simp [*]

/-- Settles O23: each clause is one slot. -/
theorem stepRunsDecodedInstr : Obligations.StepRunsDecodedInstr := fun _ _ _ hhost =>
  ⟨fun hphase hfmt hdec => (Reads.prsCommand hphase hfmt).step_instr hhost hdec,
    fun hphase hfmt hdec => (Reads.yaz0Command hphase hfmt).step_instr hhost hdec,
    fun hphase hfmt hdec => (Reads.yay0Command hphase hfmt).step_instr hhost hdec,
    fun hphase hfmt hdec => (Reads.yaz0Header hphase hfmt).step_instr hhost hdec,
    fun hphase hfmt hdec => (Reads.yay0Header hphase hfmt).step_instr hhost hdec⟩

/-! ### Every next state of an instruction -/

/-- A command's slot, not a header's (R162, R163). -/
abbrev isCommand (slot : Slot) : Prop := slot ≠ .yaz0Header ∧ slot ≠ .yay0Header

theorem Reads.phase_cmd {s : State} {slot : Slot} (h : Reads s slot) (hslot : isCommand slot) :
    s.phase = .cmd := by
  cases h with
  | prsCommand hphase | yaz0Command hphase | yay0Command hphase => exact hphase
  | yaz0Header => exact absurd rfl hslot.1
  | yay0Header => exact absurd rfl hslot.2

theorem Reads.fmt_eq_zero {s : State} {slot : Slot} (h : Reads s slot) :
    s.fmt = 0 ↔ slot = .prsCommand := by
  cases h <;> simp [*]

/-- The next states an instruction of a slot has, with what is known where each is reached. -/
inductive ExecMove (s : State) : Slot → State → Prop where
  /-- END (R185). -/
  | ended : ExecMove s .prsCommand (s.setPhase .done)
  /-- A distance beyond the output, a limit, or the counter's top (R164, R167, R216). -/
  | raised (slot : Slot) (e : ErrClass) (he : e = .backrefTooDistant ∨ e = .overflow) :
      ExecMove s slot (raise e s)
  /-- A literal (R166, R218). -/
  | literal (slot : Slot) (b : Byte) (hslot : isCommand slot)
      (hbelow : s.written ≠ 0xFFFFFFFF)
      (hlimit : slot ≠ .prsCommand → s.maxBytes ≠ 0 →
        s.written.toNat + 1 ≤ s.maxBytes.toNat) :
      ExecMove s slot (afterEmit (emitted b s.copyRem s.phase s))
  /-- A copy handed over (R168, R217). -/
  | copy (slot : Slot) (d n : Nat) (hslot : isCommand slot)
      (hd : 1 ≤ d ∧ d ≤ Config.prsLongMaxDist)
      (hout : d ≤ s.written.toNat) (hn : 1 ≤ n ∧ n ≤ 273)
      (hinside : slot ≠ .prsCommand → s.written.toNat + n ≤ s.total.toNat ∧
        (s.maxBytes ≠ 0 → s.written.toNat + n ≤ s.maxBytes.toNat)) :
      ExecMove s slot (s.startCopy d n)
  /-- A Yaz0 header (R210). -/
  | yaz0Header (size : Word) : ExecMove s .yaz0Header (enterBody (s.setTotal size))
  /-- A Yay0 header (R240). -/
  | yay0Header (size co dof : Word) :
      ExecMove s .yay0Header (enterBody (s.setYay0 size co dof))

theorem execLiteral_move {s t : State} {slot : Slot} {L : Byte} (hslot : isCommand slot)
    (hlimit : slot ≠ .prsCommand → s.maxBytes ≠ 0 → s.written.toNat + 1 ≤ s.maxBytes.toNat)
    (h : (execLiteral L s).outcome = .next t) : ExecMove s slot t := by
  rcases execLiteral_cases L s with ⟨-, e⟩ | ⟨hbelow, e⟩
  · rw [e] at h
    cases h
    exact .raised slot .overflow (.inr rfl)
  · rw [e] at h
    cases h
    exact .literal slot L hslot hbelow hlimit

theorem yLitFinish_move {s t : State} {slot : Slot} {L : Byte} (hslot : isCommand slot)
    (h : (yLitFinish L s).outcome = .next t) : ExecMove s slot t := by
  rcases yLitFinish_cases L s with ⟨-, -, e⟩ | ⟨hlimit, e⟩
  · rw [e] at h
    cases h
    exact .raised slot .overflow (.inr rfl)
  · rw [e] at h
    exact execLiteral_move hslot (fun _ => hlimit) h

theorem prsCopy_move {s t : State} {d n : Nat} (hd : 1 ≤ d ∧ d ≤ Config.prsLongMaxDist)
    (hn : 1 ≤ n ∧ n ≤ 273) (h : (prsCopy d n s).outcome = .next t) :
    ExecMove s .prsCommand t := by
  rcases prsCopy_cases d n s with ⟨-, e⟩ | ⟨hout, e⟩
  · rw [e] at h
    cases h
    exact .raised .prsCommand .backrefTooDistant (.inl rfl)
  · rw [e] at h
    cases h
    exact .copy .prsCommand d n ⟨nofun, nofun⟩ hd hout hn fun hslot => absurd rfl hslot

theorem yCopyFinish_move {s t : State} {slot : Slot} {d n : Nat} (hslot : isCommand slot)
    (hd : 1 ≤ d ∧ d ≤ Config.prsLongMaxDist) (hn : 1 ≤ n ∧ n ≤ 273)
    (h : (yCopyFinish d n s).outcome = .next t) : ExecMove s slot t := by
  rcases yCopyFinish_cases d n s with ⟨-, e⟩ | ⟨-, -, e⟩ | ⟨-, -, -, -, e⟩ |
    ⟨hout, hleft, hlimit, e⟩
  · rw [e] at h
    cases h
    exact .raised slot .backrefTooDistant (.inl rfl)
  · rw [e] at h
    cases h
  · rw [e] at h
    cases h
    exact .raised slot .overflow (.inr rfl)
  · rw [e] at h
    cases h
    obtain ⟨h1, hle, htotal⟩ := cutLen_bounds hn.1 hleft
    exact .copy slot d (cutLen n s) hslot hd hout ⟨h1, hle.trans hn.2⟩ fun _ => ⟨htotal, hlimit⟩

/-- Every next state of an instruction is one of these. -/
theorem exec_move {i : Instr} {s t : State} (h : exec i s = .next t) : ExecMove s i.slot t := by
  cases i with
  | lit L => exact execLiteral_move ⟨nofun, nofun⟩ (fun hslot => absurd rfl hslot) h
  | scopy s1 s0 O =>
    have hd := scopyDist_range O
    have hn := scopyLen_range s1 s0
    exact prsCopy_move ⟨hd.1, by rw [prsLongMaxDist_eq]; omega⟩ ⟨by omega, by omega⟩ h
  | lcopy2 f lll =>
    have hn := lcopy2Len_range lll
    exact prsCopy_move (longDist_range f) ⟨by omega, by omega⟩ h
  | lcopy3 f N =>
    have hn := lcopy3Len_range N
    exact prsCopy_move (longDist_range f) ⟨by omega, by omega⟩ h
  | endMark =>
    cases h
    exact .ended
  | yaz0Lit L => exact yLitFinish_move ⟨nofun, nofun⟩ h
  | yay0Lit L => exact yLitFinish_move ⟨nofun, nofun⟩ h
  | yaz0Copy2 n D =>
    have hd := yDist_range D
    have hn := ycopy2Len_range n
    exact yCopyFinish_move ⟨nofun, nofun⟩ ⟨hd.1, by rw [prsLongMaxDist_eq]; omega⟩
      ⟨by omega, by omega⟩ h
  | yay0Copy2 n D =>
    have hd := yDist_range D
    have hn := ycopy2Len_range n
    exact yCopyFinish_move ⟨nofun, nofun⟩ ⟨hd.1, by rw [prsLongMaxDist_eq]; omega⟩
      ⟨by omega, by omega⟩ h
  | yaz0Copy3 D E =>
    have hd := yDist_range D
    have hn := ycopy3Len_range E
    exact yCopyFinish_move ⟨nofun, nofun⟩ ⟨hd.1, by rw [prsLongMaxDist_eq]; omega⟩
      ⟨by omega, by omega⟩ h
  | yay0Copy3 D E =>
    have hd := yDist_range D
    have hn := ycopy3Len_range E
    exact yCopyFinish_move ⟨nofun, nofun⟩ ⟨hd.1, by rw [prsLongMaxDist_eq]; omega⟩
      ⟨by omega, by omega⟩ h
  | yaz0Header size padding =>
    cases h
    exact .yaz0Header size
  | yay0Header size co dof =>
    cases h
    exact .yay0Header size co dof

/-! ### Every next state of the engine -/

/-- The next states of the engine, with what is known where each is reached. -/
inductive EngineMove (s : State) : State → Prop where
  /-- IDLE, DONE or ERROR: no step (R172). -/
  | rest (hidle : s.busy = false) : EngineMove s s
  /-- The header step of PRS (R180). -/
  | prsHeader (hphase : s.phase = .header) (hfmt : s.fmt = 0) : EngineMove s (s.setPhase .cmd)
  /-- The header step of the reserved format (R271). -/
  | reserved (hphase : s.phase = .header) (hfmt : s.fmt = 3) :
      EngineMove s (raise .unsupported s)
  /-- A read failed (R272); a Yaz0 header may have stored its size (R210). -/
  | short {slot : Slot} {c : Cursor} {d : Option Word} (hreads : Reads s slot)
      (hdec : decode slot s.input s.cur = .truncated c d) :
      EngineMove s (raise .corrupted ((s.setCur c).setTotal (d.getD s.total)))
  /-- A wrong magic (R273). -/
  | wrongMagic {slot : Slot} {c : Cursor} (hreads : Reads s slot)
      (hdec : decode slot s.input s.cur = .unrecognized c) :
      EngineMove s (raise .unrecognized (s.setCur c))
  /-- An instruction was read and ran (R163). -/
  | instr {slot : Slot} {i : Instr} {c : Cursor} {t : State} (hreads : Reads s slot)
      (hdec : decode slot s.input s.cur = .instr i c) (hmove : ExecMove (s.setCur c) slot t) :
      EngineMove s t
  /-- A copy step at the counter's top (R164). -/
  | copyTop (hphase : s.phase = .copy) : EngineMove s (raise .overflow s)
  /-- A copy step (R169). -/
  | copyByte (hphase : s.phase = .copy) (b : Byte) (hrem : s.copyRem ≠ 0)
      (hbelow : s.written ≠ 0xFFFFFFFF) :
      EngineMove s (afterEmit (emitted b (s.copyRem - 1)
        (if s.copyRem - 1 = 0 then .cmd else .copy) s))

theorem Reads.move {s t : State} {slot : Slot} (hreads : Reads s slot)
    (h : runDecoded s (decode slot s.input s.cur) = .next t) : EngineMove s t := by
  cases hdec : decode slot s.input s.cur with
  | instr i c =>
    rw [hdec] at h
    have hslot := (decodedCommandStands slot s.input s.cur c i hdec).1
    exact .instr hreads hdec (hslot ▸ exec_move h)
  | truncated c d =>
    rw [hdec] at h
    cases d <;>
    · cases h
      exact .short hreads hdec
  | unrecognized c =>
    rw [hdec] at h
    cases h
    exact .wrongMagic hreads hdec

/-- `CTRL.FMT` is one of four (R23). -/
theorem fmt_cases (f : BitVec 2) : f = 0 ∨ f = 1 ∨ f = 2 ∨ f = 3 := by
  revert f
  decide

/-- Every next state of the engine is one of these. -/
theorem engineStep_move {s t : State} (h : engineStep s = .next t) : EngineMove s t := by
  cases hphase : s.phase with
  | header =>
    rcases fmt_cases s.fmt with hfmt | hfmt | hfmt | hfmt
    · rw [engineStep, hphase, headerStep_prs hfmt] at h
      cases h
      exact .prsHeader hphase hfmt
    · have hreads := Reads.yaz0Header hphase hfmt
      exact hreads.move (hreads.engineStep ▸ h)
    · have hreads := Reads.yay0Header hphase hfmt
      exact hreads.move (hreads.engineStep ▸ h)
    · rw [engineStep, hphase, headerStep_reserved hfmt] at h
      cases h
      exact .reserved hphase hfmt
  | cmd =>
    rcases fmt_cases s.fmt with hfmt | hfmt | hfmt | hfmt
    · have hreads := Reads.prsCommand hphase hfmt
      exact hreads.move (hreads.engineStep ▸ h)
    · have hreads := Reads.yaz0Command hphase hfmt
      exact hreads.move (hreads.engineStep ▸ h)
    · have hreads := Reads.yay0Command hphase hfmt
      exact hreads.move (hreads.engineStep ▸ h)
    · simp [engineStep, hphase, commandStep, hfmt] at h
  | copy =>
    rw [engineStep, hphase] at h
    rcases copyStep_cases s with ⟨-, e⟩ | ⟨-, -, e⟩ | ⟨hrem, b, -, ⟨-, e⟩ | ⟨hbelow, e⟩⟩
    · rw [e] at h
      cases h
    · rw [e] at h
      cases h
    · rw [e] at h
      cases h
      exact .copyTop hphase
    · rw [e, copied_eq_emitted, hphase] at h
      cases h
      exact .copyByte hphase b hrem hbelow
  | idle | done | error =>
    rw [engineStep, hphase] at h
    cases h
    exact .rest (by simp [State.busy, hphase])

theorem step_move {s t : State} (hhost : s.host = []) (h : step s = .next t) :
    EngineMove s t := engineStep_move (step_engine hhost ▸ h)

/-- In IDLE, DONE and ERROR the engine stays where it is (R161). -/
theorem engineStep_idle {s : State} (hidle : s.busy = false) : engineStep s = .next s := by
  unfold engineStep
  split <;> simp_all [State.busy]

/-! ### The frame of a step -/

theorem SameInputs.refl (s : State) : SameInputs s s := ⟨rfl, rfl, rfl, rfl, fun _ => rfl, rfl, rfl⟩

theorem SameInputs.trans {s t u : State} (h : SameInputs s t) (k : SameInputs t u) :
    SameInputs s u :=
  ⟨k.fmt.trans h.fmt, k.inBase.trans h.inBase, k.inSize.trans h.inSize,
    k.maxBytes.trans h.maxBytes, fun a => (k.memory a).trans (h.memory a), k.host.trans h.host,
    k.readData.trans h.readData⟩

/-- The engine reads the same bytes afterwards (R61). -/
theorem SameInputs.input {s t : State} (h : SameInputs s t) : t.input = s.input := by
  funext a
  rw [State.input, State.input, h.inSize, h.memory]

theorem sameInputs_emitted (b : Byte) (n : Nat) (p : Phase) (s : State) :
    SameInputs s (afterEmit (emitted b n p s)) :=
  ⟨by simp, by simp, by simp, by simp, by simp, by simp, by simp⟩

theorem ExecMove.frame {s t : State} {slot : Slot} (h : ExecMove s slot t) :
    SameInputs s t ∧ (t.out = s.out ∨ ∃ b, t.out = s.out ++ [b]) := by
  cases h with
  | literal _ b => exact ⟨sameInputs_emitted b _ _ s, .inr ⟨b, by simp⟩⟩
  | _ => exact ⟨⟨rfl, rfl, rfl, rfl, fun _ => rfl, rfl, rfl⟩, .inl rfl⟩

theorem EngineMove.frame {s t : State} (h : EngineMove s t) :
    SameInputs s t ∧ (t.out = s.out ∨ ∃ b, t.out = s.out ++ [b]) := by
  cases h with
  | @instr _ _ c _ _ _ hmove =>
    obtain ⟨hinputs, hout⟩ := hmove.frame
    have hread : SameInputs s (s.setCur c) := ⟨rfl, rfl, rfl, rfl, fun _ => rfl, rfl, rfl⟩
    exact ⟨hread.trans hinputs, hout⟩
  | copyByte _ b => exact ⟨sameInputs_emitted b _ _ s, .inr ⟨b, by simp⟩⟩
  | _ => exact ⟨⟨rfl, rfl, rfl, rfl, fun _ => rfl, rfl, rfl⟩, .inl rfl⟩

/-- Settles O38, by the next states of the engine. -/
theorem engineStepFrame : Obligations.EngineStepFrame := fun _ _ hhost h =>
  (step_move hhost h).frame

/-- An instruction moves no pointer itself, but for the two a Yay0 header sets (R171, R240). -/
theorem ExecMove.cur {s t : State} {slot : Slot} (h : ExecMove s slot t) :
    t.cur.inPos = s.cur.inPos ∧ (slot ≠ .yay0Header → t.cur = s.cur) := by
  cases h with
  | literal => exact ⟨by simp, fun _ => by simp⟩
  | yay0Header => exact ⟨rfl, fun hslot => absurd rfl hslot⟩
  | _ => exact ⟨rfl, fun _ => rfl⟩

/-- What a decoder of a step reads leads forward, in every stream. -/
theorem decode_forward (slot : Slot) (inp : Input) (c : Cursor) (p : Stream) :
    c.ptr p ≤ (decode slot inp c).cursor.ptr p := (decode_walks slot inp c).1.forward p

/-- Settles O39: the reads lead forward, and nothing else moves a pointer but a Yay0 header. -/
theorem pointersOnlyAdvance : Obligations.PointersOnlyAdvance := by
  intro s t hhost h
  cases step_move hhost h with
  | short hreads hdec =>
    have hforward := fun p => hdec ▸ decode_forward _ s.input s.cur p
    refine ⟨hforward .main, fun _ => ⟨hforward .count, hforward .data⟩, fun hcopy => ?_⟩
    rcases hreads.phase with hphase | hphase <;> cases hphase.symm.trans hcopy
  | wrongMagic hreads hdec =>
    have hforward := fun p => hdec ▸ decode_forward _ s.input s.cur p
    refine ⟨hforward .main, fun _ => ⟨hforward .count, hforward .data⟩, fun hcopy => ?_⟩
    rcases hreads.phase with hphase | hphase <;> cases hphase.symm.trans hcopy
  | instr hreads hdec hmove =>
    have hforward := fun p => hdec ▸ decode_forward _ s.input s.cur p
    obtain ⟨hin, hcur⟩ := hmove.cur
    refine ⟨hin ▸ hforward .main, fun hheader => ?_, fun hcopy => ?_⟩
    · rw [hcur fun hslot => by subst hslot; cases hreads; contradiction]
      exact ⟨hforward .count, hforward .data⟩
    · rcases hreads.phase with hphase | hphase <;> cases hphase.symm.trans hcopy
  | copyByte => simp
  | _ => exact ⟨le_rfl, fun _ => ⟨le_rfl, le_rfl⟩, fun _ => rfl⟩

theorem ExecMove.error_precise {s t : State} {slot : Slot} (h : ExecMove s slot t)
    (hphase : s.phase ≠ .error) (herror : t.phase = .error) :
    SameOutput s t ∧ t.capped = s.capped ∧ SameCopy s t := by
  cases h with
  | raised => exact ⟨⟨rfl, rfl, rfl⟩, rfl, ⟨rfl, rfl⟩⟩
  | literal =>
    rw [afterEmit_phase, emitted_phase] at herror
    split at herror
    · cases herror
    · exact absurd herror hphase
  | yaz0Header | yay0Header =>
    rw [enterBody, setPhase_phase] at herror
    split at herror <;> cases herror
  | ended | copy => cases herror

/-- Settles O40: of the next states in ERROR, only a copy step's follows an emitted byte. -/
theorem errorsArePrecise : Obligations.ErrorsArePrecise := by
  intro s t hhost hphase h herror
  have hmove := step_move hhost h
  have hinputs := hmove.frame.1
  cases hmove with
  | instr hreads hdec hmove =>
    obtain ⟨hout, hcapped, hcopy⟩ := hmove.error_precise
      (by rcases hphase with hp | hp <;> simp [hp]) herror
    exact ⟨⟨hout.out, hout.written, hout.hist⟩, hcapped, ⟨hcopy.dist, hcopy.rem⟩, hinputs⟩
  | copyTop hcopy | copyByte hcopy =>
    rcases hphase with hp | hp <;> cases hp.symm.trans hcopy
  | _ => exact ⟨⟨rfl, rfl, rfl⟩, rfl, ⟨rfl, rfl⟩, hinputs⟩

/-- Settles O41, by induction on the steps. -/
theorem endedEngineStaysPut : Obligations.EndedEngineStaysPut := by
  intro s k hhost hidle
  have hstep : step s = .next s := (step_engine hhost).trans (engineStep_idle hidle)
  induction k with
  | zero => exact run_zero s
  | succ k ih => rw [run_succ hstep, ih]

/-! ### Failed reads and wrong magics (R272, R273) -/

/-- A step whose decoder runs out of input raises `Corrupted` where the reads have led. -/
theorem Reads.step_short {s : State} {slot : Slot} {c : Cursor} {d : Option Word}
    (h : Reads s slot) (hhost : s.host = [])
    (hdec : decode slot s.input s.cur = .truncated c d) :
    Machine.step s = .next (raise .corrupted ((s.setCur c).setTotal (d.getD s.total))) := by
  rw [h.step hhost, hdec]
  cases d <;> rfl

/-- Only a Yaz0 header can have stored a size when a read fails (R210). -/
theorem declared_none {slot : Slot} {inp : Input} {c c' : Cursor} {d : Option Word}
    (h : decode slot inp c = .truncated c' d) (hslot : slot ≠ .yaz0Header) : d = none := by
  cases slot with
  | prsCommand | yaz0Command | yay0Command => exact (Got.decoded_eq_truncated.mp h).2
  | yaz0Header => exact absurd rfl hslot
  | yay0Header =>
    simp only [decode, decodeYay0Header] at h
    split at h
    · cases h
      rfl
    · split at h
      · cases h
      · exact (Got.decoded_eq_truncated.mp h).2

/-- The stream whose read fails in a Yay0 command (R285): a stream not yet come to keeps its
pointer. -/
theorem decodeYay0_short {s : State} {c : Cursor} (h : decodeYay0 s.input s.cur = .short c) :
    s.input (c.ptr (failedStream .yay0Command s)) = none ∧ c.datPos = s.cur.datPos ∧
      (failedStream .yay0Command s = .main → c.cntPos = s.cur.cntPos) := by
  have hbitWalk := readBitY_walks (inp := s.input) (S := (· = .main)) rfl s.cur
  rw [decodeYay0, Got.bind_eq_short] at h
  unfold failedStream
  rcases h with h | ⟨bit, m, hbit, h⟩
  · rw [h] at hbitWalk ⊢
    obtain ⟨p, rfl, hnone⟩ := hbitWalk.2 c rfl
    exact ⟨hnone, hbitWalk.1.other .data nofun, fun _ => hbitWalk.1.other .count nofun⟩
  · rw [hbit] at hbitWalk ⊢
    have hcnt : m.cntPos = s.cur.cntPos := hbitWalk.1.other .count nofun
    have hdat : m.datPos = s.cur.datPos := hbitWalk.1.other .data nofun
    cases bit with
    | true =>
      simp only [if_true, Got.bind_eq_short, reduceCtorEq, and_false, exists_false,
        or_false] at h
      obtain ⟨hnone, rfl⟩ := nextByte_eq_short.mp h
      exact ⟨hnone, hdat, nofun⟩
    | false =>
      simp only [Bool.false_eq_true, if_false, Got.bind_eq_short] at h
      rcases h with h | ⟨c0, m1, h0, h | ⟨c1, m2, h1, h⟩⟩
      · obtain ⟨hnone, rfl⟩ := nextByte_eq_short.mp h
        have hge : s.inSize.toNat ≤ c.cntPos := input_eq_none.mp hnone
        rw [if_neg (by omega)]
        exact ⟨hnone, hdat, nofun⟩
      · obtain ⟨-, rfl⟩ := nextByte_eq_ok.mp h0
        obtain ⟨hnone, rfl⟩ := nextByte_eq_short.mp h
        have hge : s.inSize.toNat ≤ m.cntPos + 1 := input_eq_none.mp hnone
        rw [if_neg (by omega)]
        exact ⟨hnone, hdat, nofun⟩
      · obtain ⟨-, rfl⟩ := nextByte_eq_ok.mp h0
        obtain ⟨hb, rfl⟩ := nextByte_eq_ok.mp h1
        have hlt : m.cntPos + 1 < s.inSize.toNat := (input_eq_some.mp hb).1
        rw [if_pos (by omega)]
        split at h
        · cases h
        · simp only [Got.bind_eq_short, reduceCtorEq, and_false, exists_false, or_false] at h
          obtain ⟨hnone, rfl⟩ := nextByte_eq_short.mp h
          exact ⟨hnone, hdat, nofun⟩

/-- The stream whose read fails, in every slot. -/
theorem decode_short {s : State} {slot : Slot} {c : Cursor} {d : Option Word}
    (h : decode slot s.input s.cur = .truncated c d) :
    s.input (c.ptr (failedStream slot s)) = none ∧ c.datPos = s.cur.datPos ∧
      (failedStream slot s = .main → c.cntPos = s.cur.cntPos) := by
  by_cases hslot : slot = .yay0Command
  · subst hslot
    exact decodeYay0_short (Got.decoded_eq_truncated.mp h).1
  · have hwalks := decode_walks slot s.input s.cur
    rw [h] at hwalks
    obtain ⟨p, hp | hp, hnone⟩ := hwalks.2 c d rfl
    · subst hp
      have hmain : failedStream slot s = .main := by cases slot <;> first | rfl | contradiction
      rw [hmain]
      exact ⟨hnone, hwalks.1.other .data (by simp [slotStreams, hslot]),
        fun _ => hwalks.1.other .count (by simp [slotStreams, hslot])⟩
    · exact absurd hp hslot

/-- Settles O25: the step raises where the reads have led, and they led to the failing address. -/
theorem failedReadIsCorrupted : Obligations.FailedReadIsCorrupted := by
  intro s slot c declared hhost hslot hdec p
  have hreads : Reads s slot := by
    rcases hslot with ⟨rfl, hp, hf⟩ | ⟨rfl, hp, hf⟩ | ⟨rfl, hp, hf⟩ | ⟨rfl, hp, hf⟩ | ⟨rfl, hp, hf⟩
    · exact .prsCommand hp hf
    · exact .yaz0Command hp hf
    · exact .yay0Command hp hf
    · exact .yaz0Header hp hf
    · exact .yay0Header hp hf
  obtain ⟨hnone, hdat, hcnt⟩ := decode_short hdec
  have hwalk := (decode_walks slot s.input s.cur).1
  rw [hdec] at hwalk
  exact ⟨_, hreads.step_short hhost hdec, rfl, rfl, rfl, hwalk.failing_address hnone, hdat, hcnt,
    rfl, declared_none hdec, rfl, ⟨rfl, rfl, rfl, rfl, fun _ => rfl, rfl, rfl⟩, ⟨rfl, rfl, rfl⟩,
    ⟨rfl, rfl⟩⟩

/-- Four bytes at the main pointer are read as one word. -/
theorem readU32BE_of_bytes {inp : Input} {c : Cursor} {b0 b1 b2 b3 : Byte}
    (h0 : inp c.inPos = some b0) (h1 : inp (c.inPos + 1) = some b1)
    (h2 : inp (c.inPos + 2) = some b2) (h3 : inp (c.inPos + 3) = some b3) :
    readU32BE inp c = .ok (b0 ++ b1 ++ b2 ++ b3) { c with inPos := c.inPos + 4 } := by
  rw [readU32BE_eq_ok, u32Bytes_append]
  exact ⟨h0, h1, h2, h3, rfl⟩

/-- A header whose first word is not its format's magic is not recognized (R273). -/
theorem decode_wrongMagic {s : State} {slot : Slot} {magic w : Word} {c : Cursor}
    (hslot : slot = .yaz0Header ∧ magic = Config.yaz0Magic ∨
      slot = .yay0Header ∧ magic = Config.yay0Magic)
    (hread : readU32BE s.input s.cur = .ok w c) (hne : w ≠ magic) :
    decode slot s.input s.cur = .unrecognized c := by
  rcases hslot with ⟨rfl, rfl⟩ | ⟨rfl, rfl⟩
  · simp [decode, decodeYaz0Header, hread, hne]
  · simp [decode, decodeYay0Header, hread, hne]

theorem ExecMove.err_ne_unrecognized {s t : State} {slot : Slot} (h : ExecMove s slot t)
    (herr : s.err ≠ some .unrecognized) : t.err ≠ some .unrecognized := by
  cases h with
  | raised _ e he => rcases he with rfl | rfl <;> simp
  | literal => simpa using herr
  | _ => exact herr

/-- Settles O26: the header decoders compare the first word they read, and no other decoder
answers `unrecognized`. -/
theorem wrongMagicIsUnrecognized : Obligations.WrongMagicIsUnrecognized := by
  constructor
  · intro s magic b0 b1 b2 b3 hinv hhost hphase hfmt h0 h1 h2 h3 hne
    obtain ⟨hcur, hwritten, htotal⟩ := hinv.fresh hphase
    have hread := readU32BE_of_bytes (inp := s.input) (c := s.cur) (by rwa [hcur])
      (by rwa [hcur]) (by rwa [hcur]) (by rwa [hcur])
    obtain ⟨slot, hreads, hslot⟩ : ∃ slot, Reads s slot ∧
        (slot = .yaz0Header ∧ magic = Config.yaz0Magic ∨
          slot = .yay0Header ∧ magic = Config.yay0Magic) := by
      rcases hfmt with ⟨hfmt, rfl⟩ | ⟨hfmt, rfl⟩
      · exact ⟨_, .yaz0Header hphase hfmt, .inl ⟨rfl, rfl⟩⟩
      · exact ⟨_, .yay0Header hphase hfmt, .inr ⟨rfl, rfl⟩⟩
    have hstep := hreads.step hhost
    rw [decode_wrongMagic hslot hread hne] at hstep
    refine ⟨_, hstep, rfl, rfl, ?_, htotal, hwritten, rfl,
      ⟨rfl, rfl, rfl, rfl, fun _ => rfl, rfl, rfl⟩⟩
    simp [hcur]
  · intro s t hhost hfmt herr h
    cases step_move hhost h with
    | wrongMagic hreads hdec =>
      cases hreads with
      | prsCommand => exact absurd hdec Got.decoded_ne_unrecognized
      | _ => simp_all
    | instr _ _ hmove => exact hmove.err_ne_unrecognized herr
    | copyByte => simpa using herr
    | rest | prsHeader => exact herr
    | _ => simp

end Sys2Proof.Machine

/-! What cannot matter (spec/20_memory.md R61, R65; spec/70_reset_and_hazards.md R302): two machines
that differ in bytes no step reads take the same steps. -/

namespace Sys2Proof.Machine

/-! ### A state with other unread bytes -/

/-- The state with another history, input memory and last read word. -/
def State.swap (s : State) (h : History) (m : Memory) (r : Option Word) : State :=
  { s with hist := h, mem := m, readData := r }

section swap
variable (s : State) (h : History) (m : Memory) (r : Option Word)
@[simp] theorem swap_fmt : (s.swap h m r).fmt = s.fmt := rfl
@[simp] theorem swap_maxBytes : (s.swap h m r).maxBytes = s.maxBytes := rfl
@[simp] theorem swap_phase : (s.swap h m r).phase = s.phase := rfl
@[simp] theorem swap_hist : (s.swap h m r).hist = h := rfl
@[simp] theorem swap_written : (s.swap h m r).written = s.written := rfl
@[simp] theorem swap_total : (s.swap h m r).total = s.total := rfl
@[simp] theorem swap_copyDist : (s.swap h m r).copyDist = s.copyDist := rfl
@[simp] theorem swap_copyRem : (s.swap h m r).copyRem = s.copyRem := rfl
@[simp] theorem swap_setRem (n : Nat) :
    (s.swap h m r).setRem n = (s.setRem n).swap h m r := rfl
@[simp] theorem swap_setPhase (p : Phase) :
    (s.swap h m r).setPhase p = (s.setPhase p).swap h m r := rfl
@[simp] theorem swap_startCopy (d n : Nat) :
    (s.swap h m r).startCopy d n = (s.startCopy d n).swap h m r := rfl
@[simp] theorem swap_cutLen (n : Nat) : cutLen n (s.swap h m r) = cutLen n s := rfl
end swap

/-- A relation between histories under which distances read alike, and which appends keep. -/
structure ReadsAlike (R : History → History → Prop) : Prop where
  read : ∀ {h k}, R h k → ∀ d, k.read d = h.read d
  append : ∀ {h k}, R h k → ∀ b,
    R (h.append Config.histParams b) (k.append Config.histParams b)

theorem readsAlike_eq : ReadsAlike Eq where
  read := by
    rintro h _ rfl d
    rfl
  append := by
    rintro h _ rfl b
    rfl

/-- Two histories of one size that agree below it. -/
structure AgreeBelow (h k : History) : Prop where
  inside : h.size ≤ h.bytes.length
  size : k.size = h.size
  bytes : k.bytes.take k.size = h.bytes.take h.size

theorem AgreeBelow.inside_right {h k : History} (hk : AgreeBelow h k) :
    k.size ≤ k.bytes.length := by
  have hlen := congrArg List.length hk.bytes
  have := hk.inside
  have := hk.size
  simp only [List.length_take] at hlen
  omega

theorem readsAlike_agreeBelow : ReadsAlike AgreeBelow where
  read := by
    intro h k hk d
    by_cases hd : 1 ≤ d ∧ d ≤ h.size
    · rw [History.read_eq hd.1 hd.2, History.read_eq hd.1 (hk.size ▸ hd.2), hk.bytes, hk.size]
    · rw [History.read, History.read, if_neg hd, if_neg (hk.size ▸ hd)]
  append := by
    intro h k hk b
    have hsize : (k.append Config.histParams b).size = (h.append Config.histParams b).size := by
      rw [History.append_size, History.append_size, hk.size]
    exact ⟨History.append_inside hk.inside b, hsize, by
      rw [History.append_take hk.inside, History.append_take hk.inside_right, hsize, hk.bytes,
        hk.size]⟩

section swap
variable {R : History → History → Prop} {m : Memory} {r : Option Word}

/-- Two parts of a step that differ only in unread bytes. -/
inductive Micro.Alike (R : History → History → Prop) (m : Memory) (r : Option Word) :
    Micro → Micro → Prop where
  | go {s : State} {h : History} (hR : R s.hist h) : Alike R m r (.go s) (.go (s.swap h m r))
  | raised {s : State} {h : History} (hR : R s.hist h) :
      Alike R m r (.raised s) (.raised (s.swap h m r))
  | stuck (f : Fault) : Alike R m r (.stuck f) (.stuck f)

/-- Two outcomes that differ only in unread bytes. -/
inductive OutcomeAlike (R : History → History → Prop) (m : Memory) (r : Option Word) :
    Host.Outcome State Fault Refusal → Host.Outcome State Fault Refusal → Prop where
  | next {s : State} {h : History} (hR : R s.hist h) :
      OutcomeAlike R m r (.next s) (.next (s.swap h m r))
  | fault (f : Fault) : OutcomeAlike R m r (.fault f) (.fault f)

theorem Micro.Alike.outcome {a b : Micro} (h : Micro.Alike R m r a b) :
    OutcomeAlike R m r a.outcome b.outcome := by
  cases h with
  | go hR => exact .next hR
  | raised hR => exact .next hR
  | stuck f => exact .fault f

theorem Micro.Alike.andThen {a b : Micro} {f : State → Micro} (h : Micro.Alike R m r a b)
    (hf : ∀ {s : State} {k : History}, R s.hist k →
      Micro.Alike R m r (f s) (f (s.swap k m r))) :
    Micro.Alike R m r (a.andThen f) (b.andThen f) := by
  cases h with
  | go hR => exact hf hR
  | raised hR => exact .raised hR
  | stuck g => exact .stuck g

theorem raise_alike {s : State} {h : History} (hR : R s.hist h) (e : ErrClass) :
    Micro.Alike R m r (.raised (raise e s)) (.raised (raise e (s.swap h m r))) :=
  .raised (s := raise e s) hR

theorem afterEmit_swap (s : State) (h : History) :
    afterEmit (s.swap h m r) = (afterEmit s).swap h m r := by
  by_cases hcap : s.atCap
  · have hcap' : (s.swap h m r).atCap := hcap
    rw [afterEmit_atCap hcap, afterEmit_atCap hcap']
    rfl
  · have hcap' : ¬ (s.swap h m r).atCap := hcap
    by_cases hsize : s.atSize
    · have hsize' : (s.swap h m r).atSize := hsize
      rw [afterEmit_atSize hsize, afterEmit_atSize hsize', swap_setPhase]
    · have hsize' : ¬ (s.swap h m r).atSize := hsize
      rw [afterEmit_inside hcap hsize, afterEmit_inside hcap' hsize']

theorem afterEmit_alike {s : State} {h : History} (hR : R s.hist h) :
    Micro.Alike R m r (.go (afterEmit s)) (.go (afterEmit (s.swap h m r))) := by
  rw [afterEmit_swap]
  exact .go (by rwa [afterEmit_hist])

theorem emit_alike (hR : ReadsAlike R) {s : State} {h : History} (hs : R s.hist h) (b : Byte) :
    Micro.Alike R m r (emit b s) (emit b (s.swap h m r)) := by
  by_cases htop : s.written = 0xFFFFFFFF
  · simp only [emit, swap_written, htop, if_true]
    exact raise_alike hs .overflow
  · simp only [emit, swap_written, htop, if_false]
    exact .go (s := s.pushByte b) (hR.append hs b)

theorem execLiteral_alike (hR : ReadsAlike R) {s : State} {h : History} (hs : R s.hist h)
    (b : Byte) : Micro.Alike R m r (execLiteral b s) (execLiteral b (s.swap h m r)) :=
  (emit_alike hR hs b).andThen afterEmit_alike

theorem checkDist_alike {s : State} {h : History} (hs : R s.hist h) (d : Nat) :
    Micro.Alike R m r (checkDist d s) (checkDist d (s.swap h m r)) := by
  by_cases hlt : s.written.toNat < d
  · simp only [checkDist, swap_written, hlt, if_true]
    exact raise_alike hs .backrefTooDistant
  · simp only [checkDist, swap_written, hlt, if_false]
    exact .go hs

theorem prsCopy_alike {s : State} {h : History} (hs : R s.hist h) (d n : Nat) :
    Micro.Alike R m r (prsCopy d n s) (prsCopy d n (s.swap h m r)) :=
  (checkDist_alike hs d).andThen fun {s _} hs => .go (s := s.startCopy d n) hs

theorem yLitFinish_alike (hR : ReadsAlike R) {s : State} {h : History} (hs : R s.hist h)
    (L : Byte) : Micro.Alike R m r (yLitFinish L s) (yLitFinish L (s.swap h m r)) := by
  by_cases hlimit : s.maxBytes ≠ 0 ∧ s.maxBytes.toNat < s.written.toNat + 1
  · obtain ⟨h0, hlt⟩ := hlimit
    simp only [yLitFinish, swap_maxBytes, swap_written, h0, hlt, ne_eq, not_false_eq_true,
      and_self, if_true]
    exact raise_alike hs .overflow
  · simp only [yLitFinish, swap_maxBytes, swap_written, hlimit, if_false]
    exact execLiteral_alike hR hs L

theorem yCopyFinish_alike {s : State} {h : History} (hs : R s.hist h) (d n : Nat) :
    Micro.Alike R m r (yCopyFinish d n s) (yCopyFinish d n (s.swap h m r)) := by
  refine (checkDist_alike hs d).andThen fun {s h} hs => ?_
  simp only [swap_total, swap_written, swap_maxBytes, swap_cutLen, swap_startCopy]
  by_cases hleft : s.total.toNat ≤ s.written.toNat
  · simp only [hleft, if_true]
    exact .stuck _
  · by_cases hlimit : s.maxBytes ≠ 0 ∧ s.maxBytes.toNat < s.written.toNat + cutLen n s
    · obtain ⟨h0, hlt⟩ := hlimit
      simp only [hleft, h0, hlt, ne_eq, not_false_eq_true, and_self, if_true, if_false]
      exact raise_alike hs .overflow
    · simp only [hleft, if_false, hlimit, if_false]
      exact .go (s := s.startCopy d (cutLen n s)) hs

theorem copyStep_alike (hR : ReadsAlike R) {s : State} {h : History} (hs : R s.hist h) :
    Micro.Alike R m r (copyStep s) (copyStep (s.swap h m r)) := by
  simp only [copyStep, swap_copyRem, swap_hist, swap_copyDist, hR.read hs]
  by_cases h0 : s.copyRem = 0
  · simp only [h0, if_true]
    exact .stuck _
  · simp only [h0, if_false]
    cases s.hist.read s.copyDist with
    | none => exact .stuck _
    | some b =>
      refine (emit_alike hR hs b).andThen fun {s h} hs => ?_
      simp only [swap_copyRem, swap_setRem, setRem_copyRem, swap_setPhase]
      by_cases hlast : s.copyRem - 1 = 0
      · simp only [hlast, if_true]
        exact afterEmit_alike (s := (s.setRem 0).setPhase .cmd) hs
      · simp only [hlast, if_false]
        exact afterEmit_alike (s := s.setRem (s.copyRem - 1)) hs

theorem exec_alike (hR : ReadsAlike R) (i : Instr) {s : State} {h : History} (hs : R s.hist h) :
    OutcomeAlike R m r (exec i s) (exec i (s.swap h m r)) := by
  cases i with
  | lit L => exact (execLiteral_alike hR hs L).outcome
  | scopy s1 s0 O => exact (prsCopy_alike hs _ _).outcome
  | lcopy2 f lll => exact (prsCopy_alike hs _ _).outcome
  | lcopy3 f N => exact (prsCopy_alike hs _ _).outcome
  | endMark => exact .next (s := s.setPhase .done) hs
  | yaz0Lit L => exact (yLitFinish_alike hR hs L).outcome
  | yaz0Copy2 n D => exact (yCopyFinish_alike hs _ _).outcome
  | yaz0Copy3 D E => exact (yCopyFinish_alike hs _ _).outcome
  | yay0Lit L => exact (yLitFinish_alike hR hs L).outcome
  | yay0Copy2 n D => exact (yCopyFinish_alike hs _ _).outcome
  | yay0Copy3 D E => exact (yCopyFinish_alike hs _ _).outcome
  | yaz0Header size padding => exact .next (s := enterBody (s.setTotal size)) hs
  | yay0Header size co dof => exact .next (s := enterBody (s.setYay0 size co dof)) hs

theorem runDecoded_alike (hR : ReadsAlike R) (d : Decoded) {s : State} {h : History}
    (hs : R s.hist h) : OutcomeAlike R m r (runDecoded s d) (runDecoded (s.swap h m r) d) := by
  cases d with
  | instr i c => exact exec_alike hR i (s := s.setCur c) hs
  | truncated c declared =>
    cases declared with
    | none => exact .next (s := raise .corrupted (s.setCur c)) hs
    | some size => exact .next (s := raise .corrupted ((s.setCur c).setTotal size)) hs
  | unrecognized c => exact .next (s := raise .unrecognized (s.setCur c)) hs

/-- Bytes at or beyond IN_SIZE are not part of `IN` (R60, R61). -/
theorem input_swap {s : State} (hm : ∀ a, a < s.inSize.toNat → m.read a = s.mem.read a)
    (h : History) : (s.swap h m r).input = s.input := by
  funext a
  show (if a < s.inSize.toNat then some (m.read a) else none) = _
  by_cases ha : a < s.inSize.toNat
  · rw [State.input, if_pos ha, if_pos ha, hm a ha]
  · rw [State.input, if_neg ha, if_neg ha]

/-- A slot is read alike. -/
theorem Reads.alike (hR : ReadsAlike R) {s : State} {h : History} {slot : Slot}
    (hreads : Reads s slot) (hs : R s.hist h)
    (hm : ∀ a, a < s.inSize.toNat → m.read a = s.mem.read a) :
    OutcomeAlike R m r (Machine.engineStep s) (Machine.engineStep (s.swap h m r)) := by
  have hreads' : Reads (s.swap h m r) slot := by
    cases hreads with
    | prsCommand hp hf => exact .prsCommand hp hf
    | yaz0Command hp hf => exact .yaz0Command hp hf
    | yay0Command hp hf => exact .yay0Command hp hf
    | yaz0Header hp hf => exact .yaz0Header hp hf
    | yay0Header hp hf => exact .yay0Header hp hf
  rw [hreads.engineStep, hreads'.engineStep, input_swap hm]
  exact runDecoded_alike hR _ hs

/-- A step of the engine reads no byte of the input at or beyond IN_SIZE, no history byte that
`R` leaves open, and not the word the host last read. -/
theorem engineStep_alike (hR : ReadsAlike R) {s : State} {h : History} (hs : R s.hist h)
    (hm : ∀ a, a < s.inSize.toNat → m.read a = s.mem.read a) :
    OutcomeAlike R m r (engineStep s) (engineStep (s.swap h m r)) := by
  cases hphase : s.phase with
  | header =>
    rcases fmt_cases s.fmt with hfmt | hfmt | hfmt | hfmt
    · rw [engineStep, engineStep, swap_phase, hphase, headerStep_prs hfmt,
        headerStep_prs (s := s.swap h m r) hfmt]
      exact .next (s := s.setPhase .cmd) hs
    · exact (Reads.yaz0Header hphase hfmt).alike hR hs hm
    · exact (Reads.yay0Header hphase hfmt).alike hR hs hm
    · rw [engineStep, engineStep, swap_phase, hphase, headerStep_reserved hfmt,
        headerStep_reserved (s := s.swap h m r) hfmt]
      exact .next (s := raise .unsupported s) hs
  | cmd =>
    rcases fmt_cases s.fmt with hfmt | hfmt | hfmt | hfmt
    · exact (Reads.prsCommand hphase hfmt).alike hR hs hm
    · exact (Reads.yaz0Command hphase hfmt).alike hR hs hm
    · exact (Reads.yay0Command hphase hfmt).alike hR hs hm
    · simp only [engineStep, swap_phase, hphase, commandStep, swap_fmt, hfmt]
      exact .fault _
  | copy =>
    rw [engineStep, engineStep, swap_phase, hphase]
    exact (copyStep_alike hR hs).outcome
  | idle | done | error =>
    rw [engineStep, engineStep, swap_phase, hphase]
    exact .next hs

/-- The next state of a step, where unread bytes differ. -/
theorem step_swap (hR : ReadsAlike R) {s t : State} {h : History} (hhost : s.host = [])
    (hs : R s.hist h) (hm : ∀ a, a < s.inSize.toNat → m.read a = s.mem.read a)
    (hstep : step s = .next t) :
    ∃ k, step (s.swap h m r) = .next (t.swap k m r) ∧ R t.hist k := by
  rw [step_engine hhost] at hstep
  rw [step_engine (s := s.swap h m r) hhost]
  have halike := engineStep_alike (m := m) (r := r) hR hs hm
  rw [hstep] at halike
  generalize engineStep (s.swap h m r) = o at halike
  cases halike with
  | next hR => exact ⟨_, rfl, hR⟩

end swap

/-! ### The statements -/

/-- Settles O51: the same history, and a memory that agrees below IN_SIZE. -/
theorem bytesBeyondInSizeUnread : Obligations.BytesBeyondInSizeUnread := by
  intro s t m hhost hm hstep
  have hreadData := (step_move hhost hstep).frame.1.readData
  obtain ⟨k, hstep', rfl⟩ :=
    step_swap (m := m) (r := s.readData) readsAlike_eq hhost (rfl : s.hist = s.hist) hm hstep
  rw [← hreadData] at hstep'
  have hfrom : s.swap s.hist m t.readData = { s with mem := m } := by
    rw [hreadData]
    rfl
  rwa [hfrom] at hstep'

theorem memory_eq_of_move {s t : State} (hhost : s.host = []) (hstep : step s = .next t) :
    t.mem = s.mem := by
  cases step_move hhost hstep with
  | instr _ _ hmove => cases hmove <;> simp [enterBody]
  | _ => simp

/-- Settles O52: the same memory, and a history that agrees below its size. -/
theorem historyAboveSizeUnread : Obligations.HistoryAboveSizeUnread := by
  intro s t h hhost hin hsize hbytes hstep
  have hreadData := (step_move hhost hstep).frame.1.readData
  obtain ⟨k, hstep', hk⟩ := step_swap (m := s.mem) (r := s.readData) readsAlike_agreeBelow hhost
    (⟨hin, hsize, hbytes⟩ : AgreeBelow s.hist h) (fun _ _ => rfl) hstep
  refine ⟨k, ?_, hk.size, hk.bytes⟩
  have hto : t.swap k s.mem s.readData = { t with hist := k } := by
    rw [← memory_eq_of_move hhost hstep, ← hreadData]
    rfl
  rwa [hto] at hstep'

/-- Any number of steps keeps two machines alike. -/
theorem run_swap {R : History → History → Prop} {r : Option Word} (hR : ReadsAlike R)
    {k : Nat} : ∀ {s t : State} {h : History}, s.host = [] → R s.hist h →
      core.run k s = .next t →
      ∃ h', core.run k (s.swap h s.mem r) = .next (t.swap h' s.mem r) := by
  induction k with
  | zero =>
    intro s t h _ _ hrun
    cases hrun
    exact ⟨h, rfl⟩
  | succ k ih =>
    intro s t h hhost hs hrun
    obtain ⟨u, hstep, hrest⟩ := run_succ_eq_next hrun
    obtain ⟨h1, hstep', hu⟩ :=
      step_swap (m := s.mem) (r := r) hR hhost hs (fun _ _ => rfl) hstep
    have hhost' : u.host = [] := (step_move hhost hstep).frame.1.host.trans hhost
    obtain ⟨h2, hrun'⟩ := ih hhost' hu hrest
    rw [memory_eq_of_move hhost hstep] at hrun'
    exact ⟨h2, by rw [run_succ hstep', hrun']⟩

/-- The start step leaves two machines alike: only the stale history bytes and the word the host
last read are those of the past (R160). -/
theorem start_swap {s s' : State} (hbase : s.inBase = s'.inBase) (hsize : s.inSize = s'.inSize)
    (hmax : s.maxBytes = s'.maxBytes) (hmem : s.mem = s'.mem) (f : BitVec 2) :
    start { s'.setHost [] with fmt := f } =
      (start { s.setHost [] with fmt := f }).swap s'.hist.clear s.mem s'.readData := by
  simp only [start, State.setHost, State.swap, hbase, hsize, hmax, hmem]

/-- Settles O53: after the start step the machines are alike, and stay so. -/
theorem operationsForgetThePast : Obligations.OperationsForgetThePast := by
  intro s s' v k t hidle hidle' hbase hsize hmax hmem hhost hhost' hstart hrun
  have hstep := step_ctrl_write hidle hhost
  have hstep' := step_ctrl_write hidle' hhost'
  rw [writeCtrl_start hstart] at hstep hstep'
  rw [run_succ hstep] at hrun
  have hcleared : AgreeBelow s.hist.clear s'.hist.clear :=
    ⟨Nat.zero_le _, rfl, by simp⟩
  obtain ⟨h, hrun'⟩ := run_swap (r := s'.readData) readsAlike_agreeBelow rfl hcleared hrun
  refine ⟨t.swap h s.mem s'.readData, ?_, rfl, fun off => rfl⟩
  rw [run_succ hstep', start_swap hbase hsize hmax hmem]
  exact hrun'

end Sys2Proof.Machine

/-! The host's side (spec/10_state.md R21 to R39, R43; spec/20_memory.md R60, R79;
spec/70_reset_and_hazards.md R301): register accesses, the STATUS word, input bytes, and what can
begin an operation. -/

namespace Sys2Proof.Machine

/-! ### Register accesses -/

/-- While not busy a write of IN_BASE, IN_SIZE or MAX_BYTES stores the word (R31 to R33). -/
theorem writeReg_inBase {s : State} (hidle : s.busy = false) (v : Word) :
    writeReg s 0x08 v = { s with inBase := v } := by simp [writeReg, hidle]

theorem writeReg_inSize {s : State} (hidle : s.busy = false) (v : Word) :
    writeReg s 0x0C v = { s with inSize := v } := by simp [writeReg, hidle]

theorem writeReg_maxBytes {s : State} (hidle : s.busy = false) (v : Word) :
    writeReg s 0x10 v = { s with maxBytes := v } := by simp [writeReg, hidle]

/-- A write of STATUS, of a read-only register or of no register changes nothing (R21, R25). -/
theorem writeReg_readOnly {off : Nat} (hoff : off = 0x04 ∨ 0x14 ≤ off) (s : State) (v : Word) :
    writeReg s off v = s := by
  have h00 : off ≠ 0x00 := by omega
  have h08 : off ≠ 0x08 := by omega
  have h0C : off ≠ 0x0C := by omega
  have h10 : off ≠ 0x10 := by omega
  simp only [writeReg, h00, h08, h0C, h10, if_false, ite_self]

/-- Settles O45: each write is served, and is one of those above. -/
theorem registerWrites : Obligations.RegisterWrites := by
  intro s off v rest hhost
  refine ⟨?_, ?_, ?_, fun halign hwindow hoff => ?_⟩
  · rintro hidle rfl
    rw [step_write_word hhost (by decide) (by decide), writeReg_inBase (by simpa using hidle)]
    rfl
  · rintro hidle rfl
    rw [step_write_word hhost (by decide) (by decide), writeReg_inSize (by simpa using hidle)]
    rfl
  · rintro hidle rfl
    rw [step_write_word hhost (by decide) (by decide), writeReg_maxBytes (by simpa using hidle)]
    rfl
  · rw [step_write_word hhost halign hwindow, writeReg_readOnly hoff]
    rfl

/-- CTRL reads FMT in bits 2:1 and every other bit 0 (R22). -/
theorem readReg_ctrl_toNat (s : State) : (readReg s 0x00).toNat = 2 * s.fmt.toNat := by
  rw [readReg, if_pos rfl, append_toNat, append_toNat]
  simp [Nat.mul_comm]

/-- The offsets from 0x28 on name no register (R21). -/
theorem readReg_none {off : Nat} (hoff : 0x28 ≤ off) (s : State) : readReg s off = 0 := by
  simp only [readReg]
  rw [if_neg (by omega), if_neg (by omega), if_neg (by omega), if_neg (by omega),
    if_neg (by omega), if_neg (by omega), if_neg (by omega), if_neg (by omega), if_neg (by omega),
    if_neg (by omega)]

/-- Settles O46: the read is served, and each register holds its field. -/
theorem registerReads : Obligations.RegisterReads := by
  intro s off rest hhost halign hwindow
  refine ⟨readReg s off, step_read_word hhost halign hwindow, ?_, ?_, ?_, ?_, ?_, ?_, ?_, ?_, ?_,
    ?_, fun hoff => readReg_none hoff s⟩
  all_goals rintro rfl
  · exact readReg_ctrl_toNat s
  · rfl
  · rfl
  · rfl
  · rfl
  · rfl
  · rfl
  · exact BitVec.toNat_ofNat _ 32
  · exact BitVec.toNat_ofNat _ 32
  · exact BitVec.toNat_ofNat _ 32

/-- A register access the port refuses, read or write (R21). -/
theorem step_refused {s : State} {off width : Nat} {v : Word} {rest : List HostEvent}
    {r : Refusal} (hhost : s.host = .write off width v :: rest ∨ s.host = .read off width :: rest)
    (hrefused : portRefuses off width = some r) : step s = .refused r := by
  rcases hhost with hhost | hhost <;> rw [step_host hhost, hostStep, hrefused]

/-- Settles O47: the port looks at the width, then at the alignment. -/
theorem oddAccessesRefused : Obligations.OddAccessesRefused := by
  intro s off width v rest hhost
  refine ⟨fun hwidth => step_refused hhost (if_pos hwidth), ?_⟩
  rintro rfl halign
  exact step_refused hhost ((if_neg (not_not.mpr rfl)).trans (if_pos halign))

/-! ### STATUS (R25, R30, R43) -/

/-- A concatenation with one more bit below: bit 0. -/
theorem getLsbD_append_ofBool_zero {n : Nat} (x : BitVec n) (b : Bool) :
    (x ++ BitVec.ofBool b).getLsbD 0 = b := by
  rw [BitVec.getLsbD_append]
  simp

/-- A concatenation with one more bit below: the bits above. -/
theorem getLsbD_append_ofBool_succ {n : Nat} (x : BitVec n) (b : Bool) (i : Nat) :
    (x ++ BitVec.ofBool b).getLsbD (i + 1) = x.getLsbD i := by
  rw [BitVec.getLsbD_append]
  simp

theorem status_busy (s : State) : s.status.getLsbD 0 = s.busy :=
  getLsbD_append_ofBool_zero _ _

theorem status_done (s : State) : s.status.getLsbD 1 = (s.phase == .done) := by
  rw [State.status, getLsbD_append_ofBool_succ, getLsbD_append_ofBool_zero]

theorem status_error (s : State) : s.status.getLsbD 2 = (s.phase == .error) := by
  rw [State.status, getLsbD_append_ofBool_succ, getLsbD_append_ofBool_succ,
    getLsbD_append_ofBool_zero]

theorem status_capped (s : State) : s.status.getLsbD 3 = s.capped := by
  rw [State.status, getLsbD_append_ofBool_succ, getLsbD_append_ofBool_succ,
    getLsbD_append_ofBool_succ, getLsbD_append_ofBool_zero]

/-- STATUS as a number: ERR_CODE above the four flags (R25). -/
theorem status_toNat (s : State) :
    s.status.toNat = (((s.errCode.toNat * 2 + s.capped.toNat) * 2 + (s.phase == .error).toNat) * 2
      + (s.phase == .done).toNat) * 2 + s.busy.toNat := by
  rw [State.status, append_toNat, append_toNat, append_toNat, append_toNat, append_toNat]
  simp

theorem status_errCode (s : State) : s.status.extractLsb' 4 4 = s.errCode := by
  apply BitVec.eq_of_toNat_eq
  rw [extract_toNat, status_toNat]
  have := s.errCode.isLt
  have := s.capped.toNat_lt
  have := (s.phase == .error).toNat_lt
  have := (s.phase == .done).toNat_lt
  have := s.busy.toNat_lt
  omega

theorem status_lt (s : State) : s.status.toNat < 256 := by
  rw [status_toNat]
  have := s.errCode.isLt
  have := s.capped.toNat_lt
  have := (s.phase == .error).toNat_lt
  have := (s.phase == .done).toNat_lt
  have := s.busy.toNat_lt
  omega

/-- ERR_CODE is nonzero where there is an error class (R30). -/
theorem errCode_ne_zero (s : State) : s.errCode ≠ 0 ↔ s.err.isSome = true := by
  rw [State.errCode]
  cases s.err with
  | none => simp
  | some e => cases e <;> simp [ErrClass.code]

/-- In IDLE of the invariant every field of STATUS is 0. -/
theorem Inv.status_idle {s : State} (hinv : Inv s) (hidle : s.phase = .idle) : s.status = 0 := by
  have hcapped : s.capped = false := by
    by_contra h
    cases (hinv.cappedDone (by simpa using h)).symm.trans hidle
  have herr : s.err = none := by
    by_contra h
    cases (hinv.errIff.mp (Option.isSome_iff_ne_none.mpr h)).symm.trans hidle
  apply BitVec.eq_of_toNat_eq
  rw [status_toNat, State.errCode, herr, hcapped, hidle, State.busy, hidle]
  rfl

/-- Settles O48, field by field. -/
theorem statusBits : Obligations.StatusBits := by
  intro s hinv
  rw [status_busy, status_done, status_error, status_capped, status_errCode]
  refine ⟨busy_iff, beq_iff_eq, beq_iff_eq, Iff.rfl, fun h => beq_iff_eq.mpr (hinv.cappedDone h),
    ?_, ?_, status_lt s, hinv.status_idle⟩
  · rw [errCode_ne_zero, beq_iff_eq]
    exact hinv.errIff
  · rw [State.errCode]
    cases s.err with
    | none => rfl
    | some e => cases e <;> rfl

/-! ### The input memory (R60, R79) -/

/-- Settles O50: the memory's own laws, and the port's check while busy. -/
theorem hostInputSetsOneByte : Obligations.HostInputSetsOneByte := by
  intro s a b rest hwf hhost
  rw [step_host hhost]
  refine ⟨fun hidle => ?_, fun hbusy hne => ?_⟩
  · have hnot : ¬ ((s.setHost rest).busy = true ∧ (s.setHost rest).mem.read a ≠ b) := by
      simp [hidle]
    exact ⟨_, if_neg hnot, Memory.read_write_same s.mem hwf a b,
      fun a' ha => Memory.read_write_other s.mem ha b, rfl⟩
  · exact if_pos ⟨hbusy, hne⟩

/-! ### What begins an operation (R24, R301) -/

/-- A register write makes a block busy only as the start step. -/
theorem writeReg_starts {s : State} {off : Nat} {v : Word} (hidle : s.busy = false)
    (hbusy : (writeReg s off v).busy = true) : off = 0x00 ∧ v.getLsbD 0 = true := by
  rcases writeReg_cases s off v with e | ⟨-, hoff, hstart, -⟩ | ⟨-, -, -, e⟩ | ⟨-, e⟩ | ⟨-, e⟩ |
    ⟨-, e⟩
  · rw [e, hidle] at hbusy
    cases hbusy
  · exact ⟨hoff, hstart⟩
  all_goals
    rw [e] at hbusy
    cases hidle.symm.trans hbusy

/-- A host access that is served makes a block busy only as a CTRL write with START = 1. -/
theorem hostStep_starts {s t : State} {e : HostEvent} (hidle : s.busy = false)
    (h : hostStep e s = .next t) (hbusy : t.busy = true) :
    ∃ v, e = .write 0x00 4 v ∧ v.getLsbD 0 = true := by
  cases e with
  | write off width v =>
    cases hport : portRefuses off width with
    | some r => simp [hostStep, hport] at h
    | none =>
      simp only [hostStep, hport, Host.Outcome.next.injEq] at h
      subst h
      obtain ⟨rfl, -, -⟩ := portRefuses_none.mp hport
      obtain ⟨rfl, hstart⟩ := writeReg_starts hidle hbusy
      exact ⟨v, rfl, hstart⟩
  | read off width =>
    cases hport : portRefuses off width with
    | some r => simp [hostStep, hport] at h
    | none =>
      simp only [hostStep, hport, Host.Outcome.next.injEq] at h
      subst h
      cases hidle.symm.trans hbusy
  | input a b =>
    have hnot : ¬ (s.busy = true ∧ s.mem.read a ≠ b) := by simp [hidle]
    rw [hostStep, hostInput, if_neg hnot] at h
    cases h
    cases hidle.symm.trans hbusy
  | reset =>
    cases h
    cases hbusy
  | engine =>
    rw [hostStep, engineStep_idle hidle] at h
    cases h
    cases hidle.symm.trans hbusy

/-- Settles O42: with no access pending the engine stays put. -/
theorem onlyStartWriteBegins : Obligations.OnlyStartWriteBegins := by
  intro s t hidle hstep hbusy
  cases hhost : s.host with
  | nil =>
    rw [step_engine hhost, engineStep_idle hidle] at hstep
    cases hstep
    cases hidle.symm.trans hbusy
  | cons e rest =>
    rw [step_host hhost] at hstep
    obtain ⟨v, rfl, hstart⟩ := hostStep_starts (by simpa using hidle) hstep hbusy
    exact ⟨v, rest, rfl, hstart⟩

end Sys2Proof.Machine

/-! The invariant of the machine's states (spec/10_state.md section 3; spec/20_memory.md R65, R68;
spec/41_copy_engine.md): it holds after reset, every step keeps it, and from it the engine never
stops. -/

namespace Sys2Proof.Machine

/-! ### The invariant, in the parts its proof turns on -/

/-- The part of the invariant that is of no phase: memory, counter, output and history. -/
structure Sound (s : State) : Prop where
  memWf : s.mem.wf
  ctlBits : s.cur.ctlBits ≤ 8
  counted : s.written.toNat = s.out.length
  histRoom : s.hist.size < Config.histParams.capacity
  histFits : s.hist.bytes.length ≤ Config.histParams.capacity
  histHolds : s.hist.Holds s.out
  histReach : min s.out.length (Config.histParams.capacity - Config.histParams.compact)
    ≤ s.hist.size

/-- The part that holds while commands and copies run: sizes, limits and unused pointers. -/
structure Running (s : State) : Prop where
  noErr : s.err = none
  notCapped : s.capped = false
  fmtLegal : s.fmt ≠ 3
  sizeAhead : s.fmt ≠ 0 → s.written.toNat < s.total.toNat
  capAhead : s.fmt = 0 → s.maxBytes ≠ 0 → s.written.toNat < s.maxBytes.toNat
  limitKept : s.fmt ≠ 0 → s.maxBytes ≠ 0 → s.written.toNat ≤ s.maxBytes.toNat
  unused : s.fmt = 0 ∨ s.fmt = 1 → s.cur.cntPos = 0 ∧ s.cur.datPos = 0
  noSize : s.fmt = 0 → s.total = 0

/-- The part that is of a copy in progress (R168, R217). -/
structure Copying (s : State) : Prop where
  legal : 1 ≤ s.copyDist ∧ s.copyDist ≤ Config.prsLongMaxDist ∧ s.copyDist ≤ s.out.length ∧
    1 ≤ s.copyRem ∧ s.copyRem ≤ 273
  inside : s.fmt ≠ 0 → s.written.toNat + s.copyRem ≤ s.total.toNat ∧
    (s.maxBytes ≠ 0 → s.written.toNat + s.copyRem ≤ s.maxBytes.toNat)

theorem Inv.sound {s : State} (h : Inv s) : Sound s :=
  ⟨h.memWf, h.ctlBits, h.counted, h.histRoom, h.histFits, h.histHolds, h.histReach⟩

theorem Inv.noErr {s : State} (h : Inv s) (hphase : s.phase ≠ .error) : s.err = none := by
  by_contra herr
  exact hphase (h.errIff.mp (Option.isSome_iff_ne_none.mpr herr))

theorem Inv.notCapped {s : State} (h : Inv s) (hphase : s.phase ≠ .done) : s.capped = false := by
  by_contra hcapped
  exact hphase (h.cappedDone (by simpa using hcapped))

theorem Inv.running {s : State} (h : Inv s) (hdec : s.decoding) : Running s where
  noErr := h.noErr (by rcases hdec with hp | hp <;> simp [hp])
  notCapped := h.notCapped (by rcases hdec with hp | hp <;> simp [hp])
  fmtLegal := h.fmtLegal hdec
  sizeAhead := h.sizeAhead hdec
  capAhead := h.capAhead hdec
  limitKept := h.limitKept hdec
  unused := h.unused hdec
  noSize := h.noSize hdec

theorem Inv.copying {s : State} (h : Inv s) (hphase : s.phase = .copy) : Copying s :=
  ⟨h.copyLegal hphase, h.copyInside hphase⟩

/-- Where no operation runs, the invariant is that of no phase and the STATUS rules (R25). -/
theorem inv_idle {s : State} (hs : Sound s) (hidle : s.busy = false)
    (herr : s.err.isSome = true ↔ s.phase = .error) (hcapped : s.capped = true → s.phase = .done) :
    Inv s := by
  have hheader : s.phase ≠ .header := by rintro hp; simp [State.busy, hp] at hidle
  have hcmd : s.phase ≠ .cmd := by rintro hp; simp [State.busy, hp] at hidle
  have hcopy : s.phase ≠ .copy := by rintro hp; simp [State.busy, hp] at hidle
  have hdec : ¬ s.decoding := not_or.mpr ⟨hcmd, hcopy⟩
  exact ⟨hs.memWf, hs.ctlBits, hs.counted, hs.histRoom, hs.histFits, hs.histHolds, hs.histReach,
    herr, hcapped, fun h => absurd h hdec, fun h => absurd h hcopy, fun h => absurd h hdec,
    fun h => absurd h hcopy, fun h => absurd h hdec, fun h => absurd h hdec,
    fun h => absurd h hheader, fun h => absurd h hdec, fun h => absurd h hdec⟩

theorem inv_raise {s : State} (hs : Sound s) (hcapped : s.capped = false) (e : ErrClass) :
    Inv (raise e s) :=
  inv_idle (s := raise e s) ⟨hs.memWf, hs.ctlBits, hs.counted, hs.histRoom, hs.histFits,
    hs.histHolds, hs.histReach⟩ rfl (by simp) (by simp [hcapped])

theorem inv_done {s : State} (hs : Sound s) (hphase : s.phase = .done) (herr : s.err = none) :
    Inv s :=
  inv_idle hs (by simp [State.busy, hphase]) (by simp [herr, hphase]) fun _ => hphase

theorem inv_cmd {s : State} (hs : Sound s) (hr : Running s) (hphase : s.phase = .cmd) : Inv s :=
  ⟨hs.memWf, hs.ctlBits, hs.counted, hs.histRoom, hs.histFits, hs.histHolds, hs.histReach,
    by simp [hr.noErr, hphase], by simp [hr.notCapped], fun _ => hr.fmtLegal,
    fun h => by simp [hphase] at h, fun _ => hr.sizeAhead, fun h => by simp [hphase] at h,
    fun _ => hr.capAhead, fun _ => hr.limitKept, fun h => by simp [hphase] at h,
    fun _ => hr.unused, fun _ => hr.noSize⟩

theorem inv_copy {s : State} (hs : Sound s) (hr : Running s) (hc : Copying s)
    (hphase : s.phase = .copy) : Inv s :=
  ⟨hs.memWf, hs.ctlBits, hs.counted, hs.histRoom, hs.histFits, hs.histHolds, hs.histReach,
    by simp [hr.noErr, hphase], by simp [hr.notCapped], fun _ => hr.fmtLegal,
    fun _ => hc.legal, fun _ => hr.sizeAhead, fun _ => hc.inside,
    fun _ => hr.capAhead, fun _ => hr.limitKept, fun h => by simp [hphase] at h,
    fun _ => hr.unused, fun _ => hr.noSize⟩

/-! ### Reset and the start step -/

/-- An empty output and an empty history. -/
theorem sound_empty {s : State} (hmem : s.mem.wf) (hbits : s.cur.ctlBits = 0)
    (hwritten : s.written = 0) (hout : s.out = []) (hsize : s.hist.size = 0)
    (hfits : s.hist.bytes.length ≤ Config.histParams.capacity) : Sound s where
  memWf := hmem
  ctlBits := by omega
  counted := by rw [hwritten, hout]; rfl
  histRoom := by rw [hsize]; decide
  histFits := hfits
  histHolds := ⟨by omega, by omega, by simp [hsize, hout]⟩
  histReach := by simp [hout]

theorem resetEvent_inv {s : State} (hmem : s.mem.wf) : Inv (resetEvent s) :=
  inv_idle (sound_empty hmem rfl rfl rfl rfl (Nat.zero_le _)) rfl (by simp) (by simp)

/-- Settles O34: the reset state is what the reset event leaves of itself. -/
theorem resetMeetsInvariant : Obligations.ResetMeetsInvariant :=
  resetEvent_inv (s := State.reset) Memory.reset_wf

theorem start_inv {s : State} (hmem : s.mem.wf)
    (hfits : s.hist.bytes.length ≤ Config.histParams.capacity) : Inv (start s) := by
  have hs : Sound (start s) := sound_empty hmem rfl rfl rfl rfl hfits
  have hdec : ¬ (start s).decoding := by simp [State.decoding]
  exact ⟨hs.memWf, hs.ctlBits, hs.counted, hs.histRoom, hs.histFits, hs.histHolds, hs.histReach,
    by simp, by simp, fun h => absurd h hdec, nofun, fun h => absurd h hdec,
    nofun, fun h => absurd h hdec, fun h => absurd h hdec,
    fun _ => ⟨rfl, rfl, rfl⟩, fun h => absurd h hdec, fun h => absurd h hdec⟩

/-! ### Steps of the host -/

theorem Inv.setHost {s : State} (h : Inv s) (l : List HostEvent) : Inv (s.setHost l) :=
  { h with }

theorem Inv.setReadData {s : State} (h : Inv s) (w : Option Word) :
    Inv { s with readData := w } :=
  { h with }

theorem Inv.setMem {s : State} (h : Inv s) {m : Memory} (hm : m.wf) : Inv { s with mem := m } :=
  { h with memWf := hm }

theorem Inv.writeReg {s : State} (h : Inv s) (off : Nat) (v : Word) :
    Inv (Machine.writeReg s off v) := by
  rcases writeReg_cases s off v with e | ⟨-, -, -, e⟩ | ⟨hidle, -, -, e⟩ | ⟨hidle, e⟩ |
    ⟨hidle, e⟩ | ⟨hidle, e⟩
  · rwa [e]
  · rw [e]
    exact start_inv h.memWf h.histFits
  all_goals
    rw [e]
    exact inv_idle { h.sound with } hidle h.errIff h.cappedDone

theorem Inv.hostInput {s t : State} (h : Inv s) {a : Nat} {b : Byte}
    (hstep : Machine.hostInput a b s = .next t) : Inv t := by
  unfold Machine.hostInput at hstep
  split at hstep
  · cases hstep
  · cases hstep
    exact h.setMem (Memory.write_wf h.memWf a b)

/-! ### An emitted byte -/

theorem Sound.emitted {s : State} (h : Sound s) (hbelow : s.written ≠ 0xFFFFFFFF) (b : Byte)
    (n : Nat) (p : Phase) : Sound (Machine.emitted b n p s) where
  memWf := h.memWf
  ctlBits := h.ctlBits
  counted := by
    rw [emitted_written, emitted_out, written_succ hbelow, h.counted, List.length_append,
      List.length_singleton]
  histRoom := by
    have hroom := h.histRoom
    rw [emitted_hist, History.append_size]
    rw [histParams_capacity] at hroom ⊢
    rw [histParams_compact]
    split <;> omega
  histFits := History.append_length h.histHolds.inside h.histRoom h.histFits b
  histHolds := h.histHolds.append b
  histReach := by
    have hreach := h.histReach
    rw [emitted_hist, emitted_out, History.append_size, List.length_append, List.length_singleton]
    rw [histParams_capacity, histParams_compact] at *
    split <;> omega

/-- Words with equal numbers are equal. -/
theorem word_ne_toNat {v w : Word} (h : v ≠ w) : v.toNat ≠ w.toNat :=
  fun e => h (BitVec.eq_of_toNat_eq e)

/-- A byte that is neither the cap's nor the declared size's last keeps both ahead. -/
theorem Running.emitted {s : State} (h : Running s) (hbelow : s.written ≠ 0xFFFFFFFF)
    (hlimit : s.fmt ≠ 0 → s.maxBytes ≠ 0 → s.written.toNat + 1 ≤ s.maxBytes.toNat) {b : Byte}
    {n : Nat} {p : Phase} (hcap : ¬ (Machine.emitted b n p s).atCap)
    (hsize : ¬ (Machine.emitted b n p s).atSize) : Running (Machine.emitted b n p s) where
  noErr := h.noErr
  notCapped := h.notCapped
  fmtLegal := h.fmtLegal
  sizeAhead hfmt := by
    have hne := word_ne_toNat fun e => hsize ⟨hfmt, e⟩
    have hlt := h.sizeAhead hfmt
    rw [emitted_written, written_succ hbelow] at hne ⊢
    rw [emitted_total] at hne ⊢
    omega
  capAhead hfmt hmax := by
    have hne := word_ne_toNat fun e => hcap ⟨hfmt, hmax, e⟩
    have hlt := h.capAhead hfmt hmax
    rw [emitted_written, written_succ hbelow] at hne ⊢
    rw [emitted_maxBytes] at hne ⊢
    omega
  limitKept hfmt hmax := by
    rw [emitted_written, written_succ hbelow]
    exact hlimit hfmt hmax
  unused := h.unused
  noSize := h.noSize

/-- `AfterEmit` ends the operation, or leaves the state it was given. -/
theorem inv_afterEmit {s : State} (hs : Sound s) (herr : s.err = none)
    (hinside : ¬ s.atCap → ¬ s.atSize → Inv s) : Inv (afterEmit s) := by
  by_cases hcap : s.atCap
  · rw [afterEmit_atCap hcap]
    exact inv_done { hs with } rfl herr
  · by_cases hsize : s.atSize
    · rw [afterEmit_atSize hsize]
      exact inv_done { hs with } rfl herr
    · rw [afterEmit_inside hcap hsize]
      exact hinside hcap hsize

/-! ### Steps of the engine -/

/-- The cursor after a decoder's reads keeps the part of no phase. -/
theorem Sound.setCur {s : State} (h : Sound s) {S : Stream → Prop} {c : Cursor}
    (hwalk : Walk s.input S s.cur c) : Sound (s.setCur c) :=
  { h with ctlBits := hwalk.bits h.ctlBits }

/-- The reads of a PRS or Yaz0 command leave the count and data pointers at 0 (R37, R38). -/
theorem Running.setCur {s : State} (h : Running s) {slot : Slot} (hreads : Reads s slot)
    {c : Cursor} (hwalk : Walk s.input (slotStreams slot) s.cur c) : Running (s.setCur c) where
  noErr := h.noErr
  notCapped := h.notCapped
  fmtLegal := h.fmtLegal
  sizeAhead := h.sizeAhead
  capAhead := h.capAhead
  limitKept := h.limitKept
  noSize := h.noSize
  unused hfmt := by
    have hslot : slot ≠ .yay0Command := by
      rintro rfl
      cases hreads
      simp_all
    obtain ⟨hcnt, hdat⟩ := h.unused hfmt
    have hcnt' := hwalk.other .count (by simp [slotStreams, hslot])
    have hdat' := hwalk.other .data (by simp [slotStreams, hslot])
    exact ⟨hcnt'.trans hcnt, hdat'.trans hdat⟩

/-- The body of a header's operation: DONE, or the first command with bytes to produce. -/
theorem inv_enterBody {s : State} (hs : Sound s) (hr : s.total ≠ 0 → Running s)
    (herr : s.err = none) : Inv (enterBody s) := by
  unfold enterBody
  split
  · exact inv_done { hs with } rfl herr
  · next htotal => exact inv_cmd { hs with } { hr htotal with } rfl

/-- What a Yaz0 or Yay0 header leaves of a fresh operation is ready to run. -/
theorem running_of_header {s : State} (herr : s.err = none) (hcapped : s.capped = false)
    (hwritten : s.written = 0) (hfmt : s.fmt = 1 ∨ s.fmt = 2)
    (hunused : s.fmt = 1 → s.cur.cntPos = 0 ∧ s.cur.datPos = 0) (htotal : s.total ≠ 0) :
    Running s where
  noErr := herr
  notCapped := hcapped
  fmtLegal := by rcases hfmt with h | h <;> simp [h]
  sizeAhead _ := by
    rw [hwritten]
    exact toNat_pos_of_ne_zero htotal
  capAhead h0 := by rcases hfmt with h | h <;> simp [h] at h0
  limitKept _ _ := by simp [hwritten]
  unused h0 := by
    rcases hfmt with h | h
    · exact hunused h
    · simp [h] at h0
  noSize h0 := by rcases hfmt with h | h <;> simp [h] at h0

/-- An instruction that was read in a state of the invariant leads to one. -/
theorem ExecMove.inv {s t : State} {slot : Slot} {c : Cursor} (hinv : Inv s)
    (hreads : Reads s slot) (hwalk : Walk s.input (slotStreams slot) s.cur c)
    (hmove : ExecMove (s.setCur c) slot t) : Inv t := by
  have hphase := hreads.phase
  have herr : s.err = none := hinv.noErr (by rcases hphase with hp | hp <;> simp [hp])
  have hcapped : s.capped = false := hinv.notCapped (by rcases hphase with hp | hp <;> simp [hp])
  have hs := hinv.sound.setCur hwalk
  have hrun (hslot : isCommand slot) : Running (s.setCur c) :=
    (hinv.running (.inl (hreads.phase_cmd hslot))).setCur hreads hwalk
  cases hmove with
  | ended => exact inv_done { hs with } rfl herr
  | raised _ e => exact inv_raise hs hcapped e
  | literal _ b hslot hbelow hlimit =>
    have hs' := hs.emitted hbelow b (s.setCur c).copyRem (s.setCur c).phase
    refine inv_afterEmit hs' herr fun hcap hsize => ?_
    exact inv_cmd hs' ((hrun hslot).emitted hbelow
      (fun hfmt => hlimit (mt hreads.fmt_eq_zero.mpr hfmt)) hcap hsize) (hreads.phase_cmd hslot)
  | copy _ d n hslot hd hout hn hinside =>
    have hcount := hs.counted
    exact inv_copy { hs with } { hrun hslot with }
      ⟨⟨hd.1, hd.2, hcount ▸ hout, hn.1, hn.2⟩,
        fun hfmt => hinside (mt hreads.fmt_eq_zero.mpr hfmt)⟩ rfl
  | yaz0Header size =>
    cases hreads with
    | yaz0Header hheader hfmt =>
      obtain ⟨hcur, hwritten, -⟩ := hinv.fresh hheader
      have hcnt : c.cntPos = 0 := (hwalk.other .count (by simp [slotStreams])).trans (by
        rw [hcur]; rfl)
      have hdat : c.datPos = 0 := (hwalk.other .data (by simp [slotStreams])).trans (by
        rw [hcur]; rfl)
      exact inv_enterBody { hs with } (running_of_header (s := (s.setCur c).setTotal size) herr
        hcapped hwritten (.inl hfmt) fun _ => ⟨hcnt, hdat⟩) herr
  | yay0Header size co dof =>
    cases hreads with
    | yay0Header hheader hfmt =>
      obtain ⟨-, hwritten, -⟩ := hinv.fresh hheader
      exact inv_enterBody { hs with } (running_of_header (s := (s.setCur c).setYay0 size co dof)
        herr hcapped hwritten (.inr hfmt) fun h1 => by simp [hfmt] at h1) herr

/-- Every step of the engine keeps the invariant. -/
theorem EngineMove.inv {s t : State} (hinv : Inv s) (hmove : EngineMove s t) : Inv t := by
  cases hmove with
  | rest => exact hinv
  | prsHeader hphase hfmt =>
    obtain ⟨hcur, hwritten, htotal⟩ := hinv.fresh hphase
    have hs := hinv.sound
    refine inv_cmd { hs with } ⟨hinv.noErr (by simp [hphase]), hinv.notCapped (by simp [hphase]),
      by simp [hfmt], fun h => absurd hfmt h, fun _ hmax => ?_, fun h => absurd hfmt h, ?_,
      fun _ => htotal⟩ rfl
    · rw [setPhase_written, hwritten]
      exact toNat_pos_of_ne_zero hmax
    · simp [hcur]
  | reserved hphase => exact inv_raise hinv.sound (hinv.notCapped (by simp [hphase])) _
  | @short slot c d hreads hdec =>
    have hwalk := (decode_walks slot s.input s.cur).1
    rw [hdec] at hwalk
    have hs := hinv.sound.setCur hwalk
    exact inv_raise (s := (s.setCur c).setTotal (d.getD s.total)) { hs with } (hinv.notCapped (by
      rcases hreads.phase with hp | hp <;> simp [hp])) _
  | @wrongMagic slot c hreads hdec =>
    have hwalk := (decode_walks slot s.input s.cur).1
    rw [hdec] at hwalk
    exact inv_raise (hinv.sound.setCur hwalk) (hinv.notCapped (by
      rcases hreads.phase with hp | hp <;> simp [hp])) _
  | @instr slot i c _ hreads hdec hmove =>
    have hwalk := (decode_walks slot s.input s.cur).1
    rw [hdec] at hwalk
    exact hmove.inv hinv hreads hwalk
  | copyTop hphase => exact inv_raise hinv.sound (hinv.notCapped (by simp [hphase])) _
  | copyByte hphase b hrem hbelow =>
    obtain ⟨⟨hd1, hdmax, hdout, -, hremMax⟩, hinside⟩ := hinv.copying hphase
    have hrun := hinv.running (.inr hphase)
    have hs := hinv.sound.emitted hbelow b (s.copyRem - 1)
      (if s.copyRem - 1 = 0 then .cmd else .copy)
    refine inv_afterEmit hs hrun.noErr fun hcap hsize => ?_
    have hrun' := hrun.emitted hbelow (fun hfmt hmax => by
      have := (hinside hfmt).2 hmax
      omega) hcap hsize
    by_cases hlast : s.copyRem - 1 = 0
    · exact inv_cmd hs hrun' (by simp [hlast])
    · refine inv_copy hs hrun' ⟨⟨hd1, hdmax, ?_, ?_, ?_⟩, fun hfmt => ?_⟩ (by simp [hlast])
      · rw [emitted_out, emitted_copyDist, List.length_append]
        omega
      · rw [emitted_copyRem]
        omega
      · rw [emitted_copyRem]
        omega
      · obtain ⟨htotal, hmax⟩ := hinside hfmt
        rw [emitted_written, written_succ hbelow, emitted_copyRem, emitted_total,
          emitted_maxBytes]
        exact ⟨by omega, fun h0 => by have := hmax h0; omega⟩

/-- Every access of the host keeps the invariant. -/
theorem Inv.hostStep {s t : State} {e : HostEvent} (h : Inv s)
    (hstep : Machine.hostStep e s = .next t) : Inv t := by
  cases e with
  | write off width v =>
    cases hport : portRefuses off width with
    | some r => simp [Machine.hostStep, hport] at hstep
    | none =>
      simp only [Machine.hostStep, hport, Host.Outcome.next.injEq] at hstep
      exact hstep ▸ h.writeReg off v
  | read off width =>
    cases hport : portRefuses off width with
    | some r => simp [Machine.hostStep, hport] at hstep
    | none =>
      simp only [Machine.hostStep, hport, Host.Outcome.next.injEq] at hstep
      exact hstep ▸ h.setReadData (some (readReg s off))
  | input a b => exact h.hostInput hstep
  | reset =>
    cases hstep
    exact resetEvent_inv h.memWf
  | engine => exact (engineStep_move hstep).inv h

/-- Settles O35: a step is the host's next access or the engine's. -/
theorem stepKeepsInvariant : Obligations.StepKeepsInvariant := by
  intro s t hinv hstep
  cases hhost : s.host with
  | nil => exact (step_move hhost hstep).inv hinv
  | cons e rest =>
    rw [step_host hhost] at hstep
    exact (hinv.setHost rest).hostStep hstep

/-! ### The engine never stops -/

/-- A copy of the invariant has bytes left to the declared size, so no instruction faults (R217). -/
theorem exec_next {i : Instr} {s : State}
    (hsize : i.slot = .yaz0Command ∨ i.slot = .yay0Command →
      s.written.toNat < s.total.toNat) : ∃ t, exec i s = .next t := by
  have hlit (L : Byte) : ∃ t, (execLiteral L s).outcome = .next t := by
    rcases execLiteral_cases L s with ⟨-, e⟩ | ⟨-, e⟩ <;> exact ⟨_, by rw [e]; rfl⟩
  have hprs (d n : Nat) : ∃ t, (prsCopy d n s).outcome = .next t := by
    rcases prsCopy_cases d n s with ⟨-, e⟩ | ⟨-, e⟩ <;> exact ⟨_, by rw [e]; rfl⟩
  have hylit (L : Byte) : ∃ t, (yLitFinish L s).outcome = .next t := by
    rcases yLitFinish_cases L s with ⟨-, -, e⟩ | ⟨-, e⟩
    · exact ⟨_, by rw [e]; rfl⟩
    · exact e ▸ hlit L
  have hycopy (d n : Nat) (h : s.written.toNat < s.total.toNat) :
      ∃ t, (yCopyFinish d n s).outcome = .next t := by
    rcases yCopyFinish_cases d n s with ⟨-, e⟩ | ⟨-, hle, -⟩ | ⟨-, -, -, -, e⟩ | ⟨-, -, -, e⟩
    · exact ⟨_, by rw [e]; rfl⟩
    · omega
    · exact ⟨_, by rw [e]; rfl⟩
    · exact ⟨_, by rw [e]; rfl⟩
  cases i with
  | lit L => exact hlit L
  | scopy s1 s0 O => exact hprs _ _
  | lcopy2 f lll => exact hprs _ _
  | lcopy3 f N => exact hprs _ _
  | endMark => exact ⟨_, rfl⟩
  | yaz0Lit L => exact hylit L
  | yay0Lit L => exact hylit L
  | yaz0Copy2 n D => exact hycopy _ _ (hsize (.inl rfl))
  | yaz0Copy3 D E => exact hycopy _ _ (hsize (.inl rfl))
  | yay0Copy2 n D => exact hycopy _ _ (hsize (.inr rfl))
  | yay0Copy3 D E => exact hycopy _ _ (hsize (.inr rfl))
  | yaz0Header size padding => exact ⟨_, rfl⟩
  | yay0Header size co dof => exact ⟨_, rfl⟩

theorem Reads.engineStep_next {s : State} {slot : Slot} (hinv : Inv s) (hreads : Reads s slot) :
    ∃ t, Machine.engineStep s = .next t := by
  rw [hreads.engineStep]
  cases hdec : decode slot s.input s.cur with
  | instr i c =>
    refine exec_next (s := s.setCur c) fun hslot => ?_
    rw [(decodedCommandStands slot s.input s.cur c i hdec).1] at hslot
    have hcmd : isCommand slot := by rcases hslot with rfl | rfl <;> exact ⟨nofun, nofun⟩
    refine hinv.sizeAhead (.inl (hreads.phase_cmd hcmd)) (mt hreads.fmt_eq_zero.mp ?_)
    rcases hslot with rfl | rfl <;> nofun
  | truncated c d => cases d <;> exact ⟨_, rfl⟩
  | unrecognized c => exact ⟨_, rfl⟩

/-- Settles O36, phase by phase: a slot is read, or a byte of a copy whose distance is in reach. -/
theorem engineNeverStops : Obligations.EngineNeverStops := by
  intro s hinv hhost
  rw [step_engine hhost]
  cases hphase : s.phase with
  | header =>
    rcases fmt_cases s.fmt with hfmt | hfmt | hfmt | hfmt
    · exact ⟨_, by rw [engineStep, hphase, headerStep_prs hfmt]⟩
    · exact (Reads.yaz0Header hphase hfmt).engineStep_next hinv
    · exact (Reads.yay0Header hphase hfmt).engineStep_next hinv
    · exact ⟨_, by rw [engineStep, hphase, headerStep_reserved hfmt]⟩
  | cmd =>
    rcases fmt_cases s.fmt with hfmt | hfmt | hfmt | hfmt
    · exact (Reads.prsCommand hphase hfmt).engineStep_next hinv
    · exact (Reads.yaz0Command hphase hfmt).engineStep_next hinv
    · exact (Reads.yay0Command hphase hfmt).engineStep_next hinv
    · exact absurd hfmt (hinv.fmtLegal (.inl hphase))
  | copy =>
    obtain ⟨b, hread, -⟩ := hinv.copy_read hphase
    obtain ⟨-, -, -, hrem, -⟩ := hinv.copyLegal hphase
    rw [engineStep, hphase]
    rcases copyStep_cases s with ⟨h0, -⟩ | ⟨-, hnone, -⟩ | ⟨-, b', -, ⟨-, e⟩ | ⟨-, e⟩⟩
    · omega
    · rw [hread] at hnone
      cases hnone
    · exact ⟨_, by rw [e]; rfl⟩
    · exact ⟨_, by rw [e]; rfl⟩
  | idle | done | error => exact ⟨s, by rw [engineStep, hphase]⟩

end Sys2Proof.Machine

/-! Compaction is transparent for every pair of history sizes the spec allows (spec/20_memory.md
R66, R68; spec/00_scope.md R6). -/

namespace Sys2Proof.Machine

/-- Appends to an empty history keep it the newest part of what was appended, and keep in reach
what a compaction keeps. -/
theorem History.foldl_append_holds {p : Config.HistParams} (h : History) (out : List Byte) :
    (out.foldl (History.append p) h.clear).Holds out ∧
      min out.length (p.capacity - p.compact) ≤ (out.foldl (History.append p) h.clear).size := by
  induction out using List.reverseRecOn with
  | nil => exact ⟨History.Holds.nil h, by simp⟩
  | append_singleton out b ih =>
    obtain ⟨hholds, hreach⟩ := ih
    rw [List.foldl_concat]
    refine ⟨hholds.append b, ?_⟩
    rw [History.append_size, List.length_append, List.length_singleton]
    split <;> omega

/-- Settles O33, by induction on the appends: what is in reach reads as in the output. -/
theorem compactionIsTransparent : Obligations.CompactionIsTransparent := by
  intro p h out d _ h1 hd
  obtain ⟨hholds, hreach⟩ := History.foldl_append_holds (p := p) h out
  have hin := hd.trans hreach
  exact ⟨hin, hholds.read h1 hin⟩

end Sys2Proof.Machine

/-! A placed table word is what the next step reads and runs (log entry 9; spec/41_copy_engine.md
section 1): a code stands wherever its bytes are moved to, and the word's bytes are moved to the
main pointer. -/

namespace Sys2Proof.Machine

/-! ### Moving a code -/

/-- The cursor with each stream's pointer moved by its own offset. -/
def shiftCursor (off : Stream → Nat) (c : Cursor) : Cursor :=
  { c with
    inPos := c.inPos + off .main, cntPos := c.cntPos + off .count, datPos := c.datPos + off .data }

theorem ptr_shiftCursor (off : Stream → Nat) (c : Cursor) (p : Stream) :
    (shiftCursor off c).ptr p = c.ptr p + off p := by
  cases p <;> rfl

theorem shiftCursor_advance (off : Stream → Nat) (c : Cursor) (p : Stream) :
    shiftCursor off (c.advance p) = (shiftCursor off c).advance p := by
  cases p <;> simp [shiftCursor, Cursor.advance, Nat.add_right_comm]

section shift
variable {inp inp' : Input} {off : Stream → Nat}

/-- Control bits come out alike where the main stream's bytes have been moved. -/
theorem TakesBits.shift {rd : Input → Cursor → Got Bool} {bit : Byte → Nat → Bool}
    {shift : Byte → Nat → Byte} (hrd : TakesBits rd bit shift)
    (hmain : ∀ a b, inp a = some b → inp' (a + off .main) = some b) {c m : Cursor} {x : Bool}
    (h : rd inp c = .ok x m) : rd inp' (shiftCursor off c) = .ok x (shiftCursor off m) := by
  rw [hrd.reads] at h ⊢
  by_cases h0 : c.ctlBits = 0
  · cases hb : inp c.inPos with
    | none =>
      rw [refill, if_pos h0, hb] at h
      cases h
    | some b =>
      rw [refill_fetched h0 hb] at h
      rw [refill_fetched (c := shiftCursor off c) h0 (hmain _ _ hb)]
      cases h
      simp [fetched, shiftCursor, Nat.add_right_comm]
  · rw [refill_left h0] at h
    rw [refill_left (c := shiftCursor off c) h0]
    cases h
    rfl

theorem bitsStand_shift (hmain : ∀ a b, inp a = some b → inp' (a + off .main) = some b)
    (slot : Slot) {bs : List Bool} : ∀ {c m : Cursor},
      bitsStand (slotReader slot) inp bs c m →
      bitsStand (slotReader slot) inp' bs (shiftCursor off c) (shiftCursor off m) := by
  induction bs with
  | nil =>
    rintro c m rfl
    rfl
  | cons b bs ih =>
    rintro c m ⟨m1, hb, hrest⟩
    refine ⟨shiftCursor off m1, ?_, ih hrest⟩
    cases slot with
    | prsCommand => exact readBitPRS_takesBits.shift hmain hb
    | yaz0Command | yay0Command | yaz0Header | yay0Header =>
      exact readBitY_takesBits.shift hmain hb

theorem payloadStands_shift {payload : List (Stream × Byte)} : ∀ {c c' : Cursor},
    (∀ x ∈ payload, ∀ a b, inp a = some b → inp' (a + off x.1) = some b) →
    payloadStands inp payload c c' →
    payloadStands inp' payload (shiftCursor off c) (shiftCursor off c') := by
  induction payload with
  | nil =>
    rintro c c' _ rfl
    rfl
  | cons x rest ih =>
    rintro c c' hbytes ⟨hb, hrest⟩
    refine ⟨?_, ?_⟩
    · rw [ptr_shiftCursor]
      exact hbytes x List.mem_cons_self _ _ hb
    · rw [← shiftCursor_advance]
      exact ih (fun y hy => hbytes y (List.mem_cons_of_mem x hy)) hrest

/-- A code stands where the bytes of its streams have been moved. -/
theorem standsAt_shift {i : Instr} {c c' : Cursor}
    (hbytes : ∀ p, slotStreams i.slot p → ∀ a b, inp a = some b → inp' (a + off p) = some b)
    (h : standsAt inp i c c') : standsAt inp' i (shiftCursor off c) (shiftCursor off c') := by
  obtain ⟨m, hbits, hpayload⟩ := standsAt_iff.mp h
  refine standsAt_iff.mpr ⟨shiftCursor off m, bitsStand_shift (hbytes .main (.inl rfl)) _ hbits,
    payloadStands_shift (fun x hx => hbytes x.1 ?_) hpayload⟩
  by_cases hslot : i.slot = .yay0Command
  · exact .inr hslot
  · exact .inl ((codeShape i).2 hslot x hx)

end shift

/-! ### Bytes laid out in memory -/

theorem Memory.read_writeAll_before (bs : List Byte) : ∀ (m : Memory) {p a : Nat}, a < p →
    (m.writeAll p bs).read a = m.read a := by
  induction bs with
  | nil => exact fun _ _ _ _ => rfl
  | cons b bs ih =>
    intro m p a h
    rw [Memory.writeAll, ih _ (by omega), Memory.read_write_other m (by omega)]

/-- Consecutive bytes read as they were set. -/
theorem Memory.read_writeAll (bs : List Byte) : ∀ {m : Memory}, m.wf → ∀ {p k : Nat} {b : Byte},
    bs[k]? = some b → (m.writeAll p bs).read (p + k) = b := by
  induction bs with
  | nil => exact fun _ _ _ _ h => by cases h
  | cons b0 bs ih =>
    intro m hm p k b h
    cases k with
    | zero =>
      cases h
      rw [Memory.writeAll, Memory.read_writeAll_before bs _ (by omega), Nat.add_zero,
        Memory.read_write_same m hm]
    | succ k =>
      rw [Memory.writeAll, show p + (k + 1) = p + 1 + k by omega]
      exact ih (Memory.write_wf hm p b0) h

/-! ### The placed word -/

/-- Selecting a slot sets FMT and the phase alone (R162, R163). -/
theorem selectSlot_frame (slot : Slot) (s : State) :
    (selectSlot slot s).cur = s.cur ∧ (selectSlot slot s).mem = s.mem ∧
      (selectSlot slot s).inSize = s.inSize ∧ (selectSlot slot s).host = s.host ∧
      SameOutput s (selectSlot slot s) ∧ (selectSlot slot s).err = s.err ∧
      (selectSlot slot s).total = s.total ∧ (selectSlot slot s).maxBytes = s.maxBytes ∧
      (selectSlot slot s).inBase = s.inBase := by
  cases slot <;> exact ⟨rfl, rfl, rfl, rfl, ⟨rfl, rfl, rfl⟩, rfl, rfl, rfl, rfl⟩

theorem reads_selectSlot (slot : Slot) (s : State) : Reads (selectSlot slot s) slot := by
  cases slot with
  | prsCommand => exact .prsCommand rfl rfl
  | yaz0Command => exact .yaz0Command rfl rfl
  | yay0Command => exact .yay0Command rfl rfl
  | yaz0Header => exact .yaz0Header rfl rfl
  | yay0Header => exact .yay0Header rfl rfl

section place
variable (s : State) (nbits w : Nat)

/-- The slot in which `placeWord` lays a table word out. -/
abbrev placedSlot : Slot := slotOfWord nbits (tableWord nbits w)

theorem wordBytes_length (slot : Slot) : (wordBytes slot w).length = maxInstrBytes := by
  simp [wordBytes]

theorem fetchPlace_lt : fetchPlace s + maxInstrBytes < 2 ^ 32 := by
  unfold fetchPlace
  split
  · assumption
  · decide

/-- The slot selected is the one the next step reads. -/
theorem reads_withFetchWord : Reads (s.withFetchWord nbits w) (placedSlot nbits w) :=
  reads_selectSlot _ _

theorem withFetchWord_cur : (s.withFetchWord nbits w).cur =
    slotCursor (placedSlot nbits w) (tableWord nbits w) (fetchPlace s) := by
  obtain ⟨hcur, -⟩ := selectSlot_frame (placedSlot nbits w) _
  exact hcur

theorem withFetchWord_mem : (s.withFetchWord nbits w).mem =
    s.mem.writeAll (fetchPlace s) (wordBytes (placedSlot nbits w) (tableWord nbits w)) := by
  obtain ⟨-, hmem, -⟩ := selectSlot_frame (placedSlot nbits w) _
  exact hmem

/-- IN_SIZE covers the word. -/
theorem withFetchWord_inSize :
    fetchPlace s + maxInstrBytes ≤ (s.withFetchWord nbits w).inSize.toNat := by
  have hlt := fetchPlace_lt s
  obtain ⟨-, -, hsize, -⟩ := selectSlot_frame (placedSlot nbits w) _
  rw [State.withFetchWord, placeWord, hsize]
  simp only
  split
  · rw [BitVec.toNat_ofNat, Nat.mod_eq_of_lt hlt]
  · omega

theorem withFetchWord_host : (s.withFetchWord nbits w).host = [] := by
  obtain ⟨-, -, -, hhost, -⟩ := selectSlot_frame (placedSlot nbits w) _
  exact hhost

/-- The word's bytes are what the engine reads from the place on. -/
theorem withFetchWord_input (hm : s.mem.wf) {a : Nat} {b : Byte}
    (h : (wordBytes (placedSlot nbits w) (tableWord nbits w))[a]? = some b) :
    (s.withFetchWord nbits w).input (a + fetchPlace s) = some b := by
  obtain ⟨hlt, -⟩ := List.getElem?_eq_some_iff.mp h
  rw [wordBytes_length] at hlt
  have hsize := withFetchWord_inSize s nbits w
  rw [input_eq_some, withFetchWord_mem, Nat.add_comm a]
  exact ⟨by omega, Memory.read_writeAll _ hm h⟩

end place

/-- How far each stream is moved when a word of the slot is laid out from `p` on. -/
def placeOffset (slot : Slot) (p : Nat) (t : Stream) : Nat :=
  if t = .main ∨ slot = .yay0Command then p else 0

theorem placeOffset_slotStreams {slot : Slot} {t : Stream} (h : slotStreams slot t) (p : Nat) :
    placeOffset slot p t = p := if_pos h

theorem slotCursor_shift (slot : Slot) (w p : Nat) :
    slotCursor slot w p = shiftCursor (placeOffset slot p) (slotCursor slot w 0) := by
  unfold slotCursor
  split
  · next hslot =>
    split <;> simp [shiftCursor, placeOffset, hslot, Nat.add_comm]
  · next hslot => simp [shiftCursor, placeOffset, hslot]

/-- Settles O24: the code that stands in the word's bytes stands at the place too, so the step's
decoder reads the same instruction. -/
theorem placedWordRunsNext : Obligations.PlacedWordRunsNext := by
  intro s nbits w i hm hword
  refine ⟨?_, ?_⟩
  · have hdec : ∃ c, decode (placedSlot nbits w)
        (fun a => (wordBytes (placedSlot nbits w) (tableWord nbits w))[a]?)
        (slotCursor (placedSlot nbits w) (tableWord nbits w) 0) = .instr i c := by
      simp only [decodeTableWord] at hword
      split at hword
      · next i' c hdec =>
        cases hword
        exact ⟨c, hdec⟩
      · cases hword
      · cases hword
    obtain ⟨c, hdec⟩ := hdec
    obtain ⟨hslot, hwf, hstands⟩ := decodedCommandStands _ _ _ c i hdec
    have hplaced := standsAt_shift (inp' := (s.withFetchWord nbits w).input)
      (off := placeOffset (placedSlot nbits w) (fetchPlace s)) (fun p hp a b hb => by
        rw [hslot] at hp
        rw [placeOffset_slotStreams hp]
        exact withFetchWord_input s nbits w hm hb) hstands
    rw [← slotCursor_shift, ← withFetchWord_cur] at hplaced
    have hread := decodeInvertsEncode i _ _ _ hwf hplaced
    rw [hslot] at hread
    exact ⟨_, (reads_withFetchWord s nbits w).step_instr (withFetchWord_host s nbits w) hread⟩
  · obtain ⟨-, -, -, -, ⟨hout, hwritten, hhist⟩, hrest⟩ :=
      selectSlot_frame (placedSlot nbits w) _
    exact ⟨⟨hout, hwritten, hhist⟩, hrest⟩

end Sys2Proof.Machine

/-! Copies run through (spec/41_copy_engine.md R169, R170; spec/42_prs.md R186): what `copyOut`
appends, and the run of any number of copy steps. -/

namespace Sys2Proof.Machine

/-! ### The bytes a copy appends -/

@[simp] theorem copyOut_zero (d : Nat) (out : List Byte) : copyOut d 0 out = out := rfl

theorem copyOut_succ (d n : Nat) (out : List Byte) :
    copyOut d (n + 1) out = copyOut d n (out ++ (out[out.length - d]?).toList) := rfl

/-- A copy in two parts. -/
theorem copyOut_add (d m n : Nat) (out : List Byte) :
    copyOut d (m + n) out = copyOut d n (copyOut d m out) := by
  induction m generalizing out with
  | zero => rw [Nat.zero_add, copyOut_zero]
  | succ m ih => rw [Nat.add_right_comm, copyOut_succ, copyOut_succ, ih]

theorem prefix_copyOut (d n : Nat) (out : List Byte) : out <+: copyOut d n out := by
  induction n generalizing out with
  | zero => exact List.prefix_rfl
  | succ n ih => exact (List.prefix_append _ _).trans (ih _)

/-- The output before a copy stays where it is. -/
theorem copyOut_getElem?_before (d n : Nat) {out : List Byte} {j : Nat} (hj : j < out.length) :
    (copyOut d n out)[j]? = out[j]? := by
  obtain ⟨rest, hrest⟩ := prefix_copyOut d n out
  rw [← hrest, List.getElem?_append_left hj]

section copyOut
variable {d : Nat} {out : List Byte} (h1 : 1 ≤ d) (hd : d ≤ out.length)
include h1 hd

/-- The source byte of a distance the output has. -/
theorem source_toList_length : (out[out.length - d]?).toList.length = 1 := by
  rw [List.getElem?_eq_getElem (by omega)]
  rfl

theorem copyOut_length (n : Nat) : (copyOut d n out).length = out.length + n := by
  induction n generalizing out with
  | zero => rfl
  | succ n ih =>
    have hone := source_toList_length h1 hd
    rw [copyOut_succ, ih (by rw [List.length_append]; omega), List.length_append]
    omega

/-- Each byte a copy appends is the one `d` before it. -/
theorem copyOut_getElem?_back {n i : Nat} (hi : i < n) :
    (copyOut d n out)[out.length + i]? = (copyOut d n out)[out.length + i - d]? := by
  have hlen := copyOut_length h1 hd i
  have hlen' := copyOut_length h1 hd (i + 1)
  have hlast : copyOut d (i + 1) out =
      copyOut d i out ++ ((copyOut d i out)[out.length + i - d]?).toList := by
    rw [copyOut_add, copyOut_succ, copyOut_zero, hlen]
  have hsource : out.length + i - d < (copyOut d i out).length := by omega
  have hkeep (j : Nat) (hj : j < out.length + (i + 1)) :
      (copyOut d n out)[j]? = (copyOut d (i + 1) out)[j]? := by
    rw [← Nat.add_sub_cancel' (show i + 1 ≤ n from hi), copyOut_add]
    exact copyOut_getElem?_before d _ (by omega)
  rw [hkeep _ (by omega), hkeep (out.length + i - d) (by omega), hlast,
    List.getElem?_append_right hlen.le, List.getElem?_append_left hsource, hlen, Nat.sub_self,
    List.getElem?_eq_getElem hsource]
  rfl

/-- The bytes a copy appends repeat the last `d` before it (R170). -/
theorem copyOut_getElem?_pattern {n : Nat} : ∀ {i : Nat}, i < n →
    (copyOut d n out)[out.length + i]? = out[out.length - d + i % d]? := by
  intro i
  induction i using Nat.strong_induction_on with
  | _ i ih =>
    intro hi
    rw [copyOut_getElem?_back h1 hd hi]
    by_cases hlt : i < d
    · rw [Nat.mod_eq_of_lt hlt, show out.length + i - d = out.length - d + i by omega]
      exact copyOut_getElem?_before d n (by omega)
    · rw [Nat.mod_eq_sub_mod (by omega), show out.length + i - d = out.length + (i - d) by omega]
      exact ih (i - d) (by omega) (by omega)

/-- The first bytes of a longer copy are the shorter one. -/
theorem take_copyOut {m n : Nat} (hm : m ≤ n) :
    (copyOut d n out).take (out.length + m) = copyOut d m out := by
  obtain ⟨rest, hrest⟩ := prefix_copyOut d (n - m) (copyOut d m out)
  rw [← copyOut_add, Nat.add_sub_cancel' hm] at hrest
  rw [← hrest, ← copyOut_length h1 hd m, List.take_left]

end copyOut

/-! ### The run of a copy -/

theorem SameReader.refl (s : State) : SameReader s s := ⟨rfl, rfl⟩

theorem SameReader.trans {s t u : State} (h : SameReader s t) (k : SameReader t u) :
    SameReader s u := ⟨k.cur.trans h.cur, k.total.trans h.total⟩

/-- `t` is the state after `m` copy steps from `s`. -/
structure CopyRan (s t : State) (m : Nat) : Prop where
  inv : Inv t
  out : t.out = copyOut s.copyDist m s.out
  written : t.written.toNat = s.written.toNat + m
  phase : t.phase = if (s.fmt = 0 ∧ s.maxBytes ≠ 0 ∧ t.written = s.maxBytes) ∨
    (s.fmt ≠ 0 ∧ t.written = s.total) then .done else if m = s.copyRem then .cmd else .copy
  capped : t.capped = if s.fmt = 0 ∧ s.maxBytes ≠ 0 ∧ t.written = s.maxBytes then true
    else s.capped
  rem : t.copyRem = s.copyRem - m
  dist : t.copyDist = s.copyDist
  err : t.err = s.err
  reader : SameReader s t
  inputs : SameInputs s t

/-- One copy step below the counter's top (R169). -/
theorem copyRan_one {s : State} (hinv : Inv s) (hhost : s.host = []) (hphase : s.phase = .copy)
    (hbelow : s.written ≠ 0xFFFFFFFF) : ∃ t, step s = .next t ∧ CopyRan s t 1 := by
  obtain ⟨b, hb, hstep⟩ := hinv.step_copy hhost hphase hbelow
  obtain ⟨-, -, -, hrem, -⟩ := hinv.copyLegal hphase
  have hlast : s.copyRem - 1 = 0 ↔ 1 = s.copyRem := by omega
  refine ⟨_, hstep, stepKeepsInvariant s _ hinv hstep, ?_, ?_, ?_, ?_, by simp, by simp, by simp,
    ⟨by simp, by simp⟩, sameInputs_emitted b _ _ s⟩
  · rw [copyOut_succ, hb, afterEmit_out]
    rfl
  · rw [afterEmit_written, emitted_written, written_succ hbelow]
  · rw [afterEmit_phase, afterEmit_written, emitted_phase]
    simp only [hlast]
    rfl
  · rw [afterEmit_capped, afterEmit_written]
    rfl

/-- A first copy step, and those after it. -/
theorem CopyRan.cons {s t u : State} {m : Nat} (h : CopyRan s t 1) (k : CopyRan t u m)
    (hphase : s.phase = .copy) (hinv : Inv s) (hcapped : t.capped = s.capped)
    (hrem : m < s.copyRem) : CopyRan s u (m + 1) where
  inv := k.inv
  out := by
    obtain ⟨h1, -, hd, -, -⟩ := hinv.copyLegal hphase
    rw [k.out, h.out, h.dist, Nat.add_comm, copyOut_add]
  written := by rw [k.written, h.written]; omega
  phase := by
    have hlast : m = s.copyRem - 1 ↔ m + 1 = s.copyRem := by omega
    rw [k.phase, h.inputs.fmt, h.inputs.maxBytes, h.reader.total, h.rem]
    simp only [hlast]
  capped := by rw [k.capped, h.inputs.fmt, h.inputs.maxBytes, hcapped]
  rem := by rw [k.rem, h.rem]; omega
  dist := k.dist.trans h.dist
  err := k.err.trans h.err
  reader := h.reader.trans k.reader
  inputs := h.inputs.trans k.inputs

/-- Any number of copy steps, as long as bytes are left and neither the counter's top nor the cap
is passed. -/
theorem copy_run {m : Nat} (hm : 1 ≤ m) : ∀ {s : State}, Inv s → s.host = [] →
    s.phase = .copy → m ≤ s.copyRem → s.written.toNat + m ≤ 0xFFFFFFFF →
    (s.fmt = 0 → s.maxBytes ≠ 0 → s.written.toNat + m ≤ s.maxBytes.toNat) →
    ∃ t, core.run m s = .next t ∧ CopyRan s t m := by
  induction m, hm using Nat.le_induction with
  | base =>
    intro s hinv hhost hphase _ htop _
    have hbelow : s.written ≠ 0xFFFFFFFF := by rintro h; simp [h] at htop
    obtain ⟨t, hstep, hran⟩ := copyRan_one hinv hhost hphase hbelow
    exact ⟨t, by rw [run_succ hstep, run_zero], hran⟩
  | succ m hm ih =>
    intro s hinv hhost hphase hrem htop hcap
    have hbelow : s.written ≠ 0xFFFFFFFF := by
      rintro h
      simp [h] at htop
    obtain ⟨t, hstep, hran⟩ := copyRan_one hinv hhost hphase hbelow
    have hwritten := hran.written
    have hnotCap : ¬ (s.fmt = 0 ∧ s.maxBytes ≠ 0 ∧ t.written = s.maxBytes) := by
      rintro ⟨hfmt, hmax, heq⟩
      have := hcap hfmt hmax
      rw [← heq] at this
      omega
    have hnotSize : ¬ (s.fmt ≠ 0 ∧ t.written = s.total) := by
      rintro ⟨hfmt, heq⟩
      have := (hinv.copyInside hphase hfmt).1
      rw [← heq] at this
      omega
    have hcopy : t.phase = .copy := by
      rw [hran.phase, if_neg (not_or.mpr ⟨hnotCap, hnotSize⟩), if_neg (by omega)]
    have hcapped : t.capped = s.capped := by rw [hran.capped, if_neg hnotCap]
    obtain ⟨u, hrun, hrest⟩ := ih hran.inv (hran.inputs.host.trans hhost) hcopy
      (by rw [hran.rem]; omega) (by omega) (by
        rw [hran.inputs.fmt, hran.inputs.maxBytes]
        intro hfmt hmax
        have := hcap hfmt hmax
        omega)
    exact ⟨u, by rw [run_succ hstep, hrun], hran.cons hrest hphase hinv hcapped (by omega)⟩

/-- Settles O31: the copy runs through, and `copyOut` repeats the pattern. -/
theorem copyRepeatsPattern : Obligations.CopyRepeatsPattern := by
  intro s hinv hhost hphase htop hcap
  obtain ⟨h1, -, hd, hrem, -⟩ := hinv.copyLegal hphase
  obtain ⟨t, hrun, hran⟩ := copy_run hrem hinv hhost hphase le_rfl htop hcap
  refine ⟨t, hrun, ?_, ?_, fun i hi => ?_, ?_, hran.reader, hran.inputs⟩
  · rw [hran.out]
    exact prefix_copyOut _ _ _
  · rw [hran.out]
    exact copyOut_length h1 hd _
  · rw [hran.out]
    exact ⟨copyOut_getElem?_back h1 hd hi, copyOut_getElem?_pattern h1 hd hi⟩
  · rw [hran.phase, if_pos rfl]

/-- Settles O32: the run up to the cap ends there. -/
theorem prsCapStopsCopy : Obligations.PrsCapStopsCopy := by
  intro s hinv hhost hphase hfmt hmax hpasses
  obtain ⟨h1, -, hd, -, -⟩ := hinv.copyLegal hphase
  have hahead := hinv.capAhead (.inr hphase) hfmt hmax
  have htop := s.maxBytes.isLt
  have hcounted := hinv.counted
  obtain ⟨t, hrun, hran⟩ := copy_run (m := s.maxBytes.toNat - s.written.toNat) (by omega) hinv
    hhost hphase (by omega) (by omega) (by omega)
  have hwritten : t.written = s.maxBytes := by
    apply BitVec.eq_of_toNat_eq
    rw [hran.written]
    omega
  refine ⟨t, hrun, ?_, ?_, ?_, hwritten, ?_, hran.reader, hran.inputs⟩
  · rw [hran.phase, if_pos (.inl ⟨hfmt, hmax, hwritten⟩)]
  · rw [hran.capped, if_pos ⟨hfmt, hmax, hwritten⟩]
  · rw [hran.err]
    exact hinv.noErr (by simp [hphase])
  · have hlen : s.out.length + (s.maxBytes.toNat - s.written.toNat) = s.maxBytes.toNat := by omega
    rw [hran.out, ← take_copyOut h1 hd (n := s.copyRem) (by omega), hlen]

end Sys2Proof.Machine

/-! Every operation ends (spec/41_copy_engine.md R172): each command takes at least one byte of
`IN` that no command before it took, and a copy has at most 273 steps. -/

namespace Sys2Proof.Machine

/-! ### A command takes bytes -/

/-- The bytes of `IN` that the three streams have not come to. -/
def unread (s : State) : Nat :=
  (s.inSize.toNat - s.cur.inPos) + (s.inSize.toNat - s.cur.cntPos) +
    (s.inSize.toNat - s.cur.datPos)

theorem unread_le (s : State) : unread s ≤ 3 * s.inSize.toNat := by
  unfold unread
  omega

/-- What is unread depends on the cursor and IN_SIZE alone. -/
theorem unread_congr {s t : State} (hcur : t.cur = s.cur) (hsize : t.inSize = s.inSize) :
    unread t = unread s := by
  rw [unread, unread, hcur, hsize]

/-- Bits that stand lead forward. -/
theorem bitsStand_forward {slot : Slot} {inp : Input} {bs : List Bool} :
    ∀ {c m : Cursor}, bitsStand (slotReader slot) inp bs c m → ∀ p, c.ptr p ≤ m.ptr p := by
  induction bs with
  | nil =>
    rintro c m rfl p
    exact le_rfl
  | cons b bs ih =>
    rintro c m ⟨m1, hb, hrest⟩ p
    have hwalk : (slotReader slot inp c).Walks inp (fun _ => True) c := by
      cases slot with
      | prsCommand => exact readBitPRS_walks trivial c
      | yaz0Command | yay0Command | yaz0Header | yay0Header => exact readBitY_walks trivial c
    rw [hb] at hwalk
    exact (hwalk.1.forward p).trans (ih hrest p)

theorem payloadStands_forward {inp : Input} {payload : List (Stream × Byte)} :
    ∀ {c c' : Cursor}, payloadStands inp payload c c' → ∀ p, c.ptr p ≤ c'.ptr p := by
  induction payload with
  | nil =>
    rintro c c' rfl p
    exact le_rfl
  | cons x rest ih =>
    rintro c c' ⟨-, hrest⟩ p
    have hadvance := Cursor.ptr_advance c x.1 p
    have := ih hrest p
    omega

/-- Every code has a payload (R93, R109, R113, R115). -/
theorem payload_ne_nil (i : Instr) : (encode i).payload ≠ [] := by
  rw [← List.length_pos_iff]
  rcases (codeShape i).1 with ⟨-, h, -⟩ | ⟨-, h⟩ <;> omega

/-- A code that stands ends beyond its first payload byte, which is there. -/
theorem standsAt_takes {inp : Input} {i : Instr} {c c' : Cursor} (h : standsAt inp i c c') :
    ∃ p a, c.ptr p ≤ a ∧ a < c'.ptr p ∧ (inp a).isSome = true := by
  obtain ⟨m, hbits, hpayload⟩ := standsAt_iff.mp h
  cases hp : (encode i).payload with
  | nil => exact absurd hp (payload_ne_nil i)
  | cons x rest =>
    rw [hp] at hpayload
    obtain ⟨hb, hrest⟩ := hpayload
    have hadvance := Cursor.ptr_advance m x.1 x.1
    have hforward := payloadStands_forward hrest x.1
    rw [if_pos rfl] at hadvance
    exact ⟨x.1, m.ptr x.1, bitsStand_forward hbits x.1, by omega, by simp [hb]⟩

/-- Reading an instruction leaves fewer bytes unread. -/
theorem unread_decode {s : State} {slot : Slot} {i : Instr} {c : Cursor}
    (hdec : decode slot s.input s.cur = .instr i c) : unread (s.setCur c) < unread s := by
  have hwalk := (decode_walks slot s.input s.cur).1
  rw [hdec] at hwalk
  obtain ⟨-, -, hstands⟩ := decodedCommandStands slot s.input s.cur c i hdec
  obtain ⟨p, a, hle, hlt, hsome⟩ := standsAt_takes hstands
  obtain ⟨b, hb⟩ := Option.isSome_iff_exists.mp hsome
  have hsize := (input_eq_some.mp hb).1
  have hin : s.cur.inPos ≤ c.inPos := hwalk.forward .main
  have hcnt : s.cur.cntPos ≤ c.cntPos := hwalk.forward .count
  have hdat : s.cur.datPos ≤ c.datPos := hwalk.forward .data
  simp only [unread, setCur_inSize, setCur_cur]
  cases p with
  | main =>
    have hlt' : a < c.inPos := hlt
    have hle' : s.cur.inPos ≤ a := hle
    omega
  | count =>
    have hlt' : a < c.cntPos := hlt
    have hle' : s.cur.cntPos ≤ a := hle
    omega
  | data =>
    have hlt' : a < c.datPos := hlt
    have hle' : s.cur.datPos ≤ a := hle
    omega

/-! ### Runs to the end -/

/-- The operation has ended (R172). -/
def Ended (t : State) : Prop := t.phase = .done ∨ t.phase = .error

/-- After an emitted byte the operation has ended, or it goes on in the phase that was set. -/
theorem afterEmit_emitted_phase (b : Byte) (n : Nat) (p : Phase) (s : State) :
    Ended (afterEmit (emitted b n p s)) ∨ (afterEmit (emitted b n p s)).phase = p := by
  rw [Ended, afterEmit_phase]
  split
  · exact .inl (.inl rfl)
  · exact .inr rfl

/-- From `s` the engine comes to `t` with `P t` in at most `n` steps. -/
def Leads (s : State) (n : Nat) (P : State → Prop) : Prop :=
  ∃ k t, k ≤ n ∧ core.run k s = .next t ∧ P t

theorem Leads.now {s : State} {P : State → Prop} (h : P s) (n : Nat) : Leads s n P :=
  ⟨0, s, Nat.zero_le n, run_zero s, h⟩

theorem Leads.step {s t : State} {n : Nat} {P : State → Prop} (hstep : Machine.step s = .next t)
    (h : Leads t n P) : Leads s (n + 1) P := by
  obtain ⟨k, u, hk, hrun, hu⟩ := h
  exact ⟨k + 1, u, by omega, by rw [run_succ hstep, hrun], hu⟩

theorem Leads.bind {s : State} {m n : Nat} {P Q : State → Prop} (h : Leads s m P)
    (hf : ∀ t, P t → Leads t n Q) : Leads s (m + n) Q := by
  obtain ⟨j, t, hj, hrun, ht⟩ := h
  obtain ⟨k, u, hk, hrun', hu⟩ := hf t ht
  exact ⟨j + k, u, by omega, by rw [run_add hrun, hrun'], hu⟩

theorem Leads.mono {s : State} {m n : Nat} {P : State → Prop} (h : Leads s m P) (hmn : m ≤ n) :
    Leads s n P := by
  obtain ⟨k, t, hk, hrun, ht⟩ := h
  exact ⟨k, t, hk.trans hmn, hrun, ht⟩

/-- A state of the invariant at a command step, the engine left alone, with at most `n` unread
bytes. -/
structure AtCommand (n : Nat) (s : State) : Prop where
  inv : Inv s
  host : s.host = []
  phase : s.phase = .cmd
  left : unread s ≤ n

/-- A copy ends the operation or comes to the next command, with as much unread as before. -/
theorem copy_leads {s : State} (hinv : Inv s) (hhost : s.host = []) (hphase : s.phase = .copy) :
    Leads s s.copyRem fun t => Ended t ∨ AtCommand (unread s) t := by
  obtain ⟨n, hn⟩ : ∃ n, s.copyRem = n := ⟨_, rfl⟩
  induction n using Nat.strong_induction_on generalizing s with
  | _ n ih =>
    obtain ⟨-, -, -, hrem, -⟩ := hinv.copyLegal hphase
    obtain ⟨t, hstep⟩ := engineNeverStops s hinv hhost
    have hinv' := stepKeepsInvariant s t hinv hstep
    have hmove := step_move hhost hstep
    have hhost' := hmove.frame.1.host.trans hhost
    refine (Leads.step hstep (n := s.copyRem - 1) ?_).mono (by omega)
    cases hmove with
    | rest hidle => simp [State.busy, hphase] at hidle
    | prsHeader hheader | reserved hheader => cases hheader.symm.trans hphase
    | short hreads | wrongMagic hreads | instr hreads =>
      rcases hreads.phase with hp | hp <;> cases hp.symm.trans hphase
    | copyTop => exact .now (.inl (.inr rfl)) _
    | copyByte _ b =>
      have hunread : unread (afterEmit (emitted b (s.copyRem - 1)
          (if s.copyRem - 1 = 0 then .cmd else .copy) s)) = unread s :=
        unread_congr (by simp) (by simp)
      rcases afterEmit_emitted_phase b (s.copyRem - 1)
        (if s.copyRem - 1 = 0 then .cmd else .copy) s with hend | hphase'
      · exact .now (.inl hend) _
      · by_cases hlast : s.copyRem - 1 = 0
        · exact .now (.inr ⟨hinv', hhost', hphase'.trans (if_pos hlast), hunread.le⟩) _
        · have hrest := ih (s.copyRem - 1) (by omega) hinv' hhost'
            (hphase'.trans (if_neg hlast)) (by simp)
          rw [hunread] at hrest
          simpa using hrest

/-- Where the operation goes after a command: to its end, on to a copy, or to the next command. -/
theorem command_step {n : Nat} {s t : State} (h : AtCommand n s) (hstep : step s = .next t) :
    Ended t ∨ (unread t < n ∧ (t.phase = .cmd ∨ t.phase = .copy)) := by
  have hphase := h.phase
  cases step_move h.host hstep with
  | rest hidle => simp [State.busy, hphase] at hidle
  | prsHeader hheader | reserved hheader => cases hheader.symm.trans hphase
  | copyTop hcopy | copyByte hcopy => cases hcopy.symm.trans hphase
  | short | wrongMagic => exact .inl (.inr rfl)
  | @instr slot i c _ hreads hdec hmove =>
    have hunread : unread (s.setCur c) < n := (unread_decode hdec).trans_le h.left
    cases hmove with
    | ended => exact .inl (.inl rfl)
    | raised => exact .inl (.inr rfl)
    | literal _ b =>
      rw [← unread_congr (t := afterEmit (emitted b (s.setCur c).copyRem (s.setCur c).phase
        (s.setCur c))) (by simp) (by simp)] at hunread
      rcases afterEmit_emitted_phase b (s.setCur c).copyRem (s.setCur c).phase
        (s.setCur c) with hend | hphase'
      · exact .inl hend
      · exact .inr ⟨hunread, .inl (hphase'.trans hphase)⟩
    | copy => exact .inr ⟨hunread, .inr rfl⟩
    | yaz0Header | yay0Header =>
      cases hreads with
      | _ hheader => cases hheader.symm.trans hphase

/-- From a command step the operation ends within 274 steps for each unread byte, and one. -/
theorem AtCommand.ends {n : Nat} : ∀ {s : State}, AtCommand n s → Leads s (274 * n + 1) Ended := by
  induction n using Nat.strong_induction_on with
  | _ n ih =>
    intro s h
    obtain ⟨t, hstep⟩ := engineNeverStops s h.inv h.host
    have hinv := stepKeepsInvariant s t h.inv hstep
    have hhost := (step_move h.host hstep).frame.1.host.trans h.host
    refine Leads.step hstep ?_
    rcases command_step h hstep with hend | ⟨hlt, hcmd | hcopy⟩
    · exact .now hend _
    · exact (ih (unread t) hlt ⟨hinv, hhost, hcmd, le_rfl⟩).mono (by omega)
    · obtain ⟨-, -, -, -, hrem⟩ := hinv.copyLegal hcopy
      refine ((copy_leads hinv hhost hcopy).bind (n := 274 * unread t + 1)
        fun u hu => ?_).mono (by omega)
      rcases hu with hend | hu
      · exact .now hend _
      · exact ih (unread t) hlt hu

/-- The header step of a busy operation ends it or comes to the first command. -/
theorem header_step {s t : State} (hhost : s.host = []) (hphase : s.phase = .header)
    (hstep : step s = .next t) : Ended t ∨ t.phase = .cmd := by
  cases step_move hhost hstep with
  | rest hidle => simp [State.busy, hphase] at hidle
  | prsHeader => exact .inr rfl
  | reserved | short | wrongMagic => exact .inl (.inr rfl)
  | copyTop hcopy | copyByte hcopy => cases hcopy.symm.trans hphase
  | instr hreads hdec hmove =>
    cases hmove with
    | ended => exact .inl (.inl rfl)
    | raised => exact .inl (.inr rfl)
    | literal _ _ hslot | copy _ _ _ hslot =>
      cases (hreads.phase_cmd hslot).symm.trans hphase
    | yaz0Header | yay0Header =>
      rw [Ended, enterBody, setPhase_phase]
      split
      · exact .inl (.inl rfl)
      · exact .inr rfl

/-- Settles O37: the header's step or the copy in progress, then the commands. -/
theorem operationEnds : Obligations.OperationEnds := by
  intro s hinv hhost hbusy
  have hunread := unread_le s
  show Leads s (274 * (3 * s.inSize.toNat + 2)) Ended
  rcases busy_iff.mp hbusy with hphase | hphase | hphase
  · obtain ⟨t, hstep⟩ := engineNeverStops s hinv hhost
    have hinputs := (step_move hhost hstep).frame.1
    refine (Leads.step hstep (n := 274 * unread t + 1) ?_).mono ?_
    · rcases header_step hhost hphase hstep with hend | hcmd
      · exact .now hend _
      · exact AtCommand.ends ⟨stepKeepsInvariant s t hinv hstep, hinputs.host.trans hhost, hcmd,
          le_rfl⟩
    · have hle := unread_le t
      rw [hinputs.inSize] at hle
      omega
  · exact (AtCommand.ends ⟨hinv, hhost, hphase, le_rfl⟩).mono (by omega)
  · obtain ⟨-, -, -, -, hrem⟩ := hinv.copyLegal hphase
    refine ((copy_leads hinv hhost hphase).bind (n := 274 * unread s + 1)
      fun u hu => ?_).mono (by omega)
    rcases hu with hend | hu
    · exact .now hend _
    · exact hu.ends

end Sys2Proof.Machine

/-! The decoders compute what their commands mean (spec/42_prs.md, 43_yaz0.md, 44_yay0.md;
spec/41_copy_engine.md R164 to R170): a command runs from one command step to the next and leaves
the output `expandOne` gives. -/

namespace Sys2Proof.Machine

/-! ### What a command means, by the operation it ends in -/

/-- A command that means something is a literal or a copy. -/
inductive Means (i : Instr) (out o : List Byte) : Prop where
  | literal (L : Byte) (ho : o = out ++ [L])
      (hprs : i.slot = .prsCommand → ∀ s, exec i s = (execLiteral L s).outcome)
      (hy : i.slot ≠ .prsCommand → ∀ s, exec i s = (yLitFinish L s).outcome)
  | copy (d n : Nat) (hd : 1 ≤ d) (hout : d ≤ out.length) (hn : 1 ≤ n) (ho : o = copyOut d n out)
      (hprs : i.slot = .prsCommand → ∀ s, exec i s = (prsCopy d n s).outcome)
      (hy : i.slot ≠ .prsCommand → ∀ s, exec i s = (yCopyFinish d n s).outcome)

theorem means_copy {i : Instr} {out o : List Byte} {d n : Nat} (hd : 1 ≤ d) (hn : 1 ≤ n)
    (h : (if d ≤ out.length then some (copyOut d n out) else none) = some o)
    (hprs : i.slot = .prsCommand → ∀ s, exec i s = (prsCopy d n s).outcome)
    (hy : i.slot ≠ .prsCommand → ∀ s, exec i s = (yCopyFinish d n s).outcome) :
    Means i out o := by
  split at h
  · next hout => exact .copy d n hd hout hn (Option.some.inj h).symm hprs hy
  · cases h

/-- The operands' distances and lengths are those `expandOne` computes from the tables. -/
theorem means_of_expandOne {i : Instr} {out o : List Byte} (h : expandOne i out = some o) :
    Means i out o := by
  cases i with
  | lit L => exact .literal L (Option.some.inj h).symm (fun _ _ => rfl) fun hs => absurd rfl hs
  | scopy s1 s0 O =>
    exact means_copy (scopyDist_range O).1 (by omega) h (fun _ _ => rfl) fun hs => absurd rfl hs
  | lcopy2 f lll =>
    exact means_copy (longDist_range f).1 (by omega) h (fun _ _ => rfl) fun hs => absurd rfl hs
  | lcopy3 f N =>
    exact means_copy (longDist_range f).1 (by omega) h (fun _ _ => rfl) fun hs => absurd rfl hs
  | yaz0Lit L | yay0Lit L => exact .literal L (Option.some.inj h).symm nofun fun _ _ => rfl
  | yaz0Copy2 n D | yay0Copy2 n D =>
    exact means_copy (Nat.le_add_left 1 _) (by omega) h nofun fun _ _ => rfl
  | yaz0Copy3 D E | yay0Copy3 D E =>
    exact means_copy (Nat.le_add_left 1 _) (by omega) h nofun fun _ _ => rfl
  | endMark | yaz0Header | yay0Header => cases h

theorem length_le_of_expandOne {i : Instr} {out o : List Byte} (h : expandOne i out = some o) :
    out.length ≤ o.length := by
  cases means_of_expandOne h with
  | literal L ho => simp [ho]
  | copy d n hd hout _ ho => rw [ho, copyOut_length hd hout]; omega

theorem length_le_of_expand {cmds : List Instr} : ∀ {out o : List Byte},
    expand cmds out = some o → out.length ≤ o.length := by
  induction cmds with
  | nil =>
    rintro out o h
    cases h
    exact le_rfl
  | cons i rest ih =>
    intro out o h
    obtain ⟨o1, h1, h2⟩ := Option.bind_eq_some_iff.mp h
    exact (length_le_of_expandOne h1).trans (ih h2)

/-! ### One command -/

/-- Where a well-formed command stands, the step is that command after its reads. -/
theorem step_stands {s : State} {i : Instr} {m : Cursor} (hreads : Reads s i.slot)
    (hhost : s.host = []) (hwf : i.wf = true) (hstands : standsAt s.input i s.cur m) :
    step s = exec i (s.setCur m) :=
  hreads.step_instr hhost (decodeInvertsEncode i s.input s.cur m hwf hstands)

/-- `t` is a state the engine comes to from `s`, its reads ending at `m`. -/
structure Comes (s t : State) (m : Cursor) : Prop where
  run : ∃ k, core.run k s = .next t
  inv : Inv t
  inputs : SameInputs s t
  total : t.total = s.total
  cur : t.cur = m

theorem Comes.trans {s t u : State} {m m' : Cursor} (h : Comes s t m) (k : Comes t u m') :
    Comes s u m' where
  run := by
    obtain ⟨j, hj⟩ := h.run
    obtain ⟨l, hl⟩ := k.run
    exact ⟨j + l, by rw [run_add hj, hl]⟩
  inv := k.inv
  inputs := h.inputs.trans k.inputs
  total := k.total.trans h.total
  cur := k.cur

theorem comes_step {s t : State} {m : Cursor} (hinv : Inv s) (hhost : s.host = [])
    (hstep : step s = .next t) (htotal : t.total = s.total) (hcur : t.cur = m) : Comes s t m :=
  ⟨⟨1, by rw [run_succ hstep, run_zero]⟩, stepKeepsInvariant s t hinv hstep,
    (step_move hhost hstep).frame.1, htotal, hcur⟩

/-- A whole copy from the step that handed it over, below every limit. -/
theorem comes_copy {s : State} {m : Cursor} {d n : Nat} (hinv : Inv s) (hhost : s.host = [])
    (hstep : step s = .next ((s.setCur m).startCopy d n)) (htop : s.written.toNat + n ≤ 0xFFFFFFFF)
    (hcap : s.fmt = 0 → s.maxBytes = 0) :
    ∃ t, Comes s t m ∧ t.out = copyOut d n s.out ∧ t.written.toNat = s.written.toNat + n ∧
      t.phase = (if s.fmt ≠ 0 ∧ t.written = s.total then .done else .cmd) ∧
      t.capped = s.capped ∧ t.err = s.err := by
  have hfirst : Comes s ((s.setCur m).startCopy d n) m :=
    comes_step hinv hhost hstep rfl rfl
  obtain ⟨-, -, -, hn, -⟩ := hfirst.inv.copyLegal rfl
  obtain ⟨t, hrun, hran⟩ := copy_run hn hfirst.inv hhost rfl le_rfl htop
    fun hfmt hmax => absurd (hcap hfmt) hmax
  refine ⟨t, hfirst.trans ⟨⟨_, hrun⟩, hran.inv, hran.inputs, hran.reader.total, hran.reader.cur⟩,
    hran.out, hran.written, ?_, ?_, hran.err⟩
  · have hnotCap : ¬ (s.fmt = 0 ∧ s.maxBytes ≠ 0 ∧ t.written = s.maxBytes) := fun h =>
      h.2.1 (hcap h.1)
    rw [hran.phase, if_pos rfl]
    simp only [startCopy_fmt, startCopy_maxBytes, startCopy_total, setCur_fmt, setCur_maxBytes,
      setCur_total, hnotCap, false_or]
  · rw [hran.capped, if_neg fun h => h.2.1 (hcap h.1)]
    rfl

/-! ### PRS (R181 to R188) -/

/-- A PRS command without a cap runs to the next command and leaves what it means. -/
theorem prs_command_comes {s : State} {i : Instr} {m : Cursor} {o : List Byte} (hinv : Inv s)
    (hhost : s.host = []) (hphase : s.phase = .cmd) (hfmt : s.fmt = 0) (hmax : s.maxBytes = 0)
    (hslot : i.slot = .prsCommand) (hwf : i.wf = true) (hstands : standsAt s.input i s.cur m)
    (hmeans : expandOne i s.out = some o) (htop : o.length ≤ 0xFFFFFFFF) :
    ∃ t, Comes s t m ∧ t.phase = .cmd ∧ t.out = o := by
  have hstep := step_stands (hslot ▸ .prsCommand hphase hfmt) hhost hwf hstands
  have hcounted := hinv.counted
  cases means_of_expandOne hmeans with
  | literal L ho hexec _ =>
    rw [ho, List.length_append, List.length_singleton] at htop
    have hbelow : (s.setCur m).written ≠ 0xFFFFFFFF := by
      intro h
      rw [setCur_written] at h
      simp [h] at hcounted
      omega
    have hinside : afterEmit (emitted L (s.setCur m).copyRem (s.setCur m).phase (s.setCur m)) =
        emitted L (s.setCur m).copyRem (s.setCur m).phase (s.setCur m) :=
      afterEmit_inside (fun h => h.2.1 hmax) fun h => h.1 hfmt
    rw [hexec hslot, execLiteral_below_top hbelow, Micro.outcome_go, hinside] at hstep
    exact ⟨_, comes_step hinv hhost hstep rfl rfl, hphase, ho.symm⟩
  | copy d n hd hout hn ho hexec _ =>
    rw [ho, copyOut_length hd hout] at htop
    rcases prsCopy_cases d n (s.setCur m) with ⟨hlt, -⟩ | ⟨-, e⟩
    · rw [setCur_written] at hlt
      omega
    · rw [hexec hslot, e, Micro.outcome_go] at hstep
      obtain ⟨t, hcomes, htout, -, htphase, -, -⟩ := comes_copy hinv hhost hstep (by omega)
        fun _ => hmax
      rw [if_neg fun h => h.1 hfmt] at htphase
      exact ⟨t, hcomes, htphase, htout.trans ho.symm⟩

/-- Settles O54, by induction on the commands. -/
theorem prsDecoderExpands : Obligations.PrsDecoderExpands := by
  intro s cmds
  induction cmds generalizing s with
  | nil =>
    intro c' o hinv hhost hphase hfmt hmax _ hstream hexpand htop
    obtain ⟨m, hwf, hstands, rfl⟩ := hstream
    have hstep : step s = .next ((s.setCur m).setPhase .done) :=
      step_stands (.prsCommand hphase hfmt) hhost hwf hstands
    cases hexpand
    exact ⟨1, _, (run_succ hstep 0).trans (run_zero _), rfl, hinv.notCapped (by simp [hphase]),
      hinv.noErr (by simp [hphase]), rfl, rfl⟩
  | cons i rest ih =>
    intro c' o hinv hhost hphase hfmt hmax hslots hstream hexpand htop
    obtain ⟨m, hwf, hstands, hrest⟩ := hstream
    obtain ⟨o1, hone, hmore⟩ := Option.bind_eq_some_iff.mp hexpand
    have hslot := hslots i List.mem_cons_self
    obtain ⟨t, hcomes, htphase, rfl⟩ := prs_command_comes hinv hhost hphase hfmt hmax hslot hwf
      hstands hone ((length_le_of_expand hmore).trans htop)
    obtain ⟨j, hrun⟩ := hcomes.run
    have hinputs := hcomes.inputs
    obtain ⟨k, u, hrun', hu⟩ := ih t c' o hcomes.inv (hinputs.host.trans hhost) htphase
      (hinputs.fmt.trans hfmt) (hinputs.maxBytes.trans hmax)
      (fun x hx => hslots x (List.mem_cons_of_mem i hx))
      (by rwa [hinputs.input, hcomes.cur]) hmore htop
    exact ⟨j + k, u, by rw [run_add hrun, hrun'], hu⟩

/-! ### Yaz0 and Yay0 (R211 to R218, R241 to R244) -/

/-- `t` is what a Yaz0 or Yay0 command that means the output `o` leaves: `o` cut to the declared
size, the operation ended exactly where `o` reaches it. -/
structure YLeaves (s t : State) (o : List Byte) : Prop where
  phase : t.phase = if s.total.toNat ≤ o.length then .done else .cmd
  out : t.out = o.take s.total.toNat
  capped : t.capped = false
  err : t.err = none

/-- The part of a copy that is written is the whole one, cut to the declared size (R215). -/
theorem copyOut_cutLen {s : State} (hinv : Inv s) (hahead : s.written.toNat < s.total.toNat)
    {d n : Nat} (hd : 1 ≤ d) (hout : d ≤ s.out.length) :
    copyOut d (cutLen n s) s.out = (copyOut d n s.out).take s.total.toNat := by
  have hcounted := hinv.counted
  by_cases hfits : n ≤ s.total.toNat - s.written.toNat
  · have hall : cutLen n s = n := Nat.min_eq_left hfits
    rw [hall, List.take_of_length_le (by rw [copyOut_length hd hout]; omega)]
  · have hcut : cutLen n s = s.total.toNat - s.written.toNat := Nat.min_eq_right (by omega)
    have hall : s.out.length + cutLen n s = s.total.toNat := by omega
    rw [← take_copyOut (n := n) hd hout (by omega), hall]

section y
variable {s : State} {m : Cursor} (hinv : Inv s) (hhost : s.host = []) (hphase : s.phase = .cmd)
  (hfmt : s.fmt ≠ 0) (hlimit : s.maxBytes = 0 ∨ s.total.toNat ≤ s.maxBytes.toNat)
include hinv hhost hphase hfmt hlimit

theorem y_literal_comes {L : Byte} (hstep : step s = (yLitFinish L (s.setCur m)).outcome) :
    ∃ t, Comes s t m ∧ YLeaves s t (s.out ++ [L]) := by
  have hcounted := hinv.counted
  have hahead := hinv.sizeAhead (.inl hphase) hfmt
  have htotal := s.total.isLt
  have hbelow : s.written ≠ 0xFFFFFFFF := by
    intro h
    simp [h] at hahead
    omega
  have hwithin : (s.setCur m).maxBytes = 0 ∨
      (s.setCur m).written.toNat + 1 ≤ (s.setCur m).maxBytes.toNat := by
    rw [setCur_maxBytes, setCur_written]
    exact hlimit.imp_right fun h => by omega
  rw [yLitFinish_within hwithin, execLiteral_below_top (s := s.setCur m) hbelow,
    Micro.outcome_go, setCur_copyRem, setCur_phase, hphase] at hstep
  have hlen : (s.out ++ [L]).length = s.written.toNat + 1 := by
    rw [List.length_append, List.length_singleton, hcounted]
  have hreached : s.written + 1 = s.total ↔ s.total.toNat ≤ (s.out ++ [L]).length := by
    rw [hlen, ← BitVec.toNat_inj, written_succ hbelow]
    omega
  have hcap : ¬ (emitted L s.copyRem .cmd (s.setCur m)).atCap := fun h => hfmt h.1
  have hsize : (emitted L s.copyRem .cmd (s.setCur m)).atSize ↔
      s.total.toNat ≤ (s.out ++ [L]).length :=
    ⟨fun h => hreached.mp h.2, fun h => ⟨hfmt, hreached.mpr h⟩⟩
  refine ⟨_, comes_step hinv hhost hstep (by simp) (by simp), ?_, ?_, ?_, ?_⟩
  · rw [afterEmit_phase, emitted_phase]
    simp only [hcap, hsize, false_or]
  · rw [List.take_of_length_le (by omega), afterEmit_out, emitted_out, setCur_out]
  · rw [afterEmit_capped, if_neg hcap]
    exact hinv.notCapped (by simp [hphase])
  · rw [afterEmit_err]
    exact hinv.noErr (by simp [hphase])

theorem y_copy_comes {d n : Nat} (hd : 1 ≤ d) (hout : d ≤ s.out.length) (hn : 1 ≤ n)
    (hstep : step s = (yCopyFinish d n (s.setCur m)).outcome) :
    ∃ t, Comes s t m ∧ YLeaves s t (copyOut d n s.out) := by
  have hcounted := hinv.counted
  have hahead := hinv.sizeAhead (.inl hphase) hfmt
  have htotal := s.total.isLt
  obtain ⟨-, -, hcutTotal⟩ := cutLen_bounds hn hahead
  have hcutLen : cutLen n (s.setCur m) = cutLen n s := rfl
  rcases yCopyFinish_cases d n (s.setCur m) with ⟨hlt, -⟩ | ⟨-, hle, -⟩ | ⟨-, -, h0, hlt, -⟩ |
    ⟨-, -, -, e⟩
  · rw [setCur_written] at hlt
    omega
  · rw [setCur_written, setCur_total] at hle
    omega
  · rw [setCur_maxBytes, setCur_written, hcutLen] at hlt
    rcases hlimit with h | h
    · exact absurd h h0
    · omega
  · rw [e, Micro.outcome_go, hcutLen] at hstep
    obtain ⟨t, hcomes, htout, htwritten, htphase, htcapped, hterr⟩ :=
      comes_copy hinv hhost hstep (by omega) fun h => absurd h hfmt
    have hreached : t.written = s.total ↔ s.total.toNat ≤ (copyOut d n s.out).length := by
      rw [← BitVec.toNat_inj, htwritten, copyOut_length hd hout, cutLen]
      omega
    refine ⟨t, hcomes, ?_, htout.trans (copyOut_cutLen hinv hahead hd hout),
      htcapped.trans (hinv.notCapped (by simp [hphase])),
      hterr.trans (hinv.noErr (by simp [hphase]))⟩
    rw [htphase]
    simp only [hfmt, hreached, ne_eq, not_false_eq_true, true_and]

/-- A Yaz0 or Yay0 command within the limit leaves what it means. -/
theorem y_command_comes {i : Instr} {o : List Byte} (hreads : Reads s i.slot) (hwf : i.wf = true)
    (hstands : standsAt s.input i s.cur m) (hmeans : expandOne i s.out = some o) :
    ∃ t, Comes s t m ∧ YLeaves s t o := by
  have hstep := step_stands hreads hhost hwf hstands
  have hslot : i.slot ≠ .prsCommand := mt hreads.fmt_eq_zero.mpr hfmt
  cases means_of_expandOne hmeans with
  | literal L ho _ hexec =>
    subst ho
    exact y_literal_comes hinv hhost hphase hfmt hlimit (hstep.trans (hexec hslot _))
  | copy d n hd hout hn ho _ hexec =>
    subst ho
    exact y_copy_comes hinv hhost hphase hfmt hlimit hd hout hn (hstep.trans (hexec hslot _))

end y

/-- The slot of a Yaz0 or Yay0 command step, and that it is none of PRS. -/
theorem reads_y {s : State} {slot : Slot} (hphase : s.phase = .cmd)
    (hfmt : s.fmt = 1 ∧ slot = .yaz0Command ∨ s.fmt = 2 ∧ slot = .yay0Command) :
    Reads s slot ∧ s.fmt ≠ 0 := by
  rcases hfmt with ⟨hfmt, rfl⟩ | ⟨hfmt, rfl⟩
  · exact ⟨.yaz0Command hphase hfmt, by simp [hfmt]⟩
  · exact ⟨.yay0Command hphase hfmt, by simp [hfmt]⟩

/-- Settles O55, by induction on the commands before the last one: none of them reaches the
declared size. -/
theorem yazDecodersExpand : Obligations.YazDecodersExpand := by
  intro s slot cmds
  induction cmds generalizing s with
  | nil =>
    intro last c' o o' hinv hhost hphase hfmt hlimit hslots hstream hexpand _ hlast hreached
    obtain ⟨m, hwf, hstands, rfl⟩ := hstream
    obtain ⟨hreads, hfmt0⟩ := reads_y hphase hfmt
    rw [← hslots last List.mem_cons_self] at hreads
    cases hexpand
    obtain ⟨t, hcomes, hleaves⟩ :=
      y_command_comes hinv hhost hphase hfmt0 hlimit hreads hwf hstands hlast
    obtain ⟨k, hrun⟩ := hcomes.run
    exact ⟨k, t, hrun, hleaves.phase.trans (if_pos hreached), hleaves.capped, hleaves.err,
      hleaves.out, hcomes.cur⟩
  | cons i rest ih =>
    intro last c' o o' hinv hhost hphase hfmt hlimit hslots hstream hexpand hshort hlast hreached
    obtain ⟨m, hwf, hstands, hrest⟩ := hstream
    obtain ⟨o1, hone, hmore⟩ := Option.bind_eq_some_iff.mp hexpand
    obtain ⟨hreads, hfmt0⟩ := reads_y hphase hfmt
    rw [← hslots i List.mem_cons_self] at hreads
    obtain ⟨t, hcomes, hleaves⟩ :=
      y_command_comes hinv hhost hphase hfmt0 hlimit hreads hwf hstands hone
    have hlen := length_le_of_expand hmore
    have htphase := hleaves.phase.trans (if_neg (by omega))
    have htout := hleaves.out.trans (List.take_of_length_le (by omega))
    obtain ⟨j, hrun⟩ := hcomes.run
    have hinputs := hcomes.inputs
    obtain ⟨k, u, hrun', hu⟩ := ih t last c' o o' hcomes.inv (hinputs.host.trans hhost) htphase
      (by rwa [hinputs.fmt]) (by rwa [hinputs.maxBytes, hcomes.total])
      (fun x hx => hslots x (List.mem_cons_of_mem i hx)) (by rwa [hinputs.input, hcomes.cur])
      (by rwa [htout]) (by rwa [hcomes.total]) hlast (by rwa [hcomes.total])
    rw [hcomes.total] at hu
    exact ⟨j + k, u, by rw [run_add hrun, hrun'], hu⟩

end Sys2Proof.Machine
